-- ==== Sys2Proof/Word.lean ====
section
/-! DEFINITION. The word types of the block, each at the width the spec fixes (spec/20_memory.md R54, spec/30_encoding.md R70). -/

namespace Sys2Proof

/-- One byte of the serial line or of the line buffer. -/
abbrev Byte := BitVec 8

/-- One device register, and the only bus access width: W = 32 bits (R54). -/
abbrev Word := BitVec 32

/-- One word of the command port, of the response port or of the fault-info port: 64 bits (R70, R82, R43). -/
abbrev CmdWord := BitVec 64

/-- The offset field A of a command word: 28 bits (R71). -/
abbrev Offset := BitVec 28

end Sys2Proof
end

