-- ==== Sys2Proof/Syntax.lean ====
section
/-! DEFINITION. The commands of the block: one constructor per row of spec/opcode_table.json (spec/30_encoding.md R72). -/

namespace Sys2Proof

/-- A command with its operands as R76 assembles them. -/
inductive Instr where
  /-- RESOLVE platform (R100). -/
  | resolve (platform : Word)
  /-- REGR offset (R105). -/
  | regr (off : Offset)
  /-- REGW offset, value (R108). -/
  | regw (off : Offset) (value : Word)
  /-- DELAY count (R120). -/
  | delay (count : Word)
  /-- MBOX (R130). -/
  | mbox
  /-- INIT platform (R150). -/
  | init (platform : Word)
  /-- PUTB byte (R183). -/
  | putb (byte : Byte)
  /-- GETB (R186). -/
  | getb
  /-- PUTS n with the text its payload words carry (R190, R77). -/
  | puts (n : Offset) (text : List Byte)
  /-- GETS (R193). -/
  | gets
  /-- PANIC (R210). -/
  | panic
deriving DecidableEq, Repr

/-- The opcodes of R72, without their operands. -/
inductive Opcode where
  | resolve | regr | regw | delay | mbox | init | putb | getb | puts | gets | panic
deriving DecidableEq, Repr

/-- The opcode of a command. -/
def Instr.opcode : Instr → Opcode
  | .resolve _ => .resolve
  | .regr _ => .regr
  | .regw _ _ => .regw
  | .delay _ => .delay
  | .mbox => .mbox
  | .init _ => .init
  | .putb _ => .putb
  | .getb => .getb
  | .puts _ _ => .puts
  | .gets => .gets
  | .panic => .panic

end Sys2Proof
end

