-- ==== Sys2Proof/WellFormed.lean ====
section
/-! DEFINITION. Which commands have an encoding. Every operand but the PUTS text fits its field by its type. -/

namespace Sys2Proof

/-- R77: the text of PUTS is the byte sequence `text[0..n-1]`, exactly `n` bytes. Every other command is well formed. -/
def Instr.wellFormed : Instr → Bool
  | .resolve _ => true
  | .regr _ => true
  | .regw _ _ => true
  | .delay _ => true
  | .mbox => true
  | .init _ => true
  | .putb _ => true
  | .getb => true
  | .puts n text => text.length == n.toNat
  | .gets => true
  | .panic => true

end Sys2Proof
end

