-- ==== Sys2Proof/Decode.lean ====
section
/-! DEFINITION. The command encoding of spec/30_encoding.md: fields, match and mask rows, payload packing, the decoder of
the command port (total on any words), and after it the encoder. -/

namespace Sys2Proof

/-! ## Fields (R71) -/

/-- `A`, bits 59:32. -/
def fieldA (w : CmdWord) : Offset := w.extractLsb' 32 28

/-- `B`, bits 31:0. -/
def fieldB (w : CmdWord) : Word := w.extractLsb' 0 32

/-- A command word from its three fields, `OPC ++ A ++ B`. -/
def commandFields (opc : BitVec 4) (a : Offset) (b : Word) : CmdWord := opc ++ a ++ b

/-! ## The match and mask rows (R73) -/

/-- The match pattern of an opcode's row. -/
def Opcode.pattern : Opcode → CmdWord
  | .resolve => 0x1000000000000000
  | .regr => 0x2000000000000000
  | .regw => 0x3000000000000000
  | .delay => 0x4000000000000000
  | .mbox => 0x5000000000000000
  | .init => 0x6000000000000000
  | .putb => 0x7000000000000000
  | .getb => 0x8000000000000000
  | .puts => 0x9000000000000000
  | .gets => 0xA000000000000000
  | .panic => 0xB000000000000000

/-- The mask of an opcode's row, as R73 and spec/opcode_table.json print it. -/
def Opcode.mask : Opcode → CmdWord
  | .resolve => 0xFFFFFFF000000000
  | .regr => 0xF0000000FFFFFFFF
  | .regw => 0xF000000000000000
  | .delay => 0xFFFFFFF000000000
  | .mbox => 0xFFFFFFFFFFFFFFFF
  | .init => 0xFFFFFFF000000000
  | .putb => 0xFFFFFFFFFFFFFF00
  | .getb => 0xFFFFFFFFFFFFFFFF
  | .puts => 0xF0000000FFFFFFFF
  | .gets => 0xFFFFFFFFFFFFFFFF
  | .panic => 0xFFFFFFFFFFFFFFFF

/-- The rows, in the table's order. -/
def opcodes : List Opcode :=
  [.resolve, .regr, .regw, .delay, .mbox, .init, .putb, .getb, .puts, .gets, .panic]

/-- R73: a word selects a command when `(word & mask) = match`. -/
def Opcode.selects (o : Opcode) (w : CmdWord) : Bool := w &&& o.mask == o.pattern

/-- The row a command word selects; none for a word that selects no row (R73, R74). -/
def selectOpcode (w : CmdWord) : Option Opcode := opcodes.find? (·.selects w)

/-- R72: the fields that must be zero in a word of the opcode are zero. The printed masks of RESOLVE, DELAY and INIT do
not cover bits 35:32, the low four bits of a field A that R71 and R72 require to be zero; this check does
(notes/assumptions/17.md). -/
def Opcode.zeroFields (o : Opcode) (w : CmdWord) : Bool :=
  match o with
  | .resolve => fieldA w == 0
  | .regr => fieldB w == 0
  | .regw => true
  | .delay => fieldA w == 0
  | .mbox => fieldA w == 0 && fieldB w == 0
  | .init => fieldA w == 0
  | .putb => fieldA w == 0 && (fieldB w).extractLsb' 8 24 == 0
  | .getb => fieldA w == 0 && fieldB w == 0
  | .puts => fieldB w == 0
  | .gets => fieldA w == 0 && fieldB w == 0
  | .panic => fieldA w == 0 && fieldB w == 0

/-- The command a word stands for: it selects a row (R73), and the row's must-be-zero fields are zero (R72, R75); none
for an illegal word. -/
def legalOpcode (w : CmdWord) : Option Opcode :=
  match selectOpcode w with
  | none => none
  | some o => if o.zeroFields w then some o else none

/-! ## Payload words (R70, R77 to R79) -/

/-- `ceil(n/8)`. -/
def payloadCount (n : Nat) : Nat := (n + 7) / 8

/-- Eight or fewer bytes in one word, byte 0 least significant, zero padding (R78, R79). -/
def packWord : List Byte → CmdWord
  | [] => 0
  | b :: bs => b.setWidth 64 ||| (packWord bs <<< 8)

/-- A byte sequence packed into words (R78). -/
def packBytes : List Byte → List CmdWord
  | [] => []
  | b0 :: b1 :: b2 :: b3 :: b4 :: b5 :: b6 :: b7 :: rest =>
    packWord [b0, b1, b2, b3, b4, b5, b6, b7] :: packBytes rest
  | bs => [packWord bs]

/-- The eight bytes of a word, byte 0 least significant (R78). -/
def wordBytes (w : CmdWord) : List Byte :=
  (List.range 8).map fun k => w.extractLsb' (8 * k) 8

/-- Every byte of a payload, in order. -/
def payloadBytes (ws : List CmdWord) : List Byte := ws.flatMap wordBytes

/-- R79: the bytes after the first `n` are padding and must be zero. -/
def paddingZero (n : Nat) (ws : List CmdWord) : Bool := (payloadBytes ws).drop n |>.all (· == 0)

/-! ## The decoder -/

/-- R70: how many payload words follow a command word, told from that word alone: `ceil(A/8)` where `OPC` is 0x9. -/
def payloadLength (w : CmdWord) : Nat :=
  if w.extractLsb' 60 4 = 9 then payloadCount (fieldA w).toNat else 0

/-- R70: a command's length in words. -/
def commandLength (w : CmdWord) : Nat := 1 + payloadLength w

/-- R76: the operands of a command word that selects a row, with its payload. -/
def assembleOperands (o : Opcode) (w : CmdWord) (payload : List CmdWord) : Instr :=
  match o with
  | .resolve => .resolve (fieldB w)
  | .regr => .regr (fieldA w)
  | .regw => .regw (fieldA w) (fieldB w)
  | .delay => .delay (fieldB w)
  | .mbox => .mbox
  | .init => .init (fieldB w)
  | .putb => .putb ((fieldB w).extractLsb' 0 8)
  | .getb => .getb
  | .puts => .puts (fieldA w) ((payloadBytes payload).take (fieldA w).toNat)
  | .gets => .gets
  | .panic => .panic

/-- One command word with its payload: the command, or the offending word of ILLEGAL_COMMAND (R74, R75, R79). The
command word is checked before its payload (R222). -/
def decodeCommand (w : CmdWord) (payload : List CmdWord) : Except CmdWord Instr :=
  match legalOpcode w with
  | none => .error w
  | some o =>
    if o = .puts && !paddingZero (fieldA w).toNat payload then .error (payload.getLastD 0)
    else .ok (assembleOperands o w payload)

/-- What the words at the command port hold (R80). -/
inductive Decoded where
  /-- The command word or a payload word is not there yet. -/
  | incomplete
  /-- An illegal command: `info` is the offending word, `rest` what stands behind the command (R74, R75). -/
  | illegal (info : CmdWord) (rest : List CmdWord)
  /-- A command, and what stands behind it. -/
  | command (i : Instr) (rest : List CmdWord)
deriving DecidableEq, Repr

/-- The decoder of the command port, total on any words (R70, R72 to R80). -/
def decode : List CmdWord → Decoded
  | [] => .incomplete
  | w :: rest =>
    if rest.length < payloadLength w then .incomplete
    else
      match decodeCommand w (rest.take (payloadLength w)) with
      | .error info => .illegal info (rest.drop (payloadLength w))
      | .ok i => .command i (rest.drop (payloadLength w))

/-- The first `k` 64-bit words of a number whose bit 0 is the least significant bit of the first word. -/
def wordsOf (bits : Nat) : Nat → List CmdWord
  | 0 => []
  | k + 1 => BitVec.ofNat 64 bits :: wordsOf (bits / 2 ^ 64) k

/-- The words of an instruction whose low `nbits` bits are `w` and whose other bits are 0: the command word and the
payload words its length asks for. -/
def tableWords (nbits w : Nat) : List CmdWord :=
  wordsOf (w % 2 ^ nbits) (commandLength (BitVec.ofNat 64 (w % 2 ^ nbits)))

/-- The instruction the decoder reads from an instruction of the opcode table; none where it refuses the words. -/
def decodeTableWord (nbits w : Nat) : Option Instr :=
  match decode (tableWords nbits w) with
  | .command i [] => some i
  | _ => none

/-! ## The encoder -/

/-- The command word of a command (R71, R72). -/
def commandWord : Instr → CmdWord
  | .resolve platform => commandFields 0x1 0 platform
  | .regr off => commandFields 0x2 off 0
  | .regw off value => commandFields 0x3 off value
  | .delay count => commandFields 0x4 0 count
  | .mbox => commandFields 0x5 0 0
  | .init platform => commandFields 0x6 0 platform
  | .putb byte => commandFields 0x7 0 (byte.setWidth 32)
  | .getb => commandFields 0x8 0 0
  | .puts n _ => commandFields 0x9 n 0
  | .gets => commandFields 0xA 0 0
  | .panic => commandFields 0xB 0 0

/-- The payload words of a command: only PUTS has any (R70, R77). -/
def payloadWords : Instr → List CmdWord
  | .puts _ text => packBytes text
  | _ => []

/-- The words of a well-formed command, as the host presents them. -/
def encode (i : Instr) : List CmdWord := commandWord i :: payloadWords i

end Sys2Proof
end

