-- ==== Sys2Proof/Config.lean ====
section
/-! DEFINITION. The configuration record `CFG` of spec/00_scope.md R8 with the constraints of R9, the constants the
source fixes, the vocabulary of the bus port, and the free values: what the spec leaves open and nothing here decides. -/

namespace Sys2Proof.Config

/-! ## The fields of `CFG` that the source fixes (R8: a model must use these values) -/

/-- `MBOX_GEN_MIN`: platforms at or above this negotiate the clock (R8, R158). -/
def mboxGenMin : Word := 3

/-- `SETTLE`: the delay count of INIT's steps S3d and S4d (R8, R123). It serves the settle-time hazard of R270, a platform
requirement that no rule checks (notes/assumptions/22.md). -/
def settle : Word := 150

/-- `IBRD_VAL`: the integer baud divisor (R8, R159). -/
def ibrdVal : Word := 1

/-- `FBRD_VAL`: the fractional baud divisor (R8, R159). -/
def fbrdVal : Word := 40

/-- `UART_CLK_HZ`: documentation only (R8, R10). -/
def uartClkHz : Nat := 3000000

/-- `BAUD`: documentation only (R8, R10). -/
def baud : Nat := 115200

/-- `LB_CAP`: the capacity of the line buffer, fixed at 128 (R8, R29). -/
def lbCap : Nat := 128

/-- `PANIC_TEXT`: the 13 bytes of "Thread panic!" (R8, R211). -/
def panicText : List Byte :=
  [0x54, 0x68, 0x72, 0x65, 0x61, 0x64, 0x20, 0x70, 0x61, 0x6E, 0x69, 0x63, 0x21]

/-! ## The open fields of `CFG` -/

/-- The byte offsets `OFF_x` of the thirteen device registers from `BASE` (spec/10_state.md R36). -/
structure Offsets where
  gppud : Nat
  gppudclk0 : Nat
  uartDr : Nat
  uartFr : Nat
  uartIbrd : Nat
  uartFbrd : Nat
  uartLcrh : Nat
  uartCr : Nat
  uartImsc : Nat
  uartIcr : Nat
  mboxRead : Nat
  mboxStatus : Nat
  mboxWrite : Nat
deriving DecidableEq, Repr

/-- The thirteen offsets as a list, in R36's order. -/
def Offsets.all (o : Offsets) : List Nat :=
  [o.gppud, o.gppudclk0, o.uartDr, o.uartFr, o.uartIbrd, o.uartFbrd, o.uartLcrh, o.uartCr, o.uartImsc, o.uartIcr,
    o.mboxRead, o.mboxStatus, o.mboxWrite]

/-- The words `V_x` that INIT writes and the source does not fix (R37). -/
structure Values where
  crOff : Word
  pudOff : Word
  pudclkUart : Word
  pudclkNone : Word
  icrAll : Word
  lcrh : Word
  imsc : Word
  crOn : Word
deriving DecidableEq, Repr

/-- The status masks `M_x` (R38). -/
structure Masks where
  txff : Word
  rxfe : Word
  full : Word
  empty : Word
deriving DecidableEq, Repr

/-- The configuration record `CFG` (R8). `platformMap` holds the finite partial map as pairs; where an identifier
stands twice the first pair counts. Addresses are naturals: `AW` is a parameter, not a fixed width. -/
structure Cfg where
  aw : Nat
  platformMap : List (Word × Nat)
  fallbackBase : Nat
  mboxChannel : Nat
  mboxMsgAddr : Nat
  off : Offsets
  val : Values
  mask : Masks
  busErrors : Bool
deriving DecidableEq, Repr

/-- Every base address the Locator can select: the map's values and the fallback (R9 (a)). -/
def Cfg.bases (c : Cfg) : List Nat := c.fallbackBase :: c.platformMap.map Prod.snd

/-- R9 (a): a base is nonzero, a multiple of 4 and below 2^AW. -/
def Cfg.baseOk (c : Cfg) (b : Nat) : Bool := b != 0 && b % 4 == 0 && decide (b < 2 ^ c.aw)

/-- R9 (b): an offset is a multiple of 4 and below 2^28. -/
def offsetOk (o : Nat) : Bool := o % 4 == 0 && decide (o < 2 ^ 28)

/-- The constraints every `CFG` meets: R8 (`AW` at least 32), R9 (a) to (e), and R38 (every mask is nonzero).
A record that breaks one of them is not a configuration of this hardware, and `step` refuses it. -/
def Cfg.valid (c : Cfg) : Bool :=
  decide (32 ≤ c.aw)
    && c.bases.all c.baseOk
    && c.off.all.all offsetOk
    && c.bases.all (fun b => c.off.all.all fun o => decide (b + o < 2 ^ c.aw))
    && decide (c.mboxChannel < 16)
    && c.mboxMsgAddr % 16 == 0 && c.mboxMsgAddr != 0 && decide (c.mboxMsgAddr < 2 ^ 32)
    && c.mask.txff != 0 && c.mask.rxfe != 0 && c.mask.full != 0 && c.mask.empty != 0

/-- PRESUMED (the spec's own general-knowledge instance `CFG_PI`, R8 and R36 to R38), with `MBOX_MSG_ADDR` at the
test value of spec/95_test_vectors.md: the instance called `CFG_T` there. It is the configuration `State.reset`
carries; a statement about every state holds for every `CFG` (notes/assumptions/1.md). -/
def reference : Cfg where
  aw := 32
  platformMap := [(2, 0x3F000000), (3, 0x3F000000), (4, 0xFE000000)]
  fallbackBase := 0x20000000
  mboxChannel := 8
  mboxMsgAddr := 0x00080010
  off :=
    { gppud := 0x00200094, gppudclk0 := 0x00200098, uartDr := 0x00201000, uartFr := 0x00201018,
      uartIbrd := 0x00201024, uartFbrd := 0x00201028, uartLcrh := 0x0020102C, uartCr := 0x00201030,
      uartImsc := 0x00201038, uartIcr := 0x00201044, mboxRead := 0x0000B880, mboxStatus := 0x0000B898,
      mboxWrite := 0x0000B8A0 }
  val :=
    { crOff := 0, pudOff := 0, pudclkUart := 0x0000C000, pudclkNone := 0, icrAll := 0x000007FF,
      lcrh := 0x00000070, imsc := 0x000007F2, crOn := 0x00000301 }
  mask := { txff := 0x00000020, rxfe := 0x00000010, full := 0x80000000, empty := 0x40000000 }
  busErrors := false

/-! ## The bus port -/

/-- One event on the bus port: one whole 32-bit access (R12, R55). `err` is the error indication of R102 and R103. -/
inductive BusEvent where
  | read (addr : Nat) (value : Word) (err : Bool)
  | write (addr : Nat) (value : Word) (err : Bool)
deriving DecidableEq, Repr

/-- The bus address of an event. -/
def BusEvent.addr : BusEvent → Nat
  | .read a _ _ => a
  | .write a _ _ => a

/-- What the device side answers to one read: a value and an error indication (R12, R236). -/
structure ReadAnswer where
  value : Word
  err : Bool
deriving DecidableEq, Repr, Inhabited

/-! ## The free values (no body: nothing can evaluate them) -/

/-- The answer of the device side to a read that no scripted answer covers: an arbitrary word, which may depend on
every earlier event and differs from read to read (R236; notes/assumptions/2.md). -/
opaque freeRead : Nat → List BusEvent → ReadAnswer

/-- Whether the device side answers a write with an error, where no scripted answer covers it (R236). It counts only
while `BUS_ERRORS` is true (notes/assumptions/2.md). -/
opaque freeWriteErr : Nat → List BusEvent → Bool

/-- `FAULT_INFO` for an address of 2^64 or more, which only an `AW` above 64 can give: `zext_64` of a wider number is
not stated (R11, R220; notes/assumptions/3.md). -/
opaque wideFaultInfo : Nat → CmdWord

end Sys2Proof.Config
end

