-- ==== Sys2Proof/Machine/State.lean ====
section
/-! DEFINITION. The state of the block (spec/10_state.md R20) as plain data, the sequencer's program points, the reasons
a step can stop, and reset (spec/70_reset_and_hazards.md R260). -/

namespace Sys2Proof.Machine

open Sys2Proof.Config (Cfg BusEvent ReadAnswer)

/-! ## The sequencer position `SEQ` (R24)

One label per line of the commands' pseudocode. A value that a line reads and a later line uses (the word REGR read,
the byte RxByte returned) stands in the label: R20 gives it no register (notes/assumptions/5.md). -/

/-- The lines of a Delay body (R120). -/
inductive DelayLine where
  | l1 | l2
deriving DecidableEq, Repr

/-- The lines of MboxCall (R130). M4's two reads are two steps: its STATUS read and its MBOX_READ read (R135). -/
inductive MboxLine where
  | m1 | m2 | m3 | m4Status | m4Read
deriving DecidableEq, Repr

/-- The lines of TxByte (R184). -/
inductive TxLine where
  | t1 | t2
deriving DecidableEq, Repr

/-- The lines of RxByte that make a bus access (R187). -/
inductive RxLine where
  | x1 | x2
deriving DecidableEq, Repr

/-- The lines of INIT (R150). -/
inductive InitLine where
  | s1 | s2 | s3
  | s3d (l : DelayLine)
  | s4
  | s4d (l : DelayLine)
  | s5 | s6 | s7
  | s7m (l : MboxLine)
  | s8a | s8b | s9 | s10 | s11 | s12
deriving DecidableEq, Repr

/-- Which of GETS's three lines an echo belongs to, and so what follows it (R193, G3 to G5). -/
inductive EchoThen where
  /-- G3: CRLF, then G9. -/
  | terminate
  /-- G4: the erase sequence, then the discard. -/
  | erase
  /-- G5: the byte itself, then the store. -/
  | store (b : Byte)
deriving DecidableEq, Repr

/-- The lines of GETS (R193). -/
inductive GetsLine where
  | g0
  | g2 (l : RxLine)
  /-- An echo of G3, G4 or G5: the byte being sent, the bytes still to send, and what follows. -/
  | echo (b : Byte) (more : List Byte) (l : TxLine) (k : EchoThen)
  /-- The last statement of G4. -/
  | g4Discard
  /-- The statements of G5 after its echo. -/
  | g5Store (b : Byte)
  | g9
deriving DecidableEq, Repr

/-- The position of the sequencer (R24). -/
inductive Seq where
  /-- No command runs. -/
  | idle
  | resolveL1
  | regrL1
  | regrL2 (v : Word)
  | regwL1
  | delay (l : DelayLine)
  | mbox (l : MboxLine)
  | init (l : InitLine)
  /-- The entry check of PUTB, GETB, PUTS and GETS (R180). -/
  | e0
  | putb (l : TxLine)
  | getbQ1 (l : RxLine)
  | getbQ2 (b : Byte)
  /-- U1 of PUTS at byte `i`. -/
  | puts (i : Nat) (l : TxLine)
  | gets (l : GetsLine)
  | panicK1
  /-- The step after a command's last line (R81). -/
  | complete
  /-- The panic emission at byte `PIDX` (R226). -/
  | emit (l : TxLine)
  /-- R228. -/
  | halt
deriving DecidableEq, Repr

/-- The two states of the UART Driver's state machine (R22). -/
inductive DrvState where
  | uninitialized | ready
deriving DecidableEq, Repr

/-- The block's fault codes (spec/60_exceptions.md R220). They are values of `FAULT_CODE`; the entry is a next state. -/
inductive FaultCode where
  | none | illegalCommand | addressOverflow | misalignedAccess | busError | byteOpBeforeInit | softwarePanic
deriving DecidableEq, Repr

/-- The number of a fault code (R220). -/
def FaultCode.code : FaultCode → BitVec 8
  | .none => 0
  | .illegalCommand => 1
  | .addressOverflow => 2
  | .misalignedAccess => 3
  | .busError => 4
  | .byteOpBeforeInit => 5
  | .softwarePanic => 6

/-- The state of the machine: the fourteen registers of R20, the command port (R80), and the model's own fields
(the configuration, the bus port's event history, and what the device side answers). -/
structure State where
  /-- `CFG`, fixed for a run (R44): no step changes it. The model's own field (notes/assumptions/1.md). -/
  cfg : Cfg
  /-- `BASE`, an AW-bit value; 0 is "not yet resolved" (R21). -/
  base : Nat
  /-- `DRV_STATE` (R22). -/
  drv : DrvState
  /-- `HALTED` (R23). -/
  halted : Bool
  /-- `SEQ` (R24). -/
  seq : Seq
  /-- `BUSY` (R25). -/
  busy : Bool
  /-- `CUR` (R26). -/
  cur : Option Instr
  /-- `FAULT_CODE` (R27). -/
  faultCode : BitVec 8
  /-- `FAULT_INFO` (R28). -/
  faultInfo : CmdWord
  /-- `LB` (R29). -/
  lb : Vector Byte 128
  /-- `LEN` (R30). -/
  len : BitVec 8
  /-- `MREQ` (R31). -/
  mreq : Word
  /-- `DCNT` (R32). -/
  dcnt : Word
  /-- `PIDX` (R34). -/
  pidx : BitVec 4
  /-- `RESPQ`, oldest first (R35). -/
  respq : List CmdWord
  /-- The words the host has presented and the block has not accepted, oldest first (R80, R84). -/
  port : List CmdWord
  /-- The bus events so far, oldest first. The model's own record (notes/assumptions/13.md). -/
  trace : List BusEvent
  /-- What the device side answers to the next reads; behind its end every answer is a free value
  (R236; notes/assumptions/2.md). The model's own field. -/
  devReads : List ReadAnswer
  /-- Whether the device side answers the next writes with an error; behind its end a free value. The model's own. -/
  devWrites : List Bool
  /-- The index of the next free value. The model's own field. -/
  draws : Nat
deriving DecidableEq, Repr

/-- Why the machine is stuck. The block's own faults are no such stop: their entry is a next state (R224). -/
inductive Fault where
  /-- Raised by a command's meaning, and by a step, at a position of `SEQ` that is no line of the command, and where
  `SEQ` is Idle with `BUSY` = 1: no state a run reaches (R24, R25). Safe: the model stops (notes/assumptions/11.md). -/
  | strayLine
  /-- Raised by a step where `SEQ` is inside a command and `CUR` holds none: no state a run reaches (R26). Safe. -/
  | noCommand
deriving DecidableEq, Repr

/-- Why the model has no step. -/
inductive Refusal where
  /-- An instruction without a meaning; no arm of `exec` raises it. Safe. -/
  | notModelled (mnemonic : String)
  /-- `HALTED` = 1: "the block takes no step" (R228), a command presented then is "never accepted" (R84). Raised by
  `step` and by an acceptance. Safe (notes/assumptions/7.md). -/
  | halted
  /-- `CFG` breaks a constraint of R9: "A model refuses it". Raised by `step`. Safe (notes/assumptions/7.md). -/
  | badConfig
deriving DecidableEq, Repr

/-- Reset for a configuration: every register at the value of R260. `LB`, `MREQ` and `DCNT`, which R260 leaves
unspecified, are DESIGN CHOICE zero (notes/assumptions/4.md). -/
def State.resetFor (c : Cfg) : State where
  cfg := c
  base := 0
  drv := .uninitialized
  halted := false
  seq := .idle
  busy := false
  cur := none
  faultCode := 0
  faultInfo := 0
  lb := Vector.replicate 128 0
  len := 0
  mreq := 0
  dcnt := 0
  pidx := 0
  respq := []
  port := []
  trace := []
  devReads := []
  devWrites := []
  draws := 0

/-- The machine right after reset (R260), with the configuration `Config.reference` (notes/assumptions/1.md). -/
def State.reset : State := State.resetFor Config.reference

end Sys2Proof.Machine
end

