-- ==== Sys2Proof/Machine/Flags.lean ====
section
/-! DEFINITION. The status conditions the block tests, and the STATUS port. The block keeps no condition flags
(spec/10_state.md R33): every test reads its device register anew. -/

namespace Sys2Proof.Machine

/-- R13: a flag is set in `v` when `(v & M) != 0`. -/
def flagSet (v mask : Word) : Bool := v &&& mask != 0

/-- The STATUS port, 32 bits (R43): BUSY, READY, HALTED in bits 0 to 2 and `FAULT_CODE` in bits 15:8; the rest read 0. -/
def State.status (s : State) : Word :=
  (BitVec.ofBool s.busy).setWidth 32
    ||| ((BitVec.ofBool (s.drv == .ready)).setWidth 32 <<< 1)
    ||| ((BitVec.ofBool s.halted).setWidth 32 <<< 2)
    ||| (s.faultCode.setWidth 32 <<< 8)

/-- The FAULT_INFO port, 64 bits (R43). -/
def State.faultInfoPort (s : State) : CmdWord := s.faultInfo

end Sys2Proof.Machine
end

