-- ==== Sys2Proof/Machine/Operands.lean ====
section
/-! DEFINITION. Operand forms (spec/30_encoding.md R76 to R78) and the widenings and constants the lines use. -/

namespace Sys2Proof.Machine

/-- `off = zext_AW(A)` (R76): the byte offset of REGR and REGW, as a natural. -/
def offsetOperand (off : Offset) : Nat := off.toNat

/-- `n = A` (R76): the byte count of PUTS. -/
def countOperand (n : Offset) : Nat := n.toNat

/-- `text[i]` of PUTS (R77); R190 reads it only for `i < n`. -/
def textByte (text : List Byte) (i : Nat) : Byte := text.getD i 0

/-- `zext_32` of a byte: the byte in bits 7:0 (R52, R184). -/
def zext32 (b : Byte) : Word := b.setWidth 32

/-- `d[7:0]` (R187). -/
def lowByte (d : Word) : Byte := d.extractLsb' 0 8

/-- `zext_64` of a device word (R105). -/
def zext64 (v : Word) : CmdWord := v.setWidth 64

/-- `zext_64` of an address or offset of `AW` bits (R220). Of one that needs more than 64 bits the spec states no
value: a free value (notes/assumptions/3.md). -/
def addressInfo (a : Nat) : CmdWord :=
  if a < 2 ^ 64 then BitVec.ofNat 64 a else Config.wideFaultInfo a

/-- A byte constant of R193: line feed, the 0x0A terminator. -/
def byteLf : Byte := 0x0A

/-- Carriage return, 0x0D. -/
def byteCr : Byte := 0x0D

/-- Backspace, 0x08. -/
def byteBs : Byte := 0x08

/-- Space, 0x20. -/
def byteSpace : Byte := 0x20

/-- `PANIC_TEXT[i]` (R211, R226). -/
def panicByte (i : BitVec 4) : Byte := Config.panicText.getD i.toNat 0

/-- The request word `(MBOX_MSG_ADDR[31:0] & 0xFFFFFFF0) | zext_32(MBOX_CHANNEL)` (spec/42_mailbox.md R131). -/
def requestWord (c : Config.Cfg) : Word :=
  (BitVec.ofNat 32 c.mboxMsgAddr &&& 0xFFFFFFF0) ||| BitVec.ofNat 32 c.mboxChannel

/-- `Lookup(platform)` (spec/40_mmio_accessor.md R101). -/
def lookupBase (c : Config.Cfg) (platform : Word) : Nat :=
  match c.platformMap.find? (fun e => e.1 == platform) with
  | some e => e.2
  | none => c.fallbackBase

end Sys2Proof.Machine
end

