-- ==== Sys2Proof/Machine/Ops.lean ====
section
/-! DEFINITION. The shared operations: acceptance, completion and responses; the bus port; the guarded accessor; fault
entry, panic emission and halt; TxByte and RxByte. -/

namespace Sys2Proof.Machine

open Sys2Proof.Config (BusEvent ReadAnswer)

/-- What one step answers. -/
abbrev Out := Host.Outcome State Fault Refusal

/-! ## Sequencing -/

/-- Set the sequencer to a line (R24). -/
def State.goto (l : Seq) (s : State) : State := { s with seq := l }

/-- Acceptance (spec/30_encoding.md R80): `CUR`, `BUSY` and the command's first line. No bus event. -/
def accept (i : Instr) (first : Seq) (s : State) : State := { s with cur := some i, busy := true, seq := first }

/-- Completion (R81). -/
def complete (s : State) : State := { s with busy := false, seq := .idle }

/-- `respond` (R12, R82): append words to `RESPQ`. -/
def respond (ws : List CmdWord) (s : State) : State := { s with respq := s.respq ++ ws }

/-! ## Fault entry, halt (spec/60_exceptions.md R224, R228) -/

/-- `raise Fault(code, info)` (R224): record the first fault, abandon the command, start the emission. `BUSY` is 1
through the emission. Nothing is rolled back and nothing else is saved (R225). -/
def raise (f : FaultCode) (info : CmdWord) (s : State) : State :=
  { s with faultCode := f.code, faultInfo := info, busy := true, pidx := 0, seq := .emit .t1 }

/-- Halt (R228). There is no return from a fault (R229). -/
def haltBlock (s : State) : State := { s with busy := false, halted := true, seq := .idle }

/-! ## The bus port (spec/00_scope.md R12, spec/60_exceptions.md R236) -/

/-- The device side's answer to the next read: a scripted one, else a free value. -/
def State.readAnswer (s : State) : ReadAnswer := s.devReads.headD (Config.freeRead s.draws s.trace)

/-- Whether the device side answers the next write with an error: scripted, else a free value. -/
def State.writeAnswer (s : State) : Bool := s.devWrites.headD (Config.freeWriteErr s.draws s.trace)

/-- The error indication of the next read: only while `BUS_ERRORS` is true (R236). -/
def State.readErr (s : State) : Bool := s.cfg.busErrors && s.readAnswer.err

/-- The error indication of the next write. -/
def State.writeErr (s : State) : Bool := s.cfg.busErrors && s.writeAnswer

/-- The state after `MemRead(ea, 4)`: one bus read event (R12). -/
def memRead (ea : Nat) (s : State) : State :=
  { s with
    trace := s.trace ++ [.read ea s.readAnswer.value s.readErr]
    devReads := s.devReads.tail
    draws := s.draws + 1 }

/-- The state after `MemWrite(ea, 4, v)`: one bus write event (R12). -/
def memWrite (ea : Nat) (v : Word) (s : State) : State :=
  { s with
    trace := s.trace ++ [.write ea v s.writeErr]
    devWrites := s.devWrites.tail
    draws := s.draws + 1 }

/-! ## The guarded accessor (spec/40_mmio_accessor.md R102, R103) -/

/-- How an accessor call ends: with a value, or with a fault to raise. -/
inductive Access (α : Type) where
  | done (a : α) (s : State)
  | trap (f : FaultCode) (info : CmdWord) (s : State)

/-- Go on with an accessor's value, or do what a fault asks for. -/
def Access.finish {α : Type} (r : Access α) (onTrap : FaultCode → CmdWord → State → State)
    (k : α → State → State) : State :=
  match r with
  | .done a s => k a s
  | .trap f info s => onTrap f info s

/-- Inside a command a fault takes the fault entry (R224). -/
def Access.orRaise {α : Type} (r : Access α) (k : α → State → State) : State := r.finish raise k

/-- The fault of an address check before any bus event, if one fails: overflow first, then alignment (R102, R222). -/
def addressFault (off : Nat) (s : State) : Option (FaultCode × CmdWord) :=
  if 2 ^ s.cfg.aw ≤ s.base + off then some (.addressOverflow, addressInfo off)
  else if (s.base + off) % 4 ≠ 0 then some (.misalignedAccess, addressInfo (s.base + off))
  else none

/-- `RegRead(off)` (R102): the zero-base guard, overflow, alignment, one bus read, bus error. -/
def regRead (off : Nat) (s : State) : Access Word :=
  if s.base = 0 then .done 0 s
  else
    match addressFault off s with
    | some (f, info) => .trap f info s
    | none =>
      if s.readErr then .trap .busError (addressInfo (s.base + off)) (memRead (s.base + off) s)
      else .done s.readAnswer.value (memRead (s.base + off) s)

/-- `RegWrite(off, v)` (R103): the zero-base guard, overflow, alignment, one bus write, bus error. -/
def regWrite (off : Nat) (v : Word) (s : State) : Access Unit :=
  if s.base = 0 then .done () s
  else
    match addressFault off s with
    | some (f, info) => .trap f info s
    | none =>
      if s.writeErr then .trap .busError (addressInfo (s.base + off)) (memWrite (s.base + off) v s)
      else .done () (memWrite (s.base + off) v s)

/-- A line that is one `RegWrite` and then the next line. -/
def writeLine (off : Nat) (v : Word) (next : Seq) (s : State) : State :=
  (regWrite off v s).orRaise fun _ s => s.goto next

/-- One evaluation of a wait on a status flag: one read, and whether the flag is set in it (R12, R13, R132). -/
def pollFlag (off : Nat) (mask : Word) (s : State) : Access Bool :=
  match regRead off s with
  | .done v s => .done (flagSet v mask) s
  | .trap f info s => .trap f info s

/-! ## TxByte and RxByte (spec/44_uart_io.md R184, R187); neither has an entry check (R181) -/

/-- One line of `TxByte(b)`: the line it goes on at, or none when it has returned. -/
def txLine (b : Byte) (l : TxLine) (s : State) : Access (Option TxLine) :=
  match l with
  | .t1 =>
    match pollFlag s.cfg.off.uartFr s.cfg.mask.txff s with
    | .done set s => .done (some (if set then .t1 else .t2)) s
    | .trap f info s => .trap f info s
  | .t2 =>
    match regWrite s.cfg.off.uartDr (zext32 b) s with
    | .done _ s => .done none s
    | .trap f info s => .trap f info s

/-- One line of `RxByte()`: the line it goes on at, or the byte it returns. -/
def rxLine (l : RxLine) (s : State) : Access (RxLine ⊕ Byte) :=
  match l with
  | .x1 =>
    match pollFlag s.cfg.off.uartFr s.cfg.mask.rxfe s with
    | .done set s => .done (.inl (if set then .x1 else .x2)) s
    | .trap f info s => .trap f info s
  | .x2 =>
    match regRead s.cfg.off.uartDr s with
    | .done d s => .done (.inr (lowByte d)) s
    | .trap f info s => .trap f info s

/-! ## The panic emission (R226, R227) -/

/-- After a byte of the emission: the next byte, or Halt (R226). -/
def emitNext (s : State) : State :=
  { s with pidx := s.pidx + 1, seq := if s.pidx + 1 < 13 then .emit .t1 else .halt }

/-- One line of the emission. A bus error in it goes straight to Halt and keeps the first fault's record (R227). -/
def emitLine (l : TxLine) (s : State) : State :=
  (txLine (panicByte s.pidx) l s).finish (fun _ _ s => s.goto .halt) fun r s =>
    match r with
    | some l => s.goto (.emit l)
    | none => emitNext s

/-! ## The frame of every command -/

/-- The entry check E0 of PUTB, GETB, PUTS and GETS (R180), then the command's first own line. -/
def entryCheck (i : Instr) (first : Seq) (s : State) : State :=
  if s.drv = .uninitialized ∧ s.base ≠ 0 then raise .byteOpBeforeInit (commandWord i) s else s.goto first

/-- The next step of a command: acceptance where the block is idle (R80), completion after the last line (R81), else
the line `SEQ` names (R24). -/
def runCommand (i : Instr) (first : Seq) (line : Seq → State → Option State) (s : State) : Out :=
  if s.halted then .refused .halted
  else
    match s.seq with
    | .idle => if s.busy then .fault .strayLine else .next (accept i first s)
    | .complete => .next (complete s)
    | l =>
      match line l s with
      | some s' => .next s'
      | none => .fault .strayLine

end Sys2Proof.Machine
end

