-- ==== Sys2Proof/Machine/Accessor.lean ====
section
/-! DEFINITION. RESOLVE, REGR and REGW (spec/40_mmio_accessor.md). -/

namespace Sys2Proof.Machine

/-- L1 of RESOLVE sets `BASE` to `Lookup(platform)` (R100). -/
def resolveLine (platform : Word) (l : Seq) (s : State) : Option State :=
  match l with
  | .resolveL1 => some { s with base := lookupBase s.cfg platform, seq := .complete }
  | _ => none

/-- RESOLVE (R100): no bus event, no fault, in either driver state. -/
def execResolve (platform : Word) (s : State) : Out :=
  runCommand (.resolve platform) .resolveL1 (resolveLine platform) s

/-- L1 of REGR reads the register through the accessor, L2 responds with the word (R105). -/
def regrLine (off : Offset) (l : Seq) (s : State) : Option State :=
  match l with
  | .regrL1 => some ((regRead (offsetOperand off) s).orRaise fun v s => s.goto (.regrL2 v))
  | .regrL2 v => some ((respond [zext64 v] s).goto .complete)
  | _ => none

/-- REGR (R105): legal in both driver states. -/
def execRegr (off : Offset) (s : State) : Out := runCommand (.regr off) .regrL1 (regrLine off) s

/-- L1 of REGW writes the register through the accessor (R108). -/
def regwLine (off : Offset) (value : Word) (l : Seq) (s : State) : Option State :=
  match l with
  | .regwL1 => some (writeLine (offsetOperand off) value .complete s)
  | _ => none

/-- REGW (R108): legal in both driver states. It checks no hazard of spec/70_reset_and_hazards.md: a host that writes
`GPPUD` and `GPPUDCLK0` with REGW must itself put a `DELAY 150` after the `GPPUD` write and one before the de-assert (R270),
must let MBOX complete before it writes the divisors (R272), and must keep the UART disabled meanwhile (R273). These are
platform requirements, recorded in notes/assumptions/22.md. -/
def execRegw (off : Offset) (value : Word) (s : State) : Out :=
  runCommand (.regw off value) .regwL1 (regwLine off value) s

end Sys2Proof.Machine
end

