-- ==== Sys2Proof/Machine/Delay.lean ====
section
/-! DEFINITION. DELAY (spec/41_delay.md R120) and its body, which INIT shares (R123). -/

namespace Sys2Proof.Machine

/-- One line of the Delay body: `stay` is where L2 stands, `leave` the line after the delay. It takes exactly `count`
internal steps after L1, the reference of R122; no bus event (R120). -/
def delayLine (count : Word) (stay leave : Seq) (l : DelayLine) (s : State) : State :=
  match l with
  | .l1 => { s with dcnt := count, seq := if count = 0 then leave else stay }
  | .l2 =>
    if s.dcnt = 0 then s.goto leave
    else { s with dcnt := s.dcnt - 1, seq := if s.dcnt - 1 = 0 then leave else stay }

/-- The lines of DELAY (R120). -/
def delayCommandLine (count : Word) (l : Seq) (s : State) : Option State :=
  match l with
  | .delay l => some (delayLine count (.delay .l2) .complete l s)
  | _ => none

/-- DELAY (R120). -/
def execDelay (count : Word) (s : State) : Out :=
  runCommand (.delay count) (.delay .l1) (delayCommandLine count) s

end Sys2Proof.Machine
end

