-- ==== Sys2Proof/Machine/FaultHook.lean ====
section
/-! DEFINITION. PANIC (spec/45_fault_hook.md R210). -/

namespace Sys2Proof.Machine

/-- K1 of PANIC raises SOFTWARE_PANIC with information 0 (R210). -/
def panicLine (l : Seq) (s : State) : Option State :=
  match l with
  | .panicK1 => some (raise .softwarePanic 0 s)
  | _ => none

/-- PANIC (R210): legal in either driver state, with no entry check. -/
def execPanic (s : State) : Out := runCommand .panic .panicK1 panicLine s

end Sys2Proof.Machine
end

