-- ==== Sys2Proof/Machine/Mailbox.lean ====
section
/-! DEFINITION. MBOX (spec/42_mailbox.md R130) and MboxCall, which INIT shares. -/

namespace Sys2Proof.Machine

/-- One line of MboxCall (R130 to R135): `inside` places its lines, `leave` is the line after the handshake. Each
iteration of M4 reads `MBOX_STATUS` first, and `MBOX_READ` only where `M_EMPTY` is clear (R135). A wait has no bound
(R137). A reply that is not `MREQ`, all 32 bits compared, is dropped (R134, R136). -/
def mboxLine (inside : MboxLine → Seq) (leave : Seq) (l : MboxLine) (s : State) : State :=
  match l with
  | .m1 => { s with mreq := requestWord s.cfg, seq := inside .m2 }
  | .m2 =>
    (pollFlag s.cfg.off.mboxStatus s.cfg.mask.full s).orRaise fun set s =>
      s.goto (if set then inside .m2 else inside .m3)
  | .m3 => writeLine s.cfg.off.mboxWrite s.mreq (inside .m4Status) s
  | .m4Status =>
    (pollFlag s.cfg.off.mboxStatus s.cfg.mask.empty s).orRaise fun set s =>
      s.goto (if set then inside .m4Status else inside .m4Read)
  | .m4Read =>
    (regRead s.cfg.off.mboxRead s).orRaise fun v s =>
      s.goto (if v ≠ s.mreq then inside .m4Status else leave)

/-- The lines of MBOX (R130). -/
def mboxCommandLine (l : Seq) (s : State) : Option State :=
  match l with
  | .mbox l => some (mboxLine .mbox .complete l s)
  | _ => none

/-- MBOX (R130). While `BASE` is 0 it never ends (R138, R275); the block does not check it. -/
def execMbox (s : State) : Out := runCommand .mbox (.mbox .m1) mboxCommandLine s

end Sys2Proof.Machine
end

