-- ==== Sys2Proof/Machine/Init.lean ====
section
/-! DEFINITION. INIT (spec/43_uart_init.md R150). -/

namespace Sys2Proof.Machine

/-- One line of INIT (R150 to R163). Its order meets the hazards the block does not check: the two settle times (S3d, S4d:
R270), the clock before the divisors (S7 before S8a: R272) and the UART disabled meanwhile (S2 to S11: R273). -/
def initLine (platform : Word) (l : InitLine) (s : State) : State :=
  match l with
  | .s1 => { s with base := lookupBase s.cfg platform, seq := .init .s2 }
  | .s2 => writeLine s.cfg.off.uartCr s.cfg.val.crOff (.init .s3) s
  | .s3 => writeLine s.cfg.off.gppud s.cfg.val.pudOff (.init (.s3d .l1)) s
  | .s3d l => delayLine Config.settle (.init (.s3d .l2)) (.init .s4) l s
  | .s4 => writeLine s.cfg.off.gppudclk0 s.cfg.val.pudclkUart (.init (.s4d .l1)) s
  | .s4d l => delayLine Config.settle (.init (.s4d .l2)) (.init .s5) l s
  | .s5 => writeLine s.cfg.off.gppudclk0 s.cfg.val.pudclkNone (.init .s6) s
  | .s6 => writeLine s.cfg.off.uartIcr s.cfg.val.icrAll (.init .s7) s
  | .s7 => s.goto (if Config.mboxGenMin ≤ platform then .init (.s7m .m1) else .init .s8a)
  | .s7m l => mboxLine (fun l => .init (.s7m l)) (.init .s8a) l s
  | .s8a => writeLine s.cfg.off.uartIbrd Config.ibrdVal (.init .s8b) s
  | .s8b => writeLine s.cfg.off.uartFbrd Config.fbrdVal (.init .s9) s
  | .s9 => writeLine s.cfg.off.uartLcrh s.cfg.val.lcrh (.init .s10) s
  | .s10 => writeLine s.cfg.off.uartImsc s.cfg.val.imsc (.init .s11) s
  | .s11 => writeLine s.cfg.off.uartCr s.cfg.val.crOn (.init .s12) s
  | .s12 => { s with drv := .ready, seq := .complete }

/-- The lines of INIT as positions of the sequencer. -/
def initCommandLine (platform : Word) (l : Seq) (s : State) : Option State :=
  match l with
  | .init l => some (initLine platform l s)
  | _ => none

/-- INIT (R150). In Ready it runs the whole sequence again (R164). -/
def execInit (platform : Word) (s : State) : Out :=
  runCommand (.init platform) (.init .s1) (initCommandLine platform) s

end Sys2Proof.Machine
end

