-- ==== Sys2Proof/Machine/UartIo.lean ====
section
/-! DEFINITION. PUTB, GETB, PUTS and GETS (spec/44_uart_io.md). -/

namespace Sys2Proof.Machine

/-- The lines of PUTB: E0, then `TxByte(byte)` (R183). -/
def putbLine (byte : Byte) (l : Seq) (s : State) : Option State :=
  match l with
  | .e0 => some (entryCheck (.putb byte) (.putb .t1) s)
  | .putb l =>
    some ((txLine byte l s).orRaise fun r s =>
      match r with
      | some l => s.goto (.putb l)
      | none => s.goto .complete)
  | _ => none

/-- PUTB (R183). -/
def execPutb (byte : Byte) (s : State) : Out := runCommand (.putb byte) .e0 (putbLine byte) s

/-- The lines of GETB: E0, then `RxByte()`, then the response (R186). -/
def getbLine (l : Seq) (s : State) : Option State :=
  match l with
  | .e0 => some (entryCheck .getb (.getbQ1 .x1) s)
  | .getbQ1 l =>
    some ((rxLine l s).orRaise fun r s =>
      match r with
      | .inl l => s.goto (.getbQ1 l)
      | .inr b => s.goto (.getbQ2 b))
  | .getbQ2 b => some ((respond [zext64 (zext32 b)] s).goto .complete)
  | _ => none

/-- GETB (R186). -/
def execGetb (s : State) : Out := runCommand .getb .e0 getbLine s

/-- Where the loop of PUTS stands before byte `i`: at that byte, or past the last one (R190, R191). -/
def putsAt (n : Offset) (i : Nat) : Seq := if i < countOperand n then .puts i .t1 else .complete

/-- The lines of PUTS: E0, then `TxByte(text[i])` for every `i` in order (R190). -/
def putsLine (n : Offset) (text : List Byte) (l : Seq) (s : State) : Option State :=
  match l with
  | .e0 => some (entryCheck (.puts n text) (putsAt n 0) s)
  | .puts i l =>
    some ((txLine (textByte text i) l s).orRaise fun r s =>
      match r with
      | some l => s.goto (.puts i l)
      | none => s.goto (putsAt n (i + 1)))
  | _ => none

/-- PUTS (R190). -/
def execPuts (n : Offset) (text : List Byte) (s : State) : Out := runCommand (.puts n text) .e0 (putsLine n text) s

/-- The line a received byte leads to: G3 for LF and CR (R195), G4 for backspace (R196), G5 for any other (R197). -/
def classify (b : Byte) : GetsLine :=
  if b = byteLf ∨ b = byteCr then .echo byteCr [byteLf] .t1 .terminate
  else if b = byteBs then .echo byteBs [byteSpace, byteBs] .t1 .erase
  else .echo b [] .t1 (.store b)

/-- What follows an echo. -/
def EchoThen.line : EchoThen → GetsLine
  | .terminate => .g9
  | .erase => .g4Discard
  | .store b => .g5Store b

/-- `LB[i] <- b`. R193 writes `LB` only at `LEN` < 128. -/
def lineStore (lb : Vector Byte 128) (i : Nat) (b : Byte) : Vector Byte 128 :=
  if h : i < 128 then lb.set i b h else lb

/-- G4's discard (R196): the cursor never goes below 0. -/
def discardByte (s : State) : State :=
  { s with len := if s.len = 0 then 0 else s.len - 1, seq := .gets (.g2 .x1) }

/-- G5's store (R197) and the full check right after it (R198). -/
def storeByte (b : Byte) (s : State) : State :=
  { s with
    lb := lineStore s.lb s.len.toNat b
    len := s.len + 1
    seq := if (s.len + 1).toNat = Config.lbCap then .gets .g9 else .gets (.g2 .x1) }

/-- The response of GETS (R199, R82): `LEN`, then the packed bytes `LB[0..LEN-1]`. -/
def lineResponse (s : State) : List CmdWord :=
  s.len.setWidth 64 :: packBytes (s.lb.toList.take s.len.toNat)

/-- One line of GETS after its entry check (R193). -/
def getsLine (l : GetsLine) (s : State) : State :=
  match l with
  | .g0 => { s with len := 0, seq := .gets (.g2 .x1) }
  | .g2 l =>
    (rxLine l s).orRaise fun r s =>
      match r with
      | .inl l => s.goto (.gets (.g2 l))
      | .inr b => s.goto (.gets (classify b))
  | .echo b more l k =>
    (txLine b l s).orRaise fun r s =>
      match r, more with
      | some l, more => s.goto (.gets (.echo b more l k))
      | none, b' :: more' => s.goto (.gets (.echo b' more' .t1 k))
      | none, [] => s.goto (.gets k.line)
  | .g4Discard => discardByte s
  | .g5Store b => storeByte b s
  | .g9 => (respond (lineResponse s) s).goto .complete

/-- The lines of GETS as positions of the sequencer: E0, then `getsLine` (R193). -/
def getsCommandLine (l : Seq) (s : State) : Option State :=
  match l with
  | .e0 => some (entryCheck .gets (.gets .g0) s)
  | .gets l => some (getsLine l s)
  | _ => none

/-- GETS (R193). -/
def execGets (s : State) : Out := runCommand .gets .e0 getsCommandLine s

end Sys2Proof.Machine
end

