-- ==== Sys2Proof/Machine/Dispatch.lean ====
section
/-! DEFINITION. One arm per command: the next step of that command. -/

namespace Sys2Proof.Machine

def exec (i : Instr) (s : State) : Host.Outcome State Fault Refusal :=
  match i with
  | .resolve platform => Sys2Proof.Machine.execResolve platform s
  | .regr off => Sys2Proof.Machine.execRegr off s
  | .regw off value => Sys2Proof.Machine.execRegw off value s
  | .delay count => Sys2Proof.Machine.execDelay count s
  | .mbox => Sys2Proof.Machine.execMbox s
  | .init platform => Sys2Proof.Machine.execInit platform s
  | .putb byte => Sys2Proof.Machine.execPutb byte s
  | .getb => Sys2Proof.Machine.execGetb s
  | .puts n text => Sys2Proof.Machine.execPuts n text s
  | .gets => Sys2Proof.Machine.execGets s
  | .panic => Sys2Proof.Machine.execPanic s

end Sys2Proof.Machine
end

