-- ==== Sys2Proof/Machine/HostPort.lean ====
section
/-! DEFINITION. What the host and the platform do to the block between two steps (spec/60_exceptions.md R239,
spec/30_encoding.md R84, spec/70_reset_and_hazards.md R261). Reading STATUS and FAULT_INFO is in Flags.lean. -/

namespace Sys2Proof.Machine

/-- The host presents words at the command port: they wait there behind what stands there (R84). -/
def State.present (ws : List CmdWord) (s : State) : State := { s with port := s.port ++ ws }

/-- The host takes the word at the head of `RESPQ`, if there is one (R35, R239). -/
def State.takeResponse (s : State) : Option (CmdWord × State) :=
  match s.respq with
  | [] => none
  | w :: ws => some (w, { s with respq := ws })

/-- The host asserts reset (R260, R261): every register takes its reset value, the words at the command port are
discarded, a running command is abandoned without a fault. The configuration, the bus history and the device side's
answers are outside the block and stay. -/
def State.assertReset (s : State) : State :=
  { State.resetFor s.cfg with trace := s.trace, devReads := s.devReads, devWrites := s.devWrites, draws := s.draws }

end Sys2Proof.Machine
end

