-- ==== Sys2Proof/Machine/Sequencer.lean ====
section
/-! DEFINITION. Whose turn the next step is (spec/10_state.md R24, spec/30_encoding.md R80): the acceptance of the command
at the port, the running command, the fault path, or none. -/

namespace Sys2Proof.Machine

/-- What the next step does. -/
inductive Turn where
  /-- The step is taken without a command: a wait at the port, the entry of ILLEGAL_COMMAND, the emission, halt. -/
  | settled (s : State)
  /-- The step is the next one of a command: its acceptance (with its words taken off the port) or its line. -/
  | run (i : Instr) (s : State)
  | stuck (f : Fault)
  | refuse (r : Refusal)

/-- The head of the command port while the block is idle (R80): an incomplete command waits; an illegal one raises
ILLEGAL_COMMAND with the offending word (R74, R75); a legal one is accepted. No bus event in this step. -/
def portTurn (s : State) : Turn :=
  match decode s.port with
  | .incomplete => .settled s
  | .illegal info rest => .settled (raise .illegalCommand info { s with port := rest })
  | .command i rest => .run i { s with port := rest }

/-- The step `SEQ` asks for. A halted block takes no step (R228), an invalid `CFG` is refused (R9). -/
def turn (s : State) : Turn :=
  if s.halted then .refuse .halted
  else if !s.cfg.valid then .refuse .badConfig
  else
    match s.seq with
    | .idle => if s.busy then .stuck .strayLine else portTurn s
    | .emit l => .settled (emitLine l s)
    | .halt => .settled (haltBlock s)
    | _ =>
      match s.cur with
      | some i => .run i s
      | none => .stuck .noCommand

/-- The state in which a command's words stand at the head of the port and the block is ready to accept them. -/
def placeCommand (ws : List CmdWord) (s : State) : State :=
  { s with port := ws ++ s.port, seq := .idle, busy := false, halted := false }

end Sys2Proof.Machine
end

