-- ==== Sys2Proof/Machine/Step.lean ====
section
/-! DEFINITION. One step of the block (spec/00_scope.md R7). -/

namespace Sys2Proof.Machine

/-- One step: one command accepted, one line of the running command with at most one bus access, one internal delay
step, one completion, or one step of the fault path (R7, R24). -/
def step (s : State) : Host.Outcome State Fault Refusal :=
  match turn s with
  | .settled s' => .next s'
  | .run i s' => exec i s'
  | .stuck f => .fault f
  | .refuse r => .refused r

/-- The instruction's words (with the payload words its length asks for) at the head of the command port of an idle
block: the next step accepts it (notes/assumptions/12.md). -/
def State.withFetchWord (s : State) (nbits w : Nat) : State := placeCommand (tableWords nbits w) s

end Sys2Proof.Machine
end

