-- ==== Sys2Proof/Machine/Assembler.lean ====
section
/-! DEFINITION. The command syntax of spec/30_encoding.md R85 and the pseudo-commands of R86, as a function from one line
of text to the words the host presents. What R85 and R86 leave open (blanks, letter case, other escapes) is refused or
fixed in notes/assumptions/16.md. -/

namespace Sys2Proof.Machine

/-- A token of a line. -/
inductive AsmToken where
  /-- A mnemonic or a numeric literal. -/
  | word (cs : List Char)
  /-- A character literal (R86). -/
  | char (b : Byte)
  /-- A string literal, its escapes resolved (R86). -/
  | text (bs : List Byte)
  | comma
deriving DecidableEq, Repr

/-- Where the lexer stands; `rev` holds what the current token has so far, last first. -/
inductive LexMode where
  | blank
  | word (rev : List Char)
  | quoted (isText : Bool) (rev : List Byte)
  | escape (isText : Bool) (rev : List Byte)
  | hexHigh (isText : Bool) (rev : List Byte)
  | hexLow (isText : Bool) (rev : List Byte) (high : Nat)
deriving DecidableEq, Repr

/-- The value of a digit in base 16. -/
def digitValue (c : Char) : Option Nat :=
  if '0' ≤ c ∧ c ≤ '9' then some (c.toNat - '0'.toNat)
  else if 'a' ≤ c ∧ c ≤ 'f' then some (c.toNat - 'a'.toNat + 10)
  else if 'A' ≤ c ∧ c ≤ 'F' then some (c.toNat - 'A'.toNat + 10)
  else none

/-- The quotation mark that closes a literal: double for a string, single for a character. -/
def quoteOf (isText : Bool) : Nat := if isText then 34 else 39

/-- The byte of a one-letter escape of R86. -/
def escapeByte (c : Char) : Option Byte :=
  if c = 'r' then some 0x0D else if c = 'n' then some 0x0A else if c = 'b' then some 0x08 else none

/-- The token a word in progress makes, before what follows it. -/
def flushWord (rev : List Char) (rest : List AsmToken) : List AsmToken := .word rev.reverse :: rest

/-- A closed literal as a token: a character literal holds exactly one byte. -/
def literalToken (isText : Bool) (rev : List Byte) : Option AsmToken :=
  if isText then some (.text rev.reverse)
  else
    match rev with
    | [b] => some (.char b)
    | _ => none

/-- A blank between tokens. -/
def isBlank (c : Char) : Bool := c = ' ' || c = '\t' || c = '\r'

/-- The tokens of a line (R85: a semicolon starts a comment); none where the line is malformed. -/
def lexLine : LexMode → List Char → Option (List AsmToken)
  | .blank, [] => some []
  | .word rev, [] => some (flushWord rev [])
  | .quoted _ _, [] => none
  | .escape _ _, [] => none
  | .hexHigh _ _, [] => none
  | .hexLow _ _ _, [] => none
  | .blank, c :: cs =>
    if isBlank c then lexLine .blank cs
    else if c = ';' then some []
    else if c = ',' then (lexLine .blank cs).map (.comma :: ·)
    else if c.toNat = quoteOf true then lexLine (.quoted true []) cs
    else if c.toNat = quoteOf false then lexLine (.quoted false []) cs
    else lexLine (.word [c]) cs
  | .word rev, c :: cs =>
    if isBlank c then (lexLine .blank cs).map (flushWord rev)
    else if c = ';' then some (flushWord rev [])
    else if c = ',' then (lexLine .blank cs).map fun ts => flushWord rev (.comma :: ts)
    else lexLine (.word (c :: rev)) cs
  | .quoted isText rev, c :: cs =>
    if c.toNat = quoteOf isText then
      match literalToken isText rev with
      | some t => (lexLine .blank cs).map (t :: ·)
      | none => none
    else if c.toNat = 92 then lexLine (.escape isText rev) cs
    else if c.toNat < 128 then lexLine (.quoted isText (BitVec.ofNat 8 c.toNat :: rev)) cs
    else none
  | .escape isText rev, c :: cs =>
    if c = 'x' then lexLine (.hexHigh isText rev) cs
    else
      match escapeByte c with
      | some b => lexLine (.quoted isText (b :: rev)) cs
      | none => none
  | .hexHigh isText rev, c :: cs =>
    match digitValue c with
    | some h => lexLine (.hexLow isText rev h) cs
    | none => none
  | .hexLow isText rev high, c :: cs =>
    match digitValue c with
    | some l => lexLine (.quoted isText (BitVec.ofNat 8 (16 * high + l) :: rev)) cs
    | none => none

/-- Digits in a base, most significant first. -/
def digitsValue (base : Nat) : List Char → Nat → Option Nat
  | [], acc => some acc
  | c :: cs, acc =>
    match digitValue c with
    | some d => if d < base then digitsValue base cs (acc * base + d) else none
    | none => none

/-- A numeric literal, decimal or `0x` hexadecimal (R85), that fits in `w` bits. -/
def literalOf (w : Nat) (t : AsmToken) : Option (BitVec w) :=
  match t with
  | .word ('0' :: 'x' :: c :: cs) =>
    match digitsValue 16 (c :: cs) 0 with
    | some v => if v < 2 ^ w then some (BitVec.ofNat w v) else none
    | none => none
  | .word (c :: cs) =>
    match digitsValue 10 (c :: cs) 0 with
    | some v => if v < 2 ^ w then some (BitVec.ofNat w v) else none
    | none => none
  | _ => none

/-- The operand of PUTB: an 8-bit literal or a character literal (R85, R86). -/
def byteOperand (t : AsmToken) : Option Byte :=
  match t with
  | .char b => some b
  | t => literalOf 8 t

/-- The payload words of `PUTS n, w0, w1, …`: each behind a comma (R85). -/
def payloadOperands : List AsmToken → Option (List CmdWord)
  | [] => some []
  | .comma :: t :: rest =>
    match literalOf 64 t, payloadOperands rest with
    | some w, some ws => some (w :: ws)
    | _, _ => none
  | _ => none

/-- The mnemonics of R72. -/
def mnemonicOf : Opcode → List Char
  | .resolve => ['R', 'E', 'S', 'O', 'L', 'V', 'E']
  | .regr => ['R', 'E', 'G', 'R']
  | .regw => ['R', 'E', 'G', 'W']
  | .delay => ['D', 'E', 'L', 'A', 'Y']
  | .mbox => ['M', 'B', 'O', 'X']
  | .init => ['I', 'N', 'I', 'T']
  | .putb => ['P', 'U', 'T', 'B']
  | .getb => ['G', 'E', 'T', 'B']
  | .puts => ['P', 'U', 'T', 'S']
  | .gets => ['G', 'E', 'T', 'S']
  | .panic => ['P', 'A', 'N', 'I', 'C']

/-- The words of a command with its operand tokens. -/
def assembleOp (o : Opcode) (operands : List AsmToken) : Option (List CmdWord) :=
  match o, operands with
  | .resolve, [p] => (literalOf 32 p).map fun p => encode (.resolve p)
  | .regr, [a] => (literalOf 28 a).map fun a => encode (.regr a)
  | .regw, [a, .comma, v] =>
    match literalOf 28 a, literalOf 32 v with
    | some a, some v => some (encode (.regw a v))
    | _, _ => none
  | .delay, [c] => (literalOf 32 c).map fun c => encode (.delay c)
  | .mbox, [] => some (encode .mbox)
  | .init, [p] => (literalOf 32 p).map fun p => encode (.init p)
  | .putb, [b] => (byteOperand b).map fun b => encode (.putb b)
  | .getb, [] => some (encode .getb)
  | .puts, [.text bs] =>
    if bs.length < 2 ^ 28 then some (encode (.puts (BitVec.ofNat 28 bs.length) bs)) else none
  | .puts, n :: ws =>
    match literalOf 28 n, payloadOperands ws with
    | some n, some ws =>
      if ws.length = payloadCount n.toNat then some (commandWord (.puts n []) :: ws) else none
    | _, _ => none
  | .gets, [] => some (encode .gets)
  | .panic, [] => some (encode .panic)
  | _, _ => none

/-- One line of text (R85, R86): the words of its command, no words for a line without a command, none where the line
is not of the syntax. -/
def assembleLine (line : List Char) : Option (List CmdWord) :=
  match lexLine .blank line with
  | some [] => some []
  | some (.word m :: operands) =>
    match opcodes.find? (fun o => mnemonicOf o == m) with
    | some o => assembleOp o operands
    | none => none
  | _ => none

end Sys2Proof.Machine
end

