-- ==== Sys2Proof/Safety.lean ====
section
/-! DEFINITION. The terms claims use: runs, the invariant of the block, the first line of each command, what a fault entry
leaves, and the pure line editor that GETS is held against. -/

namespace Sys2Proof.Machine

open Sys2Proof.Config (Cfg BusEvent ReadAnswer)

/-! ## Runs -/

/-- `n` steps, stopping at the first fault or refusal. -/
def runSteps : Nat → State → Out
  | 0, s => .next s
  | n + 1, s =>
    match step s with
    | .next s' => runSteps n s'
    | .fault f => .fault f
    | .refused r => .refused r

/-- The block accepts a command (R80): not halted, not busy, at Idle, under a `CFG` that meets R9. -/
structure Accepting (s : State) : Prop where
  cfg : s.cfg.valid = true
  halted : s.halted = false
  busy : s.busy = false
  seq : s.seq = .idle

/-- The block stands at a line of a running command (R24, R25), under a `CFG` that meets R9. -/
structure RunningAt (s : State) (l : Seq) : Prop where
  cfg : s.cfg.valid = true
  halted : s.halted = false
  busy : s.busy = true
  seq : s.seq = l

/-- `BASE` is resolved: one of the bases the Locator can select (R21, R101). -/
def Resolved (s : State) : Prop := s.base ∈ s.cfg.bases

/-- The first line of a command (R80). -/
def firstLine : Instr → Seq
  | .resolve _ => .resolveL1
  | .regr _ => .regrL1
  | .regw _ _ => .regwL1
  | .delay _ => .delay .l1
  | .mbox => .mbox .m1
  | .init _ => .init .s1
  | .putb _ => .e0
  | .getb => .e0
  | .puts _ _ => .e0
  | .gets => .e0
  | .panic => .panicK1

/-- Whether a position is a line of a command, R180's entry check and R81's completion included. -/
def lineOf (i : Instr) : Seq → Bool
  | .idle => false
  | .resolveL1 => i.opcode == .resolve
  | .regrL1 => i.opcode == .regr
  | .regrL2 _ => i.opcode == .regr
  | .regwL1 => i.opcode == .regw
  | .delay _ => i.opcode == .delay
  | .mbox _ => i.opcode == .mbox
  | .init _ => i.opcode == .init
  | .e0 => i.opcode == .putb || i.opcode == .getb || i.opcode == .puts || i.opcode == .gets
  | .putb _ => i.opcode == .putb
  | .getbQ1 _ => i.opcode == .getb
  | .getbQ2 _ => i.opcode == .getb
  | .puts k _ =>
    match i with
    | .puts n _ => decide (k < n.toNat)
    | _ => false
  | .gets _ => i.opcode == .gets
  | .panicK1 => i.opcode == .panic
  | .complete => i.opcode != .panic
  | .emit _ => false
  | .halt => false

/-- Whether a position is on the fault path (R226, R228). -/
def onFaultPath : Seq → Bool
  | .emit _ => true
  | .halt => true
  | _ => false

/-- What a position says of the latches its line reads: MboxCall after M1 has `MREQ` at the request word (R131), a delay
loop has iterations left (R120), the emission has a byte left (R226), and GETS between G0 and G9 has room for a byte
(R198). -/
def latchesFit (s : State) : Seq → Bool
  | .mbox .m1 => true
  | .mbox _ => s.mreq == requestWord s.cfg
  | .init (.s7m .m1) => true
  | .init (.s7m _) => s.mreq == requestWord s.cfg
  | .delay .l2 => s.dcnt != 0
  | .init (.s3d .l2) => s.dcnt != 0
  | .init (.s4d .l2) => s.dcnt != 0
  | .emit _ => decide (s.pidx.toNat < 13)
  | .gets .g0 => true
  | .gets .g9 => true
  | .gets _ => decide (s.len.toNat < 128)
  | _ => true

/-- The invariant of the block: what the rules of spec/10_state.md promise between two steps. -/
structure Inv (s : State) : Prop where
  /-- R9. -/
  cfg : s.cfg.valid = true
  /-- R21: `BASE` is 0 or a base of the Locator. -/
  base : s.base = 0 ∨ Resolved s
  /-- R152, R163: a Ready driver has a resolved base, and so does INIT after S1. -/
  ready : s.drv = .ready → s.base ≠ 0
  initBase : ∀ l, s.seq = .init l → l ≠ .s1 → s.base ≠ 0
  /-- R30. -/
  len : s.len.toNat ≤ 128
  /-- R34. -/
  pidx : s.pidx.toNat ≤ 13
  /-- R25, R24: `BUSY` is 1 exactly while `SEQ` is not Idle. -/
  busy : s.busy = true ↔ s.seq ≠ .idle
  /-- R228. -/
  halted : s.halted = true → s.seq = .idle
  /-- R220: `FAULT_CODE` is one of the codes. -/
  code : s.faultCode.toNat ≤ 6
  /-- R27, R224: a fault is recorded exactly from the fault entry on. -/
  fault : s.faultCode ≠ 0 ↔ (s.halted = true ∨ onFaultPath s.seq = true)
  /-- R26, R24: while a command runs `CUR` holds it, and `SEQ` is a line of it. -/
  position : s.seq = .idle ∨ onFaultPath s.seq = true
    ∨ ∃ i, s.cur = some i ∧ i.wellFormed = true ∧ lineOf i s.seq = true
  /-- R30, R31, R32, R34. -/
  latches : latchesFit s s.seq = true

/-- What a fault entry leaves (R224): the code and the information recorded, `BUSY` 1, the emission about to start at
its first byte, everything else as it stood. -/
def faultEntered (code : BitVec 8) (info : CmdWord) (s : State) : State :=
  { s with faultCode := code, faultInfo := info, busy := true, pidx := 0, seq := .emit .t1 }

/-- What a bus read of `addr` that the device answers with `v` and no error leaves (R12). -/
def afterRead (addr : Nat) (v : Word) (s : State) : State :=
  { s with trace := s.trace ++ [.read addr v false], devReads := s.devReads.tail, draws := s.draws + 1 }

/-- What a bus write of `v` at `addr` that the device performs without an error leaves (R12). -/
def afterWrite (addr : Nat) (v : Word) (s : State) : State :=
  { s with trace := s.trace ++ [.write addr v false], devWrites := s.devWrites.tail, draws := s.draws + 1 }

/-- What a bus read of `addr` that the device answers with an error leaves, but for the fault it raises (R102). -/
def afterReadError (addr : Nat) (s : State) : State :=
  { s with
    trace := s.trace ++ [.read addr s.readAnswer.value true]
    devReads := s.devReads.tail
    draws := s.draws + 1 }

/-- What a bus write of `v` at `addr` that the device answers with an error leaves, but for the fault it raises (R103). -/
def afterWriteError (addr : Nat) (v : Word) (s : State) : State :=
  { s with trace := s.trace ++ [.write addr v true], devWrites := s.devWrites.tail, draws := s.draws + 1 }

/-- BUS_ERROR at `addr` (R220, R224): the fault entry with code 4 and the address, from the state the access left. The
information of an address of 2^64 or more is free (notes/assumptions/3.md). -/
def TakesBusError (addr : Nat) (accessed : State) (o : Out) : Prop :=
  ∃ info, (addr < 2 ^ 64 → info = BitVec.ofNat 64 addr) ∧ o = .next (faultEntered 4 info accessed)

/-- A line that makes one bus read of `addr` and goes on at a line the value selects, as an outcome (R102): a good answer
goes on, also while `BUS_ERRORS` is true; an error answer takes BUS_ERROR. -/
structure LineReads (addr : Nat) (goesTo : Word → Seq) (s : State) (o : Out) : Prop where
  good : s.cfg.busErrors = false ∨ s.readAnswer.err = false →
    o = .next { afterRead addr s.readAnswer.value s with seq := goesTo s.readAnswer.value }
  error : s.cfg.busErrors = true → s.readAnswer.err = true → TakesBusError addr (afterReadError addr s) o

/-- A line that makes one bus write of `v` at `addr` and goes on, as an outcome (R103). -/
structure LineWrites (addr : Nat) (v : Word) (goesTo : Seq) (s : State) (o : Out) : Prop where
  good : s.cfg.busErrors = false ∨ s.writeAnswer = false → o = .next { afterWrite addr v s with seq := goesTo }
  error : s.cfg.busErrors = true → s.writeAnswer = true → TakesBusError addr (afterWriteError addr v s) o

/-- The device side performs the next `n` writes without an error (R236). -/
def WritesSucceed (n : Nat) (s : State) : Prop :=
  s.cfg.busErrors = false ∨ (n ≤ s.devWrites.length ∧ ∀ e ∈ s.devWrites.take n, e = false)

/-- A bus access of `BASE + off` passes the address checks (R102): a resolved base, no overflow, aligned. -/
structure Reaches (off : Nat) (s : State) : Prop where
  resolved : s.base ≠ 0
  fits : s.base + off < 2 ^ s.cfg.aw
  aligned : (s.base + off) % 4 = 0

/-- Answers of the device side without an error. -/
def answers (vs : List Word) : List ReadAnswer := vs.map fun v => ⟨v, false⟩

/-- Reads of one address, in order. -/
def readsOf (addr : Nat) (vs : List Word) : List BusEvent := vs.map fun v => .read addr v false

/-- A wait on a status flag that ends: the reads that showed the flag set, then the read that showed it clear (R12). -/
structure Wait where
  busy : List Word
  clear : Word
deriving DecidableEq, Repr

/-- The values a wait reads, in order. -/
def Wait.reads (w : Wait) : List Word := w.busy ++ [w.clear]

/-- Those values end a wait on this mask, and none before the last does (R13). -/
def Wait.ends (w : Wait) (mask : Word) : Bool := w.busy.all (flagSet · mask) && !flagSet w.clear mask

/-- `TxByte` of one byte as bus events: its wait, then its one write (R184). -/
def sendEvents (s : State) (w : Wait) (b : Byte) : List BusEvent :=
  readsOf (s.base + s.cfg.off.uartFr) w.reads ++ [.write (s.base + s.cfg.off.uartDr) (b.setWidth 32) false]

/-- `TxByte` of every byte of a text in order, each after its own wait (R190). -/
def sendAll (s : State) (ws : List Wait) (text : List Byte) : List BusEvent :=
  (ws.zip text).flatMap fun p => sendEvents s p.1 p.2

/-- The flag a position waits on, as the offset of its register and its mask: every waiting line of TxByte, RxByte and
MboxCall (R232), in a command or in the emission. -/
def waitOf (c : Cfg) : Seq → Option (Nat × Word)
  | .putb .t1 => some (c.off.uartFr, c.mask.txff)
  | .puts _ .t1 => some (c.off.uartFr, c.mask.txff)
  | .gets (.echo _ _ .t1 _) => some (c.off.uartFr, c.mask.txff)
  | .emit .t1 => some (c.off.uartFr, c.mask.txff)
  | .getbQ1 .x1 => some (c.off.uartFr, c.mask.rxfe)
  | .gets (.g2 .x1) => some (c.off.uartFr, c.mask.rxfe)
  | .mbox .m2 => some (c.off.mboxStatus, c.mask.full)
  | .init (.s7m .m2) => some (c.off.mboxStatus, c.mask.full)
  | .mbox .m4Status => some (c.off.mboxStatus, c.mask.empty)
  | .init (.s7m .m4Status) => some (c.off.mboxStatus, c.mask.empty)
  | _ => none

/-! ## The mailbox handshake as event lists (spec/42_mailbox.md R135) -/

/-- One iteration of step M4 that goes on: an EMPTY status read, or a status read with EMPTY clear and a reply that is
not the request word. -/
inductive ReplyRound where
  | empty (status : Word)
  | mismatch (status reply : Word)

/-- The iteration is one of those two under a configuration. -/
def ReplyRound.goesOn (c : Cfg) : ReplyRound → Bool
  | .empty st => flagSet st c.mask.empty
  | .mismatch st reply => !flagSet st c.mask.empty && reply != requestWord c

/-- The values an iteration reads. -/
def ReplyRound.values : ReplyRound → List Word
  | .empty st => [st]
  | .mismatch st reply => [st, reply]

/-- The bus events of an iteration. -/
def ReplyRound.events (s : State) : ReplyRound → List BusEvent
  | .empty st => [.read (s.base + s.cfg.off.mboxStatus) st false]
  | .mismatch st reply =>
    [.read (s.base + s.cfg.off.mboxStatus) st false, .read (s.base + s.cfg.off.mboxRead) reply false]

/-! ## The bus writes of INIT (spec/43_uart_init.md R150) -/

/-- The writes S2 to S6, before the handshake's place. -/
def initWritesFirst (c : Cfg) (base : Nat) : List BusEvent :=
  [.write (base + c.off.uartCr) c.val.crOff false, .write (base + c.off.gppud) c.val.pudOff false,
    .write (base + c.off.gppudclk0) c.val.pudclkUart false, .write (base + c.off.gppudclk0) c.val.pudclkNone false,
    .write (base + c.off.uartIcr) c.val.icrAll false]

/-- The writes S8a to S11, after it. -/
def initWritesLast (c : Cfg) (base : Nat) : List BusEvent :=
  [.write (base + c.off.uartIbrd) 1 false, .write (base + c.off.uartFbrd) 40 false,
    .write (base + c.off.uartLcrh) c.val.lcrh false, .write (base + c.off.uartImsc) c.val.imsc false,
    .write (base + c.off.uartCr) c.val.crOn false]

/-! ## The bus accesses a command may make (each command's pseudocode) -/

/-- An access of TxByte for a byte (R184). -/
def TxAccess (s : State) (b : Byte) (e : BusEvent) : Prop :=
  (∃ v err, e = .read (s.base + s.cfg.off.uartFr) v err) ∨
    ∃ err, e = .write (s.base + s.cfg.off.uartDr) (b.setWidth 32) err

/-- An access of RxByte (R187). -/
def RxAccess (s : State) (e : BusEvent) : Prop :=
  ∃ off v err, (off = s.cfg.off.uartFr ∨ off = s.cfg.off.uartDr) ∧ e = .read (s.base + off) v err

/-- An access of MboxCall (R130). -/
def MboxAccess (s : State) (e : BusEvent) : Prop :=
  (∃ off v err, (off = s.cfg.off.mboxStatus ∨ off = s.cfg.off.mboxRead) ∧ e = .read (s.base + off) v err) ∨
    ∃ err, e = .write (s.base + s.cfg.off.mboxWrite) s.mreq err

/-- The bus accesses of a command: RESOLVE, DELAY and PANIC make none, REGR only reads and REGW only writes at its
offset, the others only the registers and values of their own lines. -/
def MayAccess (s : State) (i : Instr) (e : BusEvent) : Prop :=
  match i with
  | .resolve _ => False
  | .regr off => ∃ v err, e = .read (s.base + off.toNat) v err
  | .regw off value => ∃ err, e = .write (s.base + off.toNat) value err
  | .delay _ => False
  | .mbox => MboxAccess s e
  | .init _ =>
    MboxAccess s e ∨
      ∃ a v err, e = .write a v err ∧ .write a v false ∈ initWritesFirst s.cfg s.base ++ initWritesLast s.cfg s.base
  | .putb b => TxAccess s b e
  | .getb => RxAccess s e
  | .puts _ _ => ∃ b, TxAccess s b e
  | .gets => RxAccess s e ∨ ∃ b, TxAccess s b e
  | .panic => False

/-! ## The line editor of GETS as a pure function (spec/44_uart_io.md R194 to R198) -/

/-- One received byte: the line after it, the bytes echoed, and whether the line is finished. -/
def editByte (line : List Byte) (b : Byte) : List Byte × List Byte × Bool :=
  if b = 0x0A ∨ b = 0x0D then (line, [0x0D, 0x0A], true)
  else if b = 0x08 then (line.dropLast, [0x08, 0x20, 0x08], false)
  else (line ++ [b], [b], line.length + 1 == 128)

/-- The line that an input ends exactly at its last byte; none where the input does not end the line there. -/
def editLine (line : List Byte) : List Byte → Option (List Byte)
  | [] => none
  | b :: bs =>
    match editByte line b with
    | (line', _, true) => if bs = [] then some line' else none
    | (line', _, false) => editLine line' bs

/-- One byte as GETS receives it: the wait for it, the word the data register gives, and a wait for each byte of its
echo. -/
structure Received where
  wait : Wait
  data : Word
  echo : List Wait
deriving DecidableEq, Repr

/-- The byte received (R187). -/
def Received.byte (r : Received) : Byte := r.data.extractLsb' 0 8

/-- Every wait of the input ends on its flag, and each echo has as many waits as bytes. -/
def editFits (c : Cfg) (line : List Byte) : List Received → Bool
  | [] => true
  | r :: rs =>
    r.wait.ends c.mask.rxfe && r.echo.length == (editByte line r.byte).2.1.length
      && r.echo.all (·.ends c.mask.txff) && editFits c (editByte line r.byte).1 rs

/-- The values GETS reads for an input, in order. -/
def editReads (rs : List Received) : List Word :=
  rs.flatMap fun r => r.wait.reads ++ [r.data] ++ r.echo.flatMap Wait.reads

/-- The bus events of a GETS over an input: for each byte its wait, its data read and its echo. -/
def editEvents (s : State) (line : List Byte) : List Received → List BusEvent
  | [] => []
  | r :: rs =>
    readsOf (s.base + s.cfg.off.uartFr) r.wait.reads ++ [.read (s.base + s.cfg.off.uartDr) r.data false]
      ++ sendAll s r.echo (editByte line r.byte).2.1 ++ editEvents s (editByte line r.byte).1 rs

/-- How many bytes a GETS over an input echoes: as many data writes. -/
def echoCount (rs : List Received) : Nat := (rs.flatMap Received.echo).length

/-! ## What the host cannot see -/

/-- Two states that the host and the device side cannot tell apart: every field equal but the bytes of `LB` at `LEN`
and above (R29), `MREQ` outside MboxCall's lines after M1 (R31), and `DCNT` outside a delay loop (R32). -/
structure Alike (s t : State) : Prop where
  rest : t = { s with lb := t.lb, mreq := t.mreq, dcnt := t.dcnt }
  line : ∀ k, k < s.len.toNat → s.lb.toList[k]? = t.lb.toList[k]?
  request : (∀ l, l ≠ .m1 → s.seq = .mbox l ∨ s.seq = .init (.s7m l) → s.mreq = t.mreq)
  delay : s.seq = .delay .l2 ∨ s.seq = .init (.s3d .l2) ∨ s.seq = .init (.s4d .l2) → s.dcnt = t.dcnt

end Sys2Proof.Machine
end

