-- ==== Sys2Proof/Certificates/Slice0/Obligations.lean ====
section
/-! DEFINITION. The statements for the provers. Each docstring names the rules of spec/ it formalises; OBLIGATIONS.json
holds them with their tier, kind and basis. -/

open Sys2Proof
open Sys2Proof.Machine
open Sys2Proof.Config (Cfg BusEvent)

/-! ## Encoding (spec/30_encoding.md) -/

/-- R71 to R79, R82: the words of a well-formed command decode to that command, with every operand at every value its
field admits, and nothing of what stands behind them is taken. -/
def Obligations.DecodeOfEncodeIsTheCommand : Prop :=
  ∀ (i : Instr) (rest : List CmdWord), i.wellFormed = true → decode (encode i ++ rest) = .command i rest

/-- R71, R72, R78, R79: a command has one encoding: words that decode to a command are that command's encoding, and the
command is well formed. That all of field A must be zero for RESOLVE, DELAY and INIT is the model's reading, against R73's
printed masks (DEDUCED, notes/assumptions/17.md). -/
def Obligations.EncodeOfDecodeIsTheWords : Prop :=
  ∀ (ws rest : List CmdWord) (i : Instr), decode ws = .command i rest →
    i.wellFormed = true ∧ ws = encode i ++ rest

/-- R73: no two rows of the match and mask table overlap. -/
def Obligations.NoTwoRowsSelectOneWord : Prop :=
  ∀ (w : CmdWord) (o o' : Opcode), w &&& o.mask = o.pattern → w &&& o'.mask = o'.pattern → o = o'

/-- R87: the encoding examples of the spec, each read by the decoder. -/
def Obligations.EncodingExamplesDecode : Prop :=
  decode [0x6000000000000003] = .command (.init 3) [] ∧
  decode [0x3020103000000301] = .command (.regw 0x201030 0x301) [] ∧
  decode [0x2020101800000000] = .command (.regr 0x201018) [] ∧
  decode [0x4000000000000096] = .command (.delay 150) [] ∧
  decode [0x7000000000000041] = .command (.putb 0x41) [] ∧
  decode [0x9000000400000000, 0x00000000203E6B62] = .command (.puts 4 [0x62, 0x6B, 0x3E, 0x20]) [] ∧
  decode [0xA000000000000000] = .command .gets [] ∧
  decode [0xB000000000000000] = .command .panic [] ∧
  decode [0x5000000000000000] = .command .mbox []

/-- R70, R80: a command's length is told from its command word alone: `1 + ceil(A/8)` words where `OPC` is 0x9 and one
word otherwise. While fewer words, or none, stand at the port, an idle block waits. Two clauses are the model's reading:
that an illegal word of `OPC` 0x9 (its field B nonzero) waits for its payload as a legal one does (DEDUCED,
notes/assumptions/9.md), and that a wait is a step that answers the same state (notes/assumptions/12.md). -/
def Obligations.IncompleteCommandWaits : Prop :=
  ∀ s : State, Accepting s →
    (s.port = [] → step s = .next s) ∧
    ∀ (w : CmdWord) (rest : List CmdWord), s.port = w :: rest →
      rest.length < (if w.extractLsb' 60 4 = 9 then ((w.extractLsb' 32 28).toNat + 7) / 8 else 0) →
      step s = .next s

/-- R74: a command word with a reserved opcode (0x0 and 0xC to 0xF) is illegal. Accepting it raises ILLEGAL_COMMAND with
`FAULT_INFO` = the word: the next state is the fault entry's (R224), with no bus event and the other state as it stood. -/
def Obligations.ReservedOpcodeIsIllegal : Prop :=
  ∀ (s : State) (w : CmdWord) (rest : List CmdWord), Accepting s → s.port = w :: rest →
    (w.extractLsb' 60 4 = 0 ∨ 0xC ≤ (w.extractLsb' 60 4).toNat) →
    ∃ t, step s = .next t ∧ t.faultCode = 1 ∧ t.faultInfo = w ∧ t.trace = s.trace ∧ t.seq = .emit .t1 ∧ t.pidx = 0 ∧
      t.base = s.base ∧ t.drv = s.drv ∧ t.lb = s.lb ∧ t.len = s.len ∧ t.respq = s.respq ∧ t.mreq = s.mreq ∧
      t.dcnt = s.dcnt ∧ t.halted = false

/-- R72, R75: a command word of a valid opcode with a nonzero bit in a field that must be zero, with the payload words
its length asks for, raises ILLEGAL_COMMAND with `FAULT_INFO` = the command word, whatever the payload holds. The fields
are R72's; R73's printed masks leave out bits 35:32 of three rows (the model's reading, notes/assumptions/17.md). That the
illegal command's words leave the port and `BUSY` becomes 1 is the model's reading (notes/assumptions/8.md, 9.md). -/
def Obligations.MustBeZeroBitIsIllegal : Prop :=
  ∀ (s : State) (opc : BitVec 4) (a : Offset) (b : Word) (payload rest : List CmdWord), Accepting s →
    s.port = commandFields opc a b :: payload ++ rest →
    payload.length = (if opc = 9 then (a.toNat + 7) / 8 else 0) →
    ((opc ∈ [0x1, 0x4, 0x6] ∧ a ≠ 0) ∨ (opc ∈ [0x2, 0x9] ∧ b ≠ 0) ∨
      (opc ∈ [0x5, 0x8, 0xA, 0xB] ∧ (a ≠ 0 ∨ b ≠ 0)) ∨ (opc = 0x7 ∧ (a ≠ 0 ∨ 0x100 ≤ b.toNat))) →
    step s = .next (faultEntered 1 (commandFields opc a b) { s with port := rest })

/-- R75, R79: a PUTS whose last payload word has a nonzero padding byte raises ILLEGAL_COMMAND with `FAULT_INFO` = that
payload word. That its words leave the port and `BUSY` becomes 1 is the model's reading (notes/assumptions/8.md). -/
def Obligations.NonzeroPaddingIsIllegal : Prop :=
  ∀ (s : State) (n : Offset) (payload rest : List CmdWord) (last : CmdWord) (k : Nat), Accepting s →
    s.port = commandFields 0x9 n 0 :: payload ++ [last] ++ rest →
    payload.length + 1 = (n.toNat + 7) / 8 →
    n.toNat % 8 ≠ 0 → n.toNat % 8 ≤ k → k < 8 → last.extractLsb' (8 * k) 8 ≠ 0 →
    step s = .next (faultEntered 1 last { s with port := rest })

/-! ## Acceptance, completion, dispatch -/

/-- R80: at an idle block a complete legal command is accepted in one step: its words leave the port, `CUR`, `BUSY` and
`SEQ` are written, nothing else changes. The step is the meaning of the decoded command. -/
def Obligations.StepAcceptsTheDecodedCommand : Prop :=
  ∀ (s : State) (i : Instr) (rest : List CmdWord), Accepting s → decode s.port = .command i rest →
    step s = exec i { s with port := rest } ∧
    step s = .next { s with port := rest, cur := some i, busy := true, seq := firstLine i }

/-- R24, R26: while a command runs, a step is the meaning of the command in `CUR`. -/
def Obligations.StepRunsTheCommandInCur : Prop :=
  ∀ (s : State) (i : Instr) (l : Seq), RunningAt s l → s.cur = some i → lineOf i l = true → step s = exec i s

/-- R81: the step after a command's last line sets `BUSY` to 0 and `SEQ` to Idle and changes nothing else. -/
def Obligations.CompletionFreesTheBlock : Prop :=
  ∀ (s : State) (i : Instr), s.halted = false → s.seq = .complete →
    exec i s = .next { s with busy := false, seq := .idle }

/-- R14 (the "State written" of R100, R105, R108, R120, R130, R150, R183, R186, R190, R193, R210), R25, R51: the frame of
every command past its acceptance. Every command leaves the configuration, the port, `HALTED` and `CUR` alone; `BASE` is
written by RESOLVE and INIT only, `DRV_STATE` by INIT only, `MREQ` by MBOX and INIT, `DCNT` by DELAY and INIT, `RESPQ` by
REGR, GETB and GETS, `LEN` and `LB` by GETS; the fault registers and `PIDX` only by a fault entry; `BUSY` falls only at
completion. The bus history and the device side's answers stay as they were but for at most one access, which is one of the
command's own; RESOLVE, DELAY and PANIC make none. -/
def Obligations.CommandsWriteOnlyTheirState : Prop :=
  ∀ (s t : State) (i : Instr), s.seq ≠ .idle → exec i s = .next t →
    t.cfg = s.cfg ∧ t.port = s.port ∧ t.halted = s.halted ∧ t.cur = s.cur ∧
    (i.opcode ≠ .resolve → i.opcode ≠ .init → t.base = s.base) ∧
    (i.opcode ≠ .init → t.drv = s.drv) ∧
    (i.opcode ≠ .mbox → i.opcode ≠ .init → t.mreq = s.mreq) ∧
    (i.opcode ≠ .delay → i.opcode ≠ .init → t.dcnt = s.dcnt) ∧
    (i.opcode ≠ .regr → i.opcode ≠ .getb → i.opcode ≠ .gets → t.respq = s.respq) ∧
    (i.opcode ≠ .gets → t.len = s.len ∧ t.lb = s.lb) ∧
    (onFaultPath t.seq = false → t.faultCode = s.faultCode ∧ t.faultInfo = s.faultInfo ∧ t.pidx = s.pidx) ∧
    (s.seq = .complete → t.busy = false) ∧
    (s.seq ≠ .complete → t.busy = if onFaultPath t.seq then true else s.busy) ∧
    ((t.trace = s.trace ∧ t.devReads = s.devReads ∧ t.devWrites = s.devWrites ∧ t.draws = s.draws) ∨
      ∃ e, MayAccess s i e ∧ t.trace = s.trace ++ [e] ∧ t.draws = s.draws + 1)

/-! ## RESOLVE, REGR, REGW (spec/40_mmio_accessor.md) -/

/-- R100, R101: RESOLVE's line sets `BASE` to the base the map gives the identifier, and to the fallback base for every
identifier outside the map; nothing else changes but the position. It does so whatever `BASE` and `DRV_STATE` were. -/
def Obligations.ResolveSetsBase : Prop :=
  ∀ (s : State) (p : Word), s.halted = false → s.seq = .resolveL1 →
    (∀ pre post b, s.cfg.platformMap = pre ++ (p, b) :: post → (∀ e ∈ pre, e.1 ≠ p) →
      exec (.resolve p) s = .next { s with base := b, seq := .complete }) ∧
    ((∀ e ∈ s.cfg.platformMap, e.1 ≠ p) →
      exec (.resolve p) s = .next { s with base := s.cfg.fallbackBase, seq := .complete })

/-- R102: `RegRead` as L1 of REGR, in its five outcomes and their order: the zero-base guard, ADDRESS_OVERFLOW,
MISALIGNED_ACCESS, BUS_ERROR after the one bus read, and the value. For an address of 2^64 or more the recorded
information is a free value (notes/assumptions/3.md). -/
def Obligations.RegrReadsThroughTheAccessor : Prop :=
  ∀ (s : State) (off : Offset), s.halted = false → s.seq = .regrL1 →
    (s.base = 0 → exec (.regr off) s = .next { s with seq := .regrL2 0 }) ∧
    (s.base ≠ 0 → 2 ^ s.cfg.aw ≤ s.base + off.toNat →
      exec (.regr off) s = .next (faultEntered 2 (BitVec.ofNat 64 off.toNat) s)) ∧
    (s.base ≠ 0 → s.base + off.toNat < 2 ^ s.cfg.aw → (s.base + off.toNat) % 4 ≠ 0 →
      ∃ info, (s.base + off.toNat < 2 ^ 64 → info = BitVec.ofNat 64 (s.base + off.toNat)) ∧
        exec (.regr off) s = .next (faultEntered 3 info s)) ∧
    (Reaches off.toNat s → s.cfg.busErrors = true → s.readAnswer.err = true →
      ∃ info, (s.base + off.toNat < 2 ^ 64 → info = BitVec.ofNat 64 (s.base + off.toNat)) ∧
        exec (.regr off) s = .next (faultEntered 4 info
          { s with
            trace := s.trace ++ [.read (s.base + off.toNat) s.readAnswer.value true]
            devReads := s.devReads.tail
            draws := s.draws + 1 })) ∧
    (Reaches off.toNat s → (s.cfg.busErrors = false ∨ s.readAnswer.err = false) →
      exec (.regr off) s =
        .next { afterRead (s.base + off.toNat) s.readAnswer.value s with seq := .regrL2 s.readAnswer.value })

/-- R105 (line L2), R82: REGR then puts exactly one response word, `zext_64` of the word read, and changes nothing
else. -/
def Obligations.RegrRespondsWithTheWord : Prop :=
  ∀ (s : State) (off : Offset) (v : Word), s.halted = false → s.seq = .regrL2 v →
    exec (.regr off) s = .next { s with respq := s.respq ++ [v.setWidth 64], seq := .complete }

/-- R103: `RegWrite` as the line of REGW, in its five outcomes and their order. For an address of 2^64 or more the recorded
information is a free value (notes/assumptions/3.md). -/
def Obligations.RegwWritesThroughTheAccessor : Prop :=
  ∀ (s : State) (off : Offset) (v : Word), s.halted = false → s.seq = .regwL1 →
    (s.base = 0 → exec (.regw off v) s = .next { s with seq := .complete }) ∧
    (s.base ≠ 0 → 2 ^ s.cfg.aw ≤ s.base + off.toNat →
      exec (.regw off v) s = .next (faultEntered 2 (BitVec.ofNat 64 off.toNat) s)) ∧
    (s.base ≠ 0 → s.base + off.toNat < 2 ^ s.cfg.aw → (s.base + off.toNat) % 4 ≠ 0 →
      ∃ info, (s.base + off.toNat < 2 ^ 64 → info = BitVec.ofNat 64 (s.base + off.toNat)) ∧
        exec (.regw off v) s = .next (faultEntered 3 info s)) ∧
    (Reaches off.toNat s → s.cfg.busErrors = true → s.writeAnswer = true →
      ∃ info, (s.base + off.toNat < 2 ^ 64 → info = BitVec.ofNat 64 (s.base + off.toNat)) ∧
        exec (.regw off v) s = .next (faultEntered 4 info
          { s with
            trace := s.trace ++ [.write (s.base + off.toNat) v true]
            devWrites := s.devWrites.tail
            draws := s.draws + 1 })) ∧
    (Reaches off.toNat s → (s.cfg.busErrors = false ∨ s.writeAnswer = false) →
      exec (.regw off v) s = .next { afterWrite (s.base + off.toNat) v s with seq := .complete })

/-- R106, R109, R105, R108: REGR and REGW as whole runs while `BASE` is 0, for every offset and value: REGR responds 0,
REGW does nothing, neither makes a bus event or a fault, and the block is idle again. The step counts are the model's
granularity (notes/assumptions/5.md). -/
def Obligations.RegisterCommandsWithoutBaseAreAbsorbed : Prop :=
  ∀ (s : State) (off : Offset) (v : Word) (rest : List CmdWord), Accepting s → s.base = 0 →
    (s.port = commandFields 0x2 off 0 :: rest →
      runSteps 4 s = .next { s with port := rest, cur := some (.regr off), respq := s.respq ++ [0] }) ∧
    (s.port = commandFields 0x3 off v :: rest →
      runSteps 3 s = .next { s with port := rest, cur := some (.regw off v) })

/-! ## DELAY (spec/41_delay.md) -/

/-- R120, R122: DELAY `count` as a whole run: acceptance, L1, exactly `count` internal steps, completion; no bus event,
no response, `DCNT` back at 0, nothing else changed. `count` = 0 takes no internal step. That the number of internal steps
is `count` is R122's reference and the model's choice (notes/assumptions/6.md). -/
def Obligations.DelayTakesCountStepsAndCompletes : Prop :=
  ∀ (s : State) (count : Word) (rest : List CmdWord), Accepting s →
    s.port = commandFields 0x4 0 count :: rest →
    runSteps (count.toNat + 3) s = .next { s with port := rest, cur := some (.delay count), dcnt := 0 }

/-- R120: the two lines of DELAY. L1 loads `DCNT`; a step of L2 at a nonzero `DCNT` counts it down by one and leaves the
loop when it reaches 0. -/
def Obligations.DelayLinesCountDown : Prop :=
  ∀ (s : State) (count : Word), s.halted = false →
    (s.seq = .delay .l1 →
      exec (.delay count) s =
        .next { s with dcnt := count, seq := if count = 0 then .complete else .delay .l2 }) ∧
    (s.seq = .delay .l2 → s.dcnt ≠ 0 →
      exec (.delay count) s =
        .next { s with dcnt := s.dcnt - 1, seq := if s.dcnt = 1 then .complete else .delay .l2 })

/-! ## MBOX (spec/42_mailbox.md) -/

/-- R131: M1 latches the request word: bits 31:4 are those of the message address, bits 3:0 the channel, and the word is
not 0. -/
def Obligations.RequestWordCarriesAddressAndChannel : Prop :=
  ∀ s : State, s.cfg.valid = true → s.halted = false → s.seq = .mbox .m1 →
    ∃ m : Word, exec .mbox s = .next { s with mreq := m, seq := .mbox .m2 } ∧
      m = (BitVec.ofNat 32 s.cfg.mboxMsgAddr &&& ~~~0xF#32) ||| BitVec.ofNat 32 s.cfg.mboxChannel ∧
      m.extractLsb' 4 28 = (BitVec.ofNat 32 s.cfg.mboxMsgAddr).extractLsb' 4 28 ∧
      m.extractLsb' 0 4 = BitVec.ofNat 4 s.cfg.mboxChannel ∧
      m ≠ 0

/-- R132 to R136, R102, R103: each waiting or sending line of MboxCall, in MBOX and in INIT. M2 reads MBOX_STATUS and stays
while FULL is set; M3 writes `MREQ` once; M4 reads MBOX_STATUS and stays while EMPTY is set, else reads MBOX_READ and ends
only on a word equal to `MREQ`. An error answer to any of them takes BUS_ERROR. -/
def Obligations.MboxLinesPollSendAndMatch : Prop :=
  ∀ (s : State) (i : Instr) (pos : MboxLine → Seq) (leave : Seq), s.cfg.valid = true → s.halted = false → Resolved s →
    ((i = .mbox ∧ pos = .mbox ∧ leave = .complete) ∨
      ∃ p, i = .init p ∧ pos = (fun l => .init (.s7m l)) ∧ leave = .init .s8a) →
    (s.seq = pos .m2 → LineReads (s.base + s.cfg.off.mboxStatus)
      (fun v => if v &&& s.cfg.mask.full ≠ 0 then pos .m2 else pos .m3) s (exec i s)) ∧
    (s.seq = pos .m3 → LineWrites (s.base + s.cfg.off.mboxWrite) s.mreq (pos .m4Status) s (exec i s)) ∧
    (s.seq = pos .m4Status → LineReads (s.base + s.cfg.off.mboxStatus)
      (fun v => if v &&& s.cfg.mask.empty ≠ 0 then pos .m4Status else pos .m4Read) s (exec i s)) ∧
    (s.seq = pos .m4Read → LineReads (s.base + s.cfg.off.mboxRead)
      (fun v => if v = s.mreq then leave else pos .m4Status) s (exec i s))

/-- R130 to R136: MBOX as a whole run, for any number of FULL polls, then any sequence of EMPTY polls and mismatched
replies, then the matching reply: exactly those bus events in that order, one write of the request word, no response
word, nothing kept of a mismatched reply. The step count is the model's granularity (notes/assumptions/5.md). -/
def Obligations.MboxCompletesOnTheMatchingReply : Prop :=
  ∀ (s : State) (rest : List CmdWord) (room : Wait) (ready : Word) (rounds : List ReplyRound)
    (more : List Config.ReadAnswer),
    Accepting s → Resolved s → WritesSucceed 1 s → s.port = commandFields 0x5 0 0 :: rest →
    room.ends s.cfg.mask.full = true → (∀ r ∈ rounds, r.goesOn s.cfg = true) →
    flagSet ready s.cfg.mask.empty = false →
    s.devReads = answers (room.reads ++ rounds.flatMap ReplyRound.values ++ [ready, requestWord s.cfg]) ++ more →
    runSteps (room.busy.length + (rounds.flatMap ReplyRound.values).length + 7) s =
      .next { s with
        port := rest
        cur := some .mbox
        mreq := requestWord s.cfg
        trace := s.trace ++ readsOf (s.base + s.cfg.off.mboxStatus) room.reads
          ++ [.write (s.base + s.cfg.off.mboxWrite) (requestWord s.cfg) false]
          ++ rounds.flatMap (ReplyRound.events s)
          ++ [.read (s.base + s.cfg.off.mboxStatus) ready false,
            .read (s.base + s.cfg.off.mboxRead) (requestWord s.cfg) false]
        devReads := more
        devWrites := s.devWrites.tail
        draws := s.draws + (room.busy.length + (rounds.flatMap ReplyRound.values).length + 4) }

/-- R138, R233: MBOX while `BASE` is 0 hangs: after any number of steps the block is still BUSY, not halted, with no
fault recorded, no response and not one bus event. -/
def Obligations.MboxWithoutBaseHangs : Prop :=
  ∀ (s : State) (rest : List CmdWord) (n : Nat), Accepting s → s.base = 0 →
    s.port = commandFields 0x5 0 0 :: rest →
    ∃ t, runSteps (n + 1) s = .next t ∧ t.busy = true ∧ t.halted = false ∧ t.faultCode = s.faultCode ∧
      t.trace = s.trace ∧ t.respq = s.respq ∧ t.port = rest ∧ t.base = 0

/-! ## INIT (spec/43_uart_init.md) -/

/-- R152 to R157, R159 to R163, R166: one step of each line of INIT that has no wait: S1 sets `BASE`, the ten writing
lines each make their one write, S12 makes the driver Ready. An error answer to a write takes BUS_ERROR, with `BASE` and
`DRV_STATE` as they stood. -/
def Obligations.InitLinesWriteTheirRegisters : Prop :=
  ∀ (s : State) (p : Word), s.cfg.valid = true → s.halted = false →
    (s.seq = .init .s1 →
      (∀ pre post b, s.cfg.platformMap = pre ++ (p, b) :: post → (∀ e ∈ pre, e.1 ≠ p) →
        exec (.init p) s = .next { s with base := b, seq := .init .s2 }) ∧
      ((∀ e ∈ s.cfg.platformMap, e.1 ≠ p) →
        exec (.init p) s = .next { s with base := s.cfg.fallbackBase, seq := .init .s2 })) ∧
    (s.seq = .init .s12 → exec (.init p) s = .next { s with drv := .ready, seq := .complete }) ∧
    (Resolved s →
      ∀ row ∈ ([(.s2, s.cfg.off.uartCr, s.cfg.val.crOff, .s3), (.s3, s.cfg.off.gppud, s.cfg.val.pudOff, .s3d .l1),
          (.s4, s.cfg.off.gppudclk0, s.cfg.val.pudclkUart, .s4d .l1),
          (.s5, s.cfg.off.gppudclk0, s.cfg.val.pudclkNone, .s6), (.s6, s.cfg.off.uartIcr, s.cfg.val.icrAll, .s7),
          (.s8a, s.cfg.off.uartIbrd, 1, .s8b), (.s8b, s.cfg.off.uartFbrd, 40, .s9),
          (.s9, s.cfg.off.uartLcrh, s.cfg.val.lcrh, .s10), (.s10, s.cfg.off.uartImsc, s.cfg.val.imsc, .s11),
          (.s11, s.cfg.off.uartCr, s.cfg.val.crOn, .s12)] : List (InitLine × Nat × Word × InitLine)),
        s.seq = .init row.1 →
        LineWrites (s.base + row.2.1) row.2.2.1 (.init row.2.2.2) s (exec (.init p) s))

/-- R158: S7 makes no bus event and goes to the handshake if and only if the platform identifier is 3 or more, as an
unsigned number; the test uses the operand, not `BASE`. -/
def Obligations.InitNegotiatesFromGenerationThree : Prop :=
  ∀ (s : State) (p : Word), s.halted = false → s.seq = .init .s7 →
    (3 ≤ p.toNat → exec (.init p) s = .next { s with seq := .init (.s7m .m1) }) ∧
    (p.toNat < 3 → exec (.init p) s = .next { s with seq := .init .s8a })

/-- R150, R151, R168: INIT of a platform below 3 as a whole run, in either driver state: exactly the ten writes in
order, no read, both delays in their places, `BASE` at the Locator's base, the driver Ready, and no response. The step
count, with 150 internal steps a delay, is the model's (notes/assumptions/5.md, 6.md). -/
def Obligations.InitBelowGenerationThreeMakesTenWrites : Prop :=
  ∀ (s : State) (p : Word) (rest : List CmdWord), Accepting s → WritesSucceed 10 s → p.toNat < 3 →
    s.port = commandFields 0x6 0 p :: rest →
    runSteps 317 s =
      .next { s with
        port := rest
        cur := some (.init p)
        base := lookupBase s.cfg p
        drv := .ready
        dcnt := 0
        trace := s.trace ++ initWritesFirst s.cfg (lookupBase s.cfg p) ++ initWritesLast s.cfg (lookupBase s.cfg p)
        devWrites := s.devWrites.drop 10
        draws := s.draws + 10 }

/-- R150, R151, R158, R272: INIT of a platform of 3 or more as a whole run: the five writes S2 to S6, then the mailbox
handshake to its matching reply, then the five writes S8a to S11, and no other bus event. The step count is the model's
(notes/assumptions/5.md, 6.md). -/
def Obligations.InitFromGenerationThreeNegotiatesFirst : Prop :=
  ∀ (s : State) (p : Word) (rest : List CmdWord) (room : Wait) (ready : Word) (rounds : List ReplyRound)
    (more : List Config.ReadAnswer),
    Accepting s → WritesSucceed 11 s → 3 ≤ p.toNat → s.port = commandFields 0x6 0 p :: rest →
    room.ends s.cfg.mask.full = true →
    (∀ r ∈ rounds, r.goesOn s.cfg = true) → flagSet ready s.cfg.mask.empty = false →
    s.devReads =
      answers (room.reads ++ rounds.flatMap ReplyRound.values ++ [ready, requestWord s.cfg]) ++ more →
    ∀ b, b = lookupBase s.cfg p → runSteps (room.busy.length + (rounds.flatMap ReplyRound.values).length + 322) s =
      .next { s with
        port := rest
        cur := some (.init p)
        base := b
        drv := .ready
        dcnt := 0
        mreq := requestWord s.cfg
        trace := s.trace ++ initWritesFirst s.cfg b
          ++ readsOf (b + s.cfg.off.mboxStatus) room.reads
          ++ [.write (b + s.cfg.off.mboxWrite) (requestWord s.cfg) false]
          ++ rounds.flatMap (ReplyRound.events { s with base := b })
          ++ [.read (b + s.cfg.off.mboxStatus) ready false,
            .read (b + s.cfg.off.mboxRead) (requestWord s.cfg) false]
          ++ initWritesLast s.cfg b
        devReads := more
        devWrites := s.devWrites.drop 11
        draws := s.draws + (room.busy.length + (rounds.flatMap ReplyRound.values).length + 14) }

/-- R22, R163: a step makes the driver Ready only at INIT's last line, and no step makes a Ready driver Uninitialized. -/
def Obligations.OnlyInitMakesTheDriverReady : Prop :=
  ∀ s t : State, step s = .next t →
    (s.drv = .ready → t.drv = .ready) ∧
    (s.drv = .uninitialized → t.drv = .ready → s.seq = .init .s12)

/-! ## PUTB, GETB, PUTS, GETS (spec/44_uart_io.md) -/

/-- R180: the entry check of PUTB, GETB, PUTS and GETS. An unready driver with a resolved base takes
BYTE_OP_BEFORE_INIT with the command word, before any bus event; otherwise the command goes on to its own first line. -/
def Obligations.ByteCommandsCheckTheDriverFirst : Prop :=
  ∀ (s : State) (i : Instr) (w : CmdWord) (l : Seq), s.halted = false → s.seq = .e0 →
    ((∃ b, i = .putb b ∧ w = commandFields 0x7 0 (b.setWidth 32) ∧ l = .putb .t1) ∨
     (i = .getb ∧ w = commandFields 0x8 0 0 ∧ l = .getbQ1 .x1) ∨
     (∃ n text, i = .puts n text ∧ w = commandFields 0x9 n 0 ∧ l = if n = 0 then .complete else .puts 0 .t1) ∨
     (i = .gets ∧ w = commandFields 0xA 0 0 ∧ l = .gets .g0)) →
    (s.drv = .uninitialized → s.base ≠ 0 → exec i s = .next (faultEntered 5 w s)) ∧
    ((s.drv = .ready ∨ s.base = 0) → exec i s = .next { s with seq := l })

/-- R184, R183, R102, R103: the two lines of PUTB: T1 reads UART_FR and stays while TXFF is set; T2 writes the byte in bits
7:0 of UART_DR, zeros above. An error answer to either takes BUS_ERROR. -/
def Obligations.PutbPollsThenWrites : Prop :=
  ∀ (s : State) (b : Byte), s.cfg.valid = true → s.halted = false → Resolved s →
    (s.seq = .putb .t1 → LineReads (s.base + s.cfg.off.uartFr)
      (fun v => if v &&& s.cfg.mask.txff ≠ 0 then .putb .t1 else .putb .t2) s (exec (.putb b) s)) ∧
    (s.seq = .putb .t2 → LineWrites (s.base + s.cfg.off.uartDr) (b.setWidth 32) .complete s (exec (.putb b) s))

/-- R183 to R185: PUTB as a whole run in Ready, for any number of flag reads with TXFF set before the clear one: that
many reads plus one, then the one data write, for every byte value. The step count is the model's granularity
(notes/assumptions/5.md). -/
def Obligations.PutbSendsItsByteOnce : Prop :=
  ∀ (s : State) (b : Byte) (rest : List CmdWord) (w : Wait) (more : List Config.ReadAnswer),
    Accepting s → s.drv = .ready → Resolved s → WritesSucceed 1 s →
    s.port = commandFields 0x7 0 (b.setWidth 32) :: rest →
    w.ends s.cfg.mask.txff = true → s.devReads = answers w.reads ++ more →
    runSteps (w.busy.length + 5) s =
      .next { s with
        port := rest
        cur := some (.putb b)
        trace := s.trace ++ sendEvents s w b
        devReads := more
        devWrites := s.devWrites.tail
        draws := s.draws + (w.busy.length + 2) }

/-- R232, R137, R184, R187: a wait with no end is no fault. At every waiting line of TxByte, RxByte and MboxCall, in a
command or in the emission, however many reads show the flag set, the block stays at that line, BUSY, not halted, with no
fault recorded; and M4 goes on the same way through any sequence of EMPTY polls and mismatched replies. One read a step is
the model's granularity (notes/assumptions/5.md). -/
def Obligations.WaitsHaveNoTimeout : Prop :=
  (∀ (s : State) (l : Seq) (off : Nat) (mask : Word) (busy : List Word) (more : List Config.ReadAnswer),
    RunningAt s l → (onFaultPath l = true ∨ ∃ i, s.cur = some i ∧ lineOf i l = true) →
    waitOf s.cfg l = some (off, mask) → Resolved s →
    (∀ v ∈ busy, flagSet v mask = true) → s.devReads = answers busy ++ more →
    runSteps busy.length s =
      .next { s with
        trace := s.trace ++ readsOf (s.base + off) busy
        devReads := more
        draws := s.draws + busy.length }) ∧
  (∀ (s : State) (rounds : List ReplyRound) (more : List Config.ReadAnswer),
    ((RunningAt s (.mbox .m4Status) ∧ s.cur = some .mbox) ∨
      ∃ p, RunningAt s (.init (.s7m .m4Status)) ∧ s.cur = some (.init p)) →
    Resolved s → s.mreq = requestWord s.cfg → (∀ r ∈ rounds, r.goesOn s.cfg = true) →
    s.devReads = answers (rounds.flatMap ReplyRound.values) ++ more →
    runSteps (rounds.flatMap ReplyRound.values).length s =
      .next { s with
        trace := s.trace ++ rounds.flatMap (ReplyRound.events s)
        devReads := more
        draws := s.draws + (rounds.flatMap ReplyRound.values).length })

/-- R187, R186, R102: the lines of GETB: X1 reads UART_FR and stays while RXFE is set; X2 reads UART_DR once and keeps bits
7:0; Q2 responds with the byte. An error answer to a read takes BUS_ERROR. -/
def Obligations.GetbPollsReadsAndResponds : Prop :=
  ∀ s : State, s.cfg.valid = true → s.halted = false → Resolved s →
    (s.seq = .getbQ1 .x1 → LineReads (s.base + s.cfg.off.uartFr)
      (fun v => if v &&& s.cfg.mask.rxfe ≠ 0 then .getbQ1 .x1 else .getbQ1 .x2) s (exec .getb s)) ∧
    (s.seq = .getbQ1 .x2 → LineReads (s.base + s.cfg.off.uartDr)
      (fun v => .getbQ2 (v.extractLsb' 0 8)) s (exec .getb s)) ∧
    (∀ b : Byte, s.seq = .getbQ2 b → exec .getb s =
      .next { s with respq := s.respq ++ [b.setWidth 64], seq := .complete })

/-- R186 to R188: GETB as a whole run in Ready, for any number of flag reads with RXFE set before the clear one: one data
read, one response word holding bits 7:0 of it, the bits above dropped, no echo. The step count is the model's granularity
(notes/assumptions/5.md). -/
def Obligations.GetbRespondsWithTheLowByte : Prop :=
  ∀ (s : State) (d : Word) (rest : List CmdWord) (w : Wait) (more : List Config.ReadAnswer),
    Accepting s → s.drv = .ready → Resolved s → s.port = commandFields 0x8 0 0 :: rest →
    w.ends s.cfg.mask.rxfe = true → s.devReads = answers (w.reads ++ [d]) ++ more →
    runSteps (w.busy.length + 6) s =
      .next { s with
        port := rest
        cur := some .getb
        respq := s.respq ++ [(d.extractLsb' 0 8).setWidth 64]
        trace := s.trace ++ readsOf (s.base + s.cfg.off.uartFr) w.reads
          ++ [.read (s.base + s.cfg.off.uartDr) d false]
        devReads := more
        draws := s.draws + (w.busy.length + 2) }

/-- R190, R184, R102, R103: the lines of PUTS at byte `i`: the poll of TXFF, then the write, after which the loop goes on at
byte `i + 1` or the command is done. An error answer to either takes BUS_ERROR, and so the bytes from `i` on are not sent. -/
def Obligations.PutsSendsOneByte : Prop :=
  ∀ (s : State) (n : Offset) (text : List Byte) (i : Nat) (b : Byte), s.cfg.valid = true → s.halted = false →
    Resolved s → text[i]? = some b →
    (s.seq = .puts i .t1 → LineReads (s.base + s.cfg.off.uartFr)
      (fun v => if v &&& s.cfg.mask.txff ≠ 0 then .puts i .t1 else .puts i .t2) s (exec (.puts n text) s)) ∧
    (s.seq = .puts i .t2 → LineWrites (s.base + s.cfg.off.uartDr) (b.setWidth 32)
      (if i + 1 < n.toNat then .puts (i + 1) .t1 else .complete) s (exec (.puts n text) s))

/-- R190 to R192: PUTS as a whole run in Ready, for any number of flag reads with TXFF set before each byte: every byte of
the text in order, each after its own wait, nothing added, nothing translated, no response word. For the empty text no bus
event. The step count is the model's granularity (notes/assumptions/5.md). -/
def Obligations.PutsSendsTheTextInOrder : Prop :=
  ∀ (s : State) (n : Offset) (text : List Byte) (rest : List CmdWord) (ws : List Wait)
    (more : List Config.ReadAnswer),
    Accepting s → s.drv = .ready → Resolved s → WritesSucceed text.length s → text.length = n.toNat →
    s.port = commandFields 0x9 n 0 :: packBytes text ++ rest →
    ws.length = text.length → (∀ w ∈ ws, w.ends s.cfg.mask.txff = true) →
    s.devReads = answers (ws.flatMap Wait.reads) ++ more →
    runSteps ((ws.flatMap Wait.reads).length + text.length + 3) s =
      .next { s with
        port := rest
        cur := some (.puts n text)
        trace := s.trace ++ sendAll s ws text
        devReads := more
        devWrites := s.devWrites.drop text.length
        draws := s.draws + ((ws.flatMap Wait.reads).length + text.length) }

/-- R195 to R197, R184, R187, R102, R103 (with R193's G2 to G5): the lines of GETS that access the bus. X1 reads UART_FR
and stays while RXFE is set. X2 reads UART_DR, and the byte in bits 7:0 decides: LF and CR start the CRLF echo, backspace the
erase sequence, every other byte its own echo. An echo line reads UART_FR and stays while TXFF is set, then writes its byte;
after its last byte follow G9, the discard or the store. An error answer to any of them takes BUS_ERROR. -/
def Obligations.GetsLinesPollClassifyAndEcho : Prop :=
  ∀ s : State, s.cfg.valid = true → s.halted = false → Resolved s →
    (s.seq = .gets (.g2 .x1) → LineReads (s.base + s.cfg.off.uartFr)
      (fun v => if v &&& s.cfg.mask.rxfe ≠ 0 then .gets (.g2 .x1) else .gets (.g2 .x2)) s (exec .gets s)) ∧
    (s.seq = .gets (.g2 .x2) → LineReads (s.base + s.cfg.off.uartDr)
      (fun v => .gets (
        if v.extractLsb' 0 8 = 0x0A ∨ v.extractLsb' 0 8 = 0x0D then .echo 0x0D [0x0A] .t1 .terminate
        else if v.extractLsb' 0 8 = 0x08 then .echo 0x08 [0x20, 0x08] .t1 .erase
        else .echo (v.extractLsb' 0 8) [] .t1 (.store (v.extractLsb' 0 8)))) s (exec .gets s)) ∧
    (∀ (b : Byte) (more : List Byte) (k : EchoThen),
      (s.seq = .gets (.echo b more .t1 k) → LineReads (s.base + s.cfg.off.uartFr)
        (fun v => if v &&& s.cfg.mask.txff ≠ 0 then .gets (.echo b more .t1 k) else .gets (.echo b more .t2 k))
        s (exec .gets s)) ∧
      (s.seq = .gets (.echo b more .t2 k) → LineWrites (s.base + s.cfg.off.uartDr) (b.setWidth 32)
        (match more, k with
          | b' :: more', k => .gets (.echo b' more' .t1 k)
          | [], .terminate => .gets .g9
          | [], .erase => .gets .g4Discard
          | [], .store c => .gets (.g5Store c)) s (exec .gets s)))

/-- R194, R196 to R198: the lines of GETS that write the line buffer: G0 sets `LEN` to 0; the discard counts `LEN` down
and stays at 0; the store writes the byte at `LB[LEN]`, leaves every other byte, counts `LEN` up, and the 128th stored
byte ends the line at once. -/
def Obligations.GetsLinesEditTheBuffer : Prop :=
  ∀ s : State, s.halted = false →
    (s.seq = .gets .g0 → exec .gets s = .next { s with len := 0, seq := .gets (.g2 .x1) }) ∧
    (s.seq = .gets .g4Discard → exec .gets s =
      .next { s with len := if s.len = 0 then 0 else s.len - 1, seq := .gets (.g2 .x1) }) ∧
    (∀ (b : Byte) (h : s.len.toNat < 128), s.seq = .gets (.g5Store b) → exec .gets s =
      .next { s with
        lb := s.lb.set s.len.toNat b h
        len := s.len + 1
        seq := if s.len = 127 then .gets .g9 else .gets (.g2 .x1) })

/-- R199, R82: GETS responds with `LEN` and then `ceil(LEN/8)` words holding `LB[0..LEN-1]`, byte `k` in bits
`8*(k mod 8)+7 : 8*(k mod 8)` of word `floor(k/8)`, the padding zero. -/
def Obligations.GetsRespondsWithTheLine : Prop :=
  ∀ s : State, s.halted = false → s.seq = .gets .g9 → s.len.toNat ≤ 128 →
    ∃ ws : List CmdWord,
      exec .gets s = .next { s with respq := s.respq ++ s.len.setWidth 64 :: ws, seq := .complete } ∧
      ws.length = (s.len.toNat + 7) / 8 ∧
      ∀ k w, ws[k / 8]? = some w →
        w.extractLsb' (8 * (k % 8)) 8 = if k < s.len.toNat then s.lb.toList.getD k 0 else 0

/-- R193 to R201: GETS as a whole run refines the pure line editor: for every input that ends a line at its last byte, with
any number of flag reads before each received and each echoed byte, the response is that line's length and its packed
bytes, the buffer holds the line, and the bus shows exactly the waits, data reads and echoes of those bytes, in order. -/
def Obligations.GetsRefinesTheLineEditor : Prop :=
  ∀ (s : State) (rest : List CmdWord) (rs : List Received) (line : List Byte) (more : List Config.ReadAnswer),
    Accepting s → s.drv = .ready → Resolved s → WritesSucceed (echoCount rs) s →
    s.port = commandFields 0xA 0 0 :: rest →
    editFits s.cfg [] rs = true → editLine [] (rs.map Received.byte) = some line →
    s.devReads = answers (editReads rs) ++ more →
    ∃ (n : Nat) (lb : Vector Byte 128), lb.toList.take line.length = line ∧ line.length ≤ 128 ∧
      runSteps n s =
        .next { s with
          port := rest
          cur := some .gets
          len := BitVec.ofNat 8 line.length
          lb := lb
          respq := s.respq ++ BitVec.ofNat 64 line.length :: packBytes line
          trace := s.trace ++ editEvents s [] rs
          devReads := more
          devWrites := s.devWrites.drop (echoCount rs)
          draws := s.draws + (editEvents s [] rs).length }

/-- R182: the four byte commands while `BASE` is 0, as whole runs: PUTB and PUTS, for every byte and every text, complete
without a bus event; GETB responds with the byte 0; GETS reads 128 zero bytes and responds with length 128 and 128 zero
bytes. No bus event, no fault. The step counts are the model's granularity (notes/assumptions/5.md). -/
def Obligations.ByteCommandsWithoutBaseAreAbsorbed : Prop :=
  ∀ (s : State) (b : Byte) (n : Offset) (text : List Byte) (rest : List CmdWord), Accepting s → s.base = 0 →
    (s.port = commandFields 0x7 0 (b.setWidth 32) :: rest →
      runSteps 5 s = .next { s with port := rest, cur := some (.putb b) }) ∧
    (s.port = commandFields 0x8 0 0 :: rest →
      runSteps 6 s = .next { s with port := rest, cur := some .getb, respq := s.respq ++ [0] }) ∧
    (text.length = n.toNat → s.port = commandFields 0x9 n 0 :: packBytes text ++ rest →
      runSteps (2 * text.length + 3) s = .next { s with port := rest, cur := some (.puts n text) }) ∧
    (s.port = commandFields 0xA 0 0 :: rest →
      runSteps 645 s =
        .next { s with
          port := rest
          cur := some .gets
          len := 128
          lb := Vector.replicate 128 0
          respq := s.respq ++ 128 :: List.replicate 16 0 })

/-! ## Faults and halt (spec/60_exceptions.md, spec/45_fault_hook.md) -/

/-- R210, R224: PANIC's line takes the fault entry with code 6 and information 0, in either driver state. -/
def Obligations.PanicEntersTheFaultPath : Prop :=
  ∀ s : State, s.halted = false → s.seq = .panicK1 → exec .panic s = .next (faultEntered 6 0 s)

/-- R226, R228, R211: from a fault entry, for any number of flag reads with TXFF set before each byte, the block sends the
13 bytes of `Thread panic!` and nothing else, then halts; with `BASE` = 0 it halts after 13 absorbed bytes without a bus
event (R212). The step counts are the model's granularity (notes/assumptions/5.md). -/
def Obligations.EmissionReportsOnceThenHalts : Prop :=
  ∀ (s : State) (ws : List Wait) (more : List Config.ReadAnswer),
    RunningAt s (.emit .t1) → s.pidx = 0 →
    (Resolved s → WritesSucceed 13 s → ws.length = 13 →
      (∀ w ∈ ws, w.ends s.cfg.mask.txff = true) → s.devReads = answers (ws.flatMap Wait.reads) ++ more →
      runSteps ((ws.flatMap Wait.reads).length + 14) s =
        .next { s with
          pidx := 13
          busy := false
          halted := true
          seq := .idle
          trace := s.trace ++ sendAll s ws
            [0x54, 0x68, 0x72, 0x65, 0x61, 0x64, 0x20, 0x70, 0x61, 0x6E, 0x69, 0x63, 0x21]
          devReads := more
          devWrites := s.devWrites.drop 13
          draws := s.draws + ((ws.flatMap Wait.reads).length + 13) }) ∧
    (s.base = 0 →
      runSteps 27 s = .next { s with pidx := 13, busy := false, halted := true, seq := .idle })

/-- R227: a bus error in the emission goes straight to Halt: the first fault's code and information stay, and two steps
later the block is halted with no further bus event (the two steps are the model's, notes/assumptions/21.md). -/
def Obligations.BusErrorInTheEmissionHalts : Prop :=
  ∀ s : State, Resolved s → s.cfg.busErrors = true →
    (RunningAt s (.emit .t1) → s.readAnswer.err = true →
      runSteps 2 s = .next { s with
        busy := false
        halted := true
        seq := .idle
        trace := s.trace ++ [.read (s.base + s.cfg.off.uartFr) s.readAnswer.value true]
        devReads := s.devReads.tail
        draws := s.draws + 1 }) ∧
    (RunningAt s (.emit .t2) → s.writeAnswer = true → ∀ b, Config.panicText[s.pidx.toNat]? = some b →
      runSteps 2 s = .next { s with
        busy := false
        halted := true
        seq := .idle
        trace := s.trace ++ [.write (s.base + s.cfg.off.uartDr) (b.setWidth 32) true]
        devWrites := s.devWrites.tail
        draws := s.draws + 1 })

/-- R23, R84, R228: a halted block takes no step, whatever stands at the command port. -/
def Obligations.HaltedBlockTakesNoStep : Prop :=
  ∀ (s : State) (ws : List CmdWord), s.halted = true →
    step s = .refused .halted ∧ step (s.present ws) = .refused .halted

/-- R9 (a) to (e): a block whose `CFG` breaks a constraint is refused. The clauses `AW` below 32 and a zero mask are no
constraint of R9: refusing them is the model's reading of R8 and R38 (DEDUCED, notes/assumptions/19.md). -/
def Obligations.InvalidConfigurationIsRefused : Prop :=
  ∀ s : State, s.halted = false →
    (s.cfg.aw < 32 ∨ (∃ b ∈ s.cfg.bases, b = 0 ∨ b % 4 ≠ 0 ∨ 2 ^ s.cfg.aw ≤ b) ∨
      (∃ o ∈ s.cfg.off.all, o % 4 ≠ 0 ∨ 2 ^ 28 ≤ o) ∨
      (∃ b ∈ s.cfg.bases, ∃ o ∈ s.cfg.off.all, 2 ^ s.cfg.aw ≤ b + o) ∨ 16 ≤ s.cfg.mboxChannel ∨
      s.cfg.mboxMsgAddr % 16 ≠ 0 ∨ s.cfg.mboxMsgAddr = 0 ∨ 2 ^ 32 ≤ s.cfg.mboxMsgAddr ∨
      s.cfg.mask.txff = 0 ∨ s.cfg.mask.rxfe = 0 ∨ s.cfg.mask.full = 0 ∨ s.cfg.mask.empty = 0) →
    step s = .refused .badConfig

/-- R221: which command can raise which code once it is accepted. In a state of the invariant, a step of a running
command that records a fault records only: REGR, REGW codes 2 to 4; MBOX, INIT code 4; PUTB, GETB, PUTS, GETS codes 4 and
5; PANIC code 6; RESOLVE and DELAY none. While `BASE` is 0 it is code 6. -/
def Obligations.CommandsRaiseOnlyTheirFaults : Prop :=
  ∀ (s t : State) (i : Instr), Inv s → s.cur = some i → lineOf i s.seq = true → step s = .next t → t.faultCode ≠ 0 →
    (t.faultCode = 2 ∨ t.faultCode = 3 → i.opcode = .regr ∨ i.opcode = .regw) ∧
    (t.faultCode = 4 → s.cfg.busErrors = true ∧ i.opcode ≠ .resolve ∧ i.opcode ≠ .delay ∧ i.opcode ≠ .panic) ∧
    (t.faultCode = 5 → i.opcode = .putb ∨ i.opcode = .getb ∨ i.opcode = .puts ∨ i.opcode = .gets) ∧
    (t.faultCode = 6 ↔ i.opcode = .panic) ∧
    t.faultCode ≠ 1 ∧
    (s.base = 0 → t.faultCode = 6)

/-- R27, R224, R227: the first fault is kept: in a state of the invariant, a step after a fault entry changes neither
`FAULT_CODE` nor `FAULT_INFO`. -/
def Obligations.FirstFaultIsKept : Prop :=
  ∀ s t : State, Inv s → step s = .next t → s.faultCode ≠ 0 →
    t.faultCode = s.faultCode ∧ t.faultInfo = s.faultInfo

/-- R224, R225: a step that records a fault rolls nothing back: `BASE`, `DRV_STATE`, `LB`, `LEN` and `RESPQ` are kept as
they stood, `BUSY` is 1 and the emission is about to start at byte 0. -/
def Obligations.FaultEntryKeepsTheState : Prop :=
  ∀ s t : State, step s = .next t → s.faultCode = 0 → t.faultCode ≠ 0 →
    t.base = s.base ∧ t.drv = s.drv ∧ t.lb = s.lb ∧ t.len = s.len ∧ t.respq = s.respq ∧ t.halted = false ∧
    t.busy = true ∧ t.pidx = 0 ∧ t.seq = .emit .t1

/-! ## The bus, the responses, the machine as a whole -/

/-- R65: while `BASE` is 0, no step makes a bus event or takes an answer of the device side. -/
def Obligations.NoBusEventWithoutBase : Prop :=
  ∀ s t : State, s.base = 0 → step s = .next t →
    t.trace = s.trace ∧ t.devReads = s.devReads ∧ t.devWrites = s.devWrites

/-- R7, R56, R60, R53, R58: a step makes at most one bus event, and adds it behind all earlier ones; its address is at or
above `BASE`, a multiple of 4 and below 2^AW. -/
def Obligations.OneAlignedBusEventPerStep : Prop :=
  ∀ s t : State, step s = .next t →
    t.trace = s.trace ∨
    ∃ e, t.trace = s.trace ++ [e] ∧ s.base ≤ e.addr ∧ e.addr % 4 = 0 ∧ e.addr < 2 ^ s.cfg.aw

/-- R21, R44: no step changes the configuration; a step changes `BASE` only at RESOLVE's line or INIT's S1, and to a base
of the configuration. -/
def Obligations.OnlyTheLocatorWritesBase : Prop :=
  ∀ s t : State, step s = .next t →
    t.cfg = s.cfg ∧ (t.base = s.base ∨ ((s.seq = .resolveL1 ∨ s.seq = .init .s1) ∧ t.base ∈ s.cfg.bases))

/-- R35, R82: a step removes no response word, and adds some only at REGR's L2, GETB's Q2 and GETS's G9. -/
def Obligations.OnlyThreeLinesRespond : Prop :=
  ∀ s t : State, step s = .next t →
    ∃ ws, t.respq = s.respq ++ ws ∧
      (ws ≠ [] → (∃ v, s.seq = .regrL2 v) ∨ (∃ b, s.seq = .getbQ2 b) ∨ s.seq = .gets .g9)

/-- R260: reset puts every register at its reset value, for every configuration, and STATUS and FAULT_INFO read 0 (R43);
the values of `LB`, `MREQ` and `DCNT`, which the spec leaves unspecified, are not said here. -/
def Obligations.ResetValues : Prop :=
  State.reset = State.resetFor State.reset.cfg ∧
  ∀ c : Cfg,
    (State.resetFor c).base = 0 ∧ (State.resetFor c).drv = .uninitialized ∧ (State.resetFor c).halted = false ∧
    (State.resetFor c).busy = false ∧ (State.resetFor c).seq = .idle ∧ (State.resetFor c).cur = none ∧
    (State.resetFor c).faultCode = 0 ∧ (State.resetFor c).faultInfo = 0 ∧ (State.resetFor c).len = 0 ∧
    (State.resetFor c).pidx = 0 ∧ (State.resetFor c).respq = [] ∧ (State.resetFor c).port = [] ∧
    (State.resetFor c).status = 0 ∧ (State.resetFor c).faultInfoPort = 0

/-- R261: a reset at any moment, inside a command or halted, leaves the registers of R260 and an empty command port, with
no fault recorded and no bus event, and the block accepts the first command presented after it. -/
def Obligations.ResetAbandonsTheCommand : Prop :=
  ∀ (s : State) (i : Instr), s.cfg.valid = true → i.wellFormed = true →
    s.assertReset.trace = s.trace ∧ s.assertReset.cfg = s.cfg ∧ s.assertReset.port = [] ∧
    s.assertReset.respq = [] ∧ s.assertReset.base = 0 ∧ s.assertReset.drv = .uninitialized ∧
    s.assertReset.halted = false ∧ s.assertReset.busy = false ∧ s.assertReset.seq = .idle ∧
    s.assertReset.cur = none ∧ s.assertReset.faultCode = 0 ∧ s.assertReset.faultInfo = 0 ∧ s.assertReset.len = 0 ∧
    s.assertReset.pidx = 0 ∧ s.assertReset.status = 0 ∧
    ∃ t, step (s.assertReset.present (encode i)) = .next t ∧ t.cur = some i ∧ t.busy = true ∧ t.seq = firstLine i

/-- R43: the STATUS port: bit 0 `BUSY`, bit 1 Ready, bit 2 `HALTED`, bits 15:8 `FAULT_CODE`, bits 7:3 and 31:16 zero; the
FAULT_INFO port is `FAULT_INFO`; at reset both read 0. -/
def Obligations.StatusPortBits : Prop :=
  ∀ s : State,
    s.status.getLsbD 0 = s.busy ∧ s.status.getLsbD 1 = (s.drv == .ready) ∧ s.status.getLsbD 2 = s.halted ∧
    s.status.extractLsb' 3 5 = 0 ∧ s.status.extractLsb' 8 8 = s.faultCode ∧ s.status.extractLsb' 16 16 = 0 ∧
    s.faultInfoPort = s.faultInfo ∧ State.reset.status = 0 ∧ State.reset.faultInfoPort = 0

/-- R20 to R34: the invariant holds right after reset, for every configuration that meets R9, the model's own
`Config.reference` among them. -/
def Obligations.InvariantHoldsAtReset : Prop :=
  Inv State.reset ∧ ∀ c : Cfg, c.valid = true → Inv (State.resetFor c)

/-- R20 to R34: every step keeps the invariant, from every state that meets it. -/
def Obligations.EveryStepKeepsTheInvariant : Prop :=
  ∀ s t : State, Inv s → step s = .next t → Inv t

/-- R23, R24, R232: in every state of the invariant the machine has a next step, unless it is halted: no wait, no fault
of the block and no command stops it. -/
def Obligations.MachineNeverGetsStuck : Prop :=
  ∀ s : State, Inv s → s.halted = false → ∃ t, step s = .next t

/-- R29, R31, R32: the bytes of `LB` at `LEN` and above, `MREQ` outside the handshake and `DCNT` outside a delay are
never observable: a step from two states that differ only there has the same outcome, and its next states again differ
only there. So no claim about the ports or the bus depends on the model's reset values for them
(notes/assumptions/4.md). -/
def Obligations.UnspecifiedLatchesAreUnobservable : Prop :=
  ∀ s t : State, Alike s t →
    (∀ s', step s = .next s' → ∃ t', step t = .next t' ∧ Alike s' t') ∧
    (∀ f, step s = .fault f → step t = .fault f) ∧ (∀ r, step s = .refused r → step t = .refused r)
end

