-- ==== Sys2Proof/Laws/State.lean ====
section
/-! SUPPORT. One lemma per field of State per named update, each true by rfl, so that no proof unfolds an update. -/

namespace Sys2Proof.Machine

section gotoFields

variable (l : Seq) (s : State)

@[simp] theorem goto_cfg : (s.goto l).cfg = s.cfg := rfl
@[simp] theorem goto_base : (s.goto l).base = s.base := rfl
@[simp] theorem goto_drv : (s.goto l).drv = s.drv := rfl
@[simp] theorem goto_halted : (s.goto l).halted = s.halted := rfl
@[simp] theorem goto_seq : (s.goto l).seq = l := rfl
@[simp] theorem goto_busy : (s.goto l).busy = s.busy := rfl
@[simp] theorem goto_cur : (s.goto l).cur = s.cur := rfl
@[simp] theorem goto_faultCode : (s.goto l).faultCode = s.faultCode := rfl
@[simp] theorem goto_faultInfo : (s.goto l).faultInfo = s.faultInfo := rfl
@[simp] theorem goto_lb : (s.goto l).lb = s.lb := rfl
@[simp] theorem goto_len : (s.goto l).len = s.len := rfl
@[simp] theorem goto_mreq : (s.goto l).mreq = s.mreq := rfl
@[simp] theorem goto_dcnt : (s.goto l).dcnt = s.dcnt := rfl
@[simp] theorem goto_pidx : (s.goto l).pidx = s.pidx := rfl
@[simp] theorem goto_respq : (s.goto l).respq = s.respq := rfl
@[simp] theorem goto_port : (s.goto l).port = s.port := rfl
@[simp] theorem goto_trace : (s.goto l).trace = s.trace := rfl
@[simp] theorem goto_devReads : (s.goto l).devReads = s.devReads := rfl
@[simp] theorem goto_devWrites : (s.goto l).devWrites = s.devWrites := rfl
@[simp] theorem goto_draws : (s.goto l).draws = s.draws := rfl

end gotoFields

section acceptFields

variable (i : Instr) (l : Seq) (s : State)

@[simp] theorem accept_cfg : (accept i l s).cfg = s.cfg := rfl
@[simp] theorem accept_base : (accept i l s).base = s.base := rfl
@[simp] theorem accept_drv : (accept i l s).drv = s.drv := rfl
@[simp] theorem accept_halted : (accept i l s).halted = s.halted := rfl
@[simp] theorem accept_seq : (accept i l s).seq = l := rfl
@[simp] theorem accept_busy : (accept i l s).busy = true := rfl
@[simp] theorem accept_cur : (accept i l s).cur = some i := rfl
@[simp] theorem accept_faultCode : (accept i l s).faultCode = s.faultCode := rfl
@[simp] theorem accept_faultInfo : (accept i l s).faultInfo = s.faultInfo := rfl
@[simp] theorem accept_lb : (accept i l s).lb = s.lb := rfl
@[simp] theorem accept_len : (accept i l s).len = s.len := rfl
@[simp] theorem accept_mreq : (accept i l s).mreq = s.mreq := rfl
@[simp] theorem accept_dcnt : (accept i l s).dcnt = s.dcnt := rfl
@[simp] theorem accept_pidx : (accept i l s).pidx = s.pidx := rfl
@[simp] theorem accept_respq : (accept i l s).respq = s.respq := rfl
@[simp] theorem accept_port : (accept i l s).port = s.port := rfl
@[simp] theorem accept_trace : (accept i l s).trace = s.trace := rfl
@[simp] theorem accept_devReads : (accept i l s).devReads = s.devReads := rfl
@[simp] theorem accept_devWrites : (accept i l s).devWrites = s.devWrites := rfl
@[simp] theorem accept_draws : (accept i l s).draws = s.draws := rfl

end acceptFields

section completeFields

variable (s : State)

@[simp] theorem complete_cfg : (complete s).cfg = s.cfg := rfl
@[simp] theorem complete_base : (complete s).base = s.base := rfl
@[simp] theorem complete_drv : (complete s).drv = s.drv := rfl
@[simp] theorem complete_halted : (complete s).halted = s.halted := rfl
@[simp] theorem complete_seq : (complete s).seq = .idle := rfl
@[simp] theorem complete_busy : (complete s).busy = false := rfl
@[simp] theorem complete_cur : (complete s).cur = s.cur := rfl
@[simp] theorem complete_faultCode : (complete s).faultCode = s.faultCode := rfl
@[simp] theorem complete_faultInfo : (complete s).faultInfo = s.faultInfo := rfl
@[simp] theorem complete_lb : (complete s).lb = s.lb := rfl
@[simp] theorem complete_len : (complete s).len = s.len := rfl
@[simp] theorem complete_mreq : (complete s).mreq = s.mreq := rfl
@[simp] theorem complete_dcnt : (complete s).dcnt = s.dcnt := rfl
@[simp] theorem complete_pidx : (complete s).pidx = s.pidx := rfl
@[simp] theorem complete_respq : (complete s).respq = s.respq := rfl
@[simp] theorem complete_port : (complete s).port = s.port := rfl
@[simp] theorem complete_trace : (complete s).trace = s.trace := rfl
@[simp] theorem complete_devReads : (complete s).devReads = s.devReads := rfl
@[simp] theorem complete_devWrites : (complete s).devWrites = s.devWrites := rfl
@[simp] theorem complete_draws : (complete s).draws = s.draws := rfl

end completeFields

section respondFields

variable (ws : List CmdWord) (s : State)

@[simp] theorem respond_cfg : (respond ws s).cfg = s.cfg := rfl
@[simp] theorem respond_base : (respond ws s).base = s.base := rfl
@[simp] theorem respond_drv : (respond ws s).drv = s.drv := rfl
@[simp] theorem respond_halted : (respond ws s).halted = s.halted := rfl
@[simp] theorem respond_seq : (respond ws s).seq = s.seq := rfl
@[simp] theorem respond_busy : (respond ws s).busy = s.busy := rfl
@[simp] theorem respond_cur : (respond ws s).cur = s.cur := rfl
@[simp] theorem respond_faultCode : (respond ws s).faultCode = s.faultCode := rfl
@[simp] theorem respond_faultInfo : (respond ws s).faultInfo = s.faultInfo := rfl
@[simp] theorem respond_lb : (respond ws s).lb = s.lb := rfl
@[simp] theorem respond_len : (respond ws s).len = s.len := rfl
@[simp] theorem respond_mreq : (respond ws s).mreq = s.mreq := rfl
@[simp] theorem respond_dcnt : (respond ws s).dcnt = s.dcnt := rfl
@[simp] theorem respond_pidx : (respond ws s).pidx = s.pidx := rfl
@[simp] theorem respond_respq : (respond ws s).respq = s.respq ++ ws := rfl
@[simp] theorem respond_port : (respond ws s).port = s.port := rfl
@[simp] theorem respond_trace : (respond ws s).trace = s.trace := rfl
@[simp] theorem respond_devReads : (respond ws s).devReads = s.devReads := rfl
@[simp] theorem respond_devWrites : (respond ws s).devWrites = s.devWrites := rfl
@[simp] theorem respond_draws : (respond ws s).draws = s.draws := rfl

end respondFields

section raiseFields

variable (f : FaultCode) (info : CmdWord) (s : State)

@[simp] theorem raise_cfg : (raise f info s).cfg = s.cfg := rfl
@[simp] theorem raise_base : (raise f info s).base = s.base := rfl
@[simp] theorem raise_drv : (raise f info s).drv = s.drv := rfl
@[simp] theorem raise_halted : (raise f info s).halted = s.halted := rfl
@[simp] theorem raise_seq : (raise f info s).seq = .emit .t1 := rfl
@[simp] theorem raise_busy : (raise f info s).busy = true := rfl
@[simp] theorem raise_cur : (raise f info s).cur = s.cur := rfl
@[simp] theorem raise_faultCode : (raise f info s).faultCode = f.code := rfl
@[simp] theorem raise_faultInfo : (raise f info s).faultInfo = info := rfl
@[simp] theorem raise_lb : (raise f info s).lb = s.lb := rfl
@[simp] theorem raise_len : (raise f info s).len = s.len := rfl
@[simp] theorem raise_mreq : (raise f info s).mreq = s.mreq := rfl
@[simp] theorem raise_dcnt : (raise f info s).dcnt = s.dcnt := rfl
@[simp] theorem raise_pidx : (raise f info s).pidx = 0 := rfl
@[simp] theorem raise_respq : (raise f info s).respq = s.respq := rfl
@[simp] theorem raise_port : (raise f info s).port = s.port := rfl
@[simp] theorem raise_trace : (raise f info s).trace = s.trace := rfl
@[simp] theorem raise_devReads : (raise f info s).devReads = s.devReads := rfl
@[simp] theorem raise_devWrites : (raise f info s).devWrites = s.devWrites := rfl
@[simp] theorem raise_draws : (raise f info s).draws = s.draws := rfl

end raiseFields

section haltBlockFields

variable (s : State)

@[simp] theorem haltBlock_cfg : (haltBlock s).cfg = s.cfg := rfl
@[simp] theorem haltBlock_base : (haltBlock s).base = s.base := rfl
@[simp] theorem haltBlock_drv : (haltBlock s).drv = s.drv := rfl
@[simp] theorem haltBlock_halted : (haltBlock s).halted = true := rfl
@[simp] theorem haltBlock_seq : (haltBlock s).seq = .idle := rfl
@[simp] theorem haltBlock_busy : (haltBlock s).busy = false := rfl
@[simp] theorem haltBlock_cur : (haltBlock s).cur = s.cur := rfl
@[simp] theorem haltBlock_faultCode : (haltBlock s).faultCode = s.faultCode := rfl
@[simp] theorem haltBlock_faultInfo : (haltBlock s).faultInfo = s.faultInfo := rfl
@[simp] theorem haltBlock_lb : (haltBlock s).lb = s.lb := rfl
@[simp] theorem haltBlock_len : (haltBlock s).len = s.len := rfl
@[simp] theorem haltBlock_mreq : (haltBlock s).mreq = s.mreq := rfl
@[simp] theorem haltBlock_dcnt : (haltBlock s).dcnt = s.dcnt := rfl
@[simp] theorem haltBlock_pidx : (haltBlock s).pidx = s.pidx := rfl
@[simp] theorem haltBlock_respq : (haltBlock s).respq = s.respq := rfl
@[simp] theorem haltBlock_port : (haltBlock s).port = s.port := rfl
@[simp] theorem haltBlock_trace : (haltBlock s).trace = s.trace := rfl
@[simp] theorem haltBlock_devReads : (haltBlock s).devReads = s.devReads := rfl
@[simp] theorem haltBlock_devWrites : (haltBlock s).devWrites = s.devWrites := rfl
@[simp] theorem haltBlock_draws : (haltBlock s).draws = s.draws := rfl

end haltBlockFields

section memReadFields

variable (ea : Nat) (s : State)

@[simp] theorem memRead_cfg : (memRead ea s).cfg = s.cfg := rfl
@[simp] theorem memRead_base : (memRead ea s).base = s.base := rfl
@[simp] theorem memRead_drv : (memRead ea s).drv = s.drv := rfl
@[simp] theorem memRead_halted : (memRead ea s).halted = s.halted := rfl
@[simp] theorem memRead_seq : (memRead ea s).seq = s.seq := rfl
@[simp] theorem memRead_busy : (memRead ea s).busy = s.busy := rfl
@[simp] theorem memRead_cur : (memRead ea s).cur = s.cur := rfl
@[simp] theorem memRead_faultCode : (memRead ea s).faultCode = s.faultCode := rfl
@[simp] theorem memRead_faultInfo : (memRead ea s).faultInfo = s.faultInfo := rfl
@[simp] theorem memRead_lb : (memRead ea s).lb = s.lb := rfl
@[simp] theorem memRead_len : (memRead ea s).len = s.len := rfl
@[simp] theorem memRead_mreq : (memRead ea s).mreq = s.mreq := rfl
@[simp] theorem memRead_dcnt : (memRead ea s).dcnt = s.dcnt := rfl
@[simp] theorem memRead_pidx : (memRead ea s).pidx = s.pidx := rfl
@[simp] theorem memRead_respq : (memRead ea s).respq = s.respq := rfl
@[simp] theorem memRead_port : (memRead ea s).port = s.port := rfl
@[simp] theorem memRead_trace : (memRead ea s).trace = s.trace ++ [.read ea s.readAnswer.value s.readErr] := rfl
@[simp] theorem memRead_devReads : (memRead ea s).devReads = s.devReads.tail := rfl
@[simp] theorem memRead_devWrites : (memRead ea s).devWrites = s.devWrites := rfl
@[simp] theorem memRead_draws : (memRead ea s).draws = s.draws + 1 := rfl

end memReadFields

section memWriteFields

variable (ea : Nat) (v : Word) (s : State)

@[simp] theorem memWrite_cfg : (memWrite ea v s).cfg = s.cfg := rfl
@[simp] theorem memWrite_base : (memWrite ea v s).base = s.base := rfl
@[simp] theorem memWrite_drv : (memWrite ea v s).drv = s.drv := rfl
@[simp] theorem memWrite_halted : (memWrite ea v s).halted = s.halted := rfl
@[simp] theorem memWrite_seq : (memWrite ea v s).seq = s.seq := rfl
@[simp] theorem memWrite_busy : (memWrite ea v s).busy = s.busy := rfl
@[simp] theorem memWrite_cur : (memWrite ea v s).cur = s.cur := rfl
@[simp] theorem memWrite_faultCode : (memWrite ea v s).faultCode = s.faultCode := rfl
@[simp] theorem memWrite_faultInfo : (memWrite ea v s).faultInfo = s.faultInfo := rfl
@[simp] theorem memWrite_lb : (memWrite ea v s).lb = s.lb := rfl
@[simp] theorem memWrite_len : (memWrite ea v s).len = s.len := rfl
@[simp] theorem memWrite_mreq : (memWrite ea v s).mreq = s.mreq := rfl
@[simp] theorem memWrite_dcnt : (memWrite ea v s).dcnt = s.dcnt := rfl
@[simp] theorem memWrite_pidx : (memWrite ea v s).pidx = s.pidx := rfl
@[simp] theorem memWrite_respq : (memWrite ea v s).respq = s.respq := rfl
@[simp] theorem memWrite_port : (memWrite ea v s).port = s.port := rfl
@[simp] theorem memWrite_trace : (memWrite ea v s).trace = s.trace ++ [.write ea v s.writeErr] := rfl
@[simp] theorem memWrite_devReads : (memWrite ea v s).devReads = s.devReads := rfl
@[simp] theorem memWrite_devWrites : (memWrite ea v s).devWrites = s.devWrites.tail := rfl
@[simp] theorem memWrite_draws : (memWrite ea v s).draws = s.draws + 1 := rfl

end memWriteFields

section emitNextFields

variable (s : State)

@[simp] theorem emitNext_cfg : (emitNext s).cfg = s.cfg := rfl
@[simp] theorem emitNext_base : (emitNext s).base = s.base := rfl
@[simp] theorem emitNext_drv : (emitNext s).drv = s.drv := rfl
@[simp] theorem emitNext_halted : (emitNext s).halted = s.halted := rfl
@[simp] theorem emitNext_seq : (emitNext s).seq = if s.pidx + 1 < 13 then .emit .t1 else .halt := rfl
@[simp] theorem emitNext_busy : (emitNext s).busy = s.busy := rfl
@[simp] theorem emitNext_cur : (emitNext s).cur = s.cur := rfl
@[simp] theorem emitNext_faultCode : (emitNext s).faultCode = s.faultCode := rfl
@[simp] theorem emitNext_faultInfo : (emitNext s).faultInfo = s.faultInfo := rfl
@[simp] theorem emitNext_lb : (emitNext s).lb = s.lb := rfl
@[simp] theorem emitNext_len : (emitNext s).len = s.len := rfl
@[simp] theorem emitNext_mreq : (emitNext s).mreq = s.mreq := rfl
@[simp] theorem emitNext_dcnt : (emitNext s).dcnt = s.dcnt := rfl
@[simp] theorem emitNext_pidx : (emitNext s).pidx = s.pidx + 1 := rfl
@[simp] theorem emitNext_respq : (emitNext s).respq = s.respq := rfl
@[simp] theorem emitNext_port : (emitNext s).port = s.port := rfl
@[simp] theorem emitNext_trace : (emitNext s).trace = s.trace := rfl
@[simp] theorem emitNext_devReads : (emitNext s).devReads = s.devReads := rfl
@[simp] theorem emitNext_devWrites : (emitNext s).devWrites = s.devWrites := rfl
@[simp] theorem emitNext_draws : (emitNext s).draws = s.draws := rfl

end emitNextFields

section discardByteFields

variable (s : State)

@[simp] theorem discardByte_cfg : (discardByte s).cfg = s.cfg := rfl
@[simp] theorem discardByte_base : (discardByte s).base = s.base := rfl
@[simp] theorem discardByte_drv : (discardByte s).drv = s.drv := rfl
@[simp] theorem discardByte_halted : (discardByte s).halted = s.halted := rfl
@[simp] theorem discardByte_seq : (discardByte s).seq = .gets (.g2 .x1) := rfl
@[simp] theorem discardByte_busy : (discardByte s).busy = s.busy := rfl
@[simp] theorem discardByte_cur : (discardByte s).cur = s.cur := rfl
@[simp] theorem discardByte_faultCode : (discardByte s).faultCode = s.faultCode := rfl
@[simp] theorem discardByte_faultInfo : (discardByte s).faultInfo = s.faultInfo := rfl
@[simp] theorem discardByte_lb : (discardByte s).lb = s.lb := rfl
@[simp] theorem discardByte_len : (discardByte s).len = if s.len = 0 then 0 else s.len - 1 := rfl
@[simp] theorem discardByte_mreq : (discardByte s).mreq = s.mreq := rfl
@[simp] theorem discardByte_dcnt : (discardByte s).dcnt = s.dcnt := rfl
@[simp] theorem discardByte_pidx : (discardByte s).pidx = s.pidx := rfl
@[simp] theorem discardByte_respq : (discardByte s).respq = s.respq := rfl
@[simp] theorem discardByte_port : (discardByte s).port = s.port := rfl
@[simp] theorem discardByte_trace : (discardByte s).trace = s.trace := rfl
@[simp] theorem discardByte_devReads : (discardByte s).devReads = s.devReads := rfl
@[simp] theorem discardByte_devWrites : (discardByte s).devWrites = s.devWrites := rfl
@[simp] theorem discardByte_draws : (discardByte s).draws = s.draws := rfl

end discardByteFields

section storeByteFields

variable (b : Byte) (s : State)

@[simp] theorem storeByte_cfg : (storeByte b s).cfg = s.cfg := rfl
@[simp] theorem storeByte_base : (storeByte b s).base = s.base := rfl
@[simp] theorem storeByte_drv : (storeByte b s).drv = s.drv := rfl
@[simp] theorem storeByte_halted : (storeByte b s).halted = s.halted := rfl
@[simp] theorem storeByte_seq : (storeByte b s).seq = if (s.len + 1).toNat = Config.lbCap then .gets .g9 else .gets (.g2 .x1) := rfl
@[simp] theorem storeByte_busy : (storeByte b s).busy = s.busy := rfl
@[simp] theorem storeByte_cur : (storeByte b s).cur = s.cur := rfl
@[simp] theorem storeByte_faultCode : (storeByte b s).faultCode = s.faultCode := rfl
@[simp] theorem storeByte_faultInfo : (storeByte b s).faultInfo = s.faultInfo := rfl
@[simp] theorem storeByte_lb : (storeByte b s).lb = lineStore s.lb s.len.toNat b := rfl
@[simp] theorem storeByte_len : (storeByte b s).len = s.len + 1 := rfl
@[simp] theorem storeByte_mreq : (storeByte b s).mreq = s.mreq := rfl
@[simp] theorem storeByte_dcnt : (storeByte b s).dcnt = s.dcnt := rfl
@[simp] theorem storeByte_pidx : (storeByte b s).pidx = s.pidx := rfl
@[simp] theorem storeByte_respq : (storeByte b s).respq = s.respq := rfl
@[simp] theorem storeByte_port : (storeByte b s).port = s.port := rfl
@[simp] theorem storeByte_trace : (storeByte b s).trace = s.trace := rfl
@[simp] theorem storeByte_devReads : (storeByte b s).devReads = s.devReads := rfl
@[simp] theorem storeByte_devWrites : (storeByte b s).devWrites = s.devWrites := rfl
@[simp] theorem storeByte_draws : (storeByte b s).draws = s.draws := rfl

end storeByteFields

end Sys2Proof.Machine
end

