-- ==== Sys2Proof/Laws/Ops.lean ====
section
/-! SUPPORT. For each shared operation one lemma that says everything it can do, so that callers cite it and do not unfold
the operation. -/

namespace Sys2Proof.Machine

open Sys2Proof.Config (Cfg BusEvent ReadAnswer)

/-! ## Configurations -/

/-- What R9 (a) gives for every base of a valid configuration. -/
theorem valid_base {c : Cfg} (h : c.valid = true) {b : Nat} (hb : b ∈ c.bases) :
    b ≠ 0 ∧ b % 4 = 0 ∧ b < 2 ^ c.aw := by
  simp only [Cfg.valid, Bool.and_eq_true, List.all_eq_true] at h
  have := h.1.1.1.1.1.1.1.1.1.1.2 b hb
  simpa [Cfg.baseOk, and_assoc] using this

/-- What R9 (b) gives for every offset. -/
theorem valid_offset {c : Cfg} (h : c.valid = true) {o : Nat} (ho : o ∈ c.off.all) : o % 4 = 0 ∧ o < 2 ^ 28 := by
  simp only [Cfg.valid, Bool.and_eq_true, List.all_eq_true] at h
  simpa [Config.offsetOk] using h.1.1.1.1.1.1.1.1.1.2 o ho

/-- What R9 (c) gives for a base and an offset. -/
theorem valid_sum {c : Cfg} (h : c.valid = true) {b o : Nat} (hb : b ∈ c.bases) (ho : o ∈ c.off.all) :
    b + o < 2 ^ c.aw := by
  simp only [Cfg.valid, Bool.and_eq_true, List.all_eq_true] at h
  simpa using h.1.1.1.1.1.1.1.1.2 b hb o ho

/-- R8: an address has at least 32 bits. -/
theorem valid_aw {c : Cfg} (h : c.valid = true) : 32 ≤ c.aw := by
  simp only [Cfg.valid, Bool.and_eq_true] at h
  simpa using h.1.1.1.1.1.1.1.1.1.1.1

/-- R9 (d), (e) and R38. -/
theorem valid_rest {c : Cfg} (h : c.valid = true) :
    c.mboxChannel < 16 ∧ c.mboxMsgAddr % 16 = 0 ∧ c.mboxMsgAddr ≠ 0 ∧ c.mboxMsgAddr < 2 ^ 32 ∧
      c.mask.txff ≠ 0 ∧ c.mask.rxfe ≠ 0 ∧ c.mask.full ≠ 0 ∧ c.mask.empty ≠ 0 := by
  simp only [Cfg.valid, Bool.and_eq_true] at h
  simpa [and_assoc] using And.intro h.1.1.1.1.1.1.1.2 (And.intro h.1.1.1.1.1.1.2 (And.intro h.1.1.1.1.1.2
    (And.intro h.1.1.1.1.2 (And.intro h.1.1.1.2 (And.intro h.1.1.2 (And.intro h.1.2 h.2))))))

/-- The Locator selects a base of the configuration (R101). -/
theorem lookupBase_mem (c : Cfg) (p : Word) : lookupBase c p ∈ c.bases := by
  unfold lookupBase Cfg.bases
  split
  next e h => exact List.mem_cons_of_mem _ (List.mem_map_of_mem (List.mem_of_find?_eq_some h))
  next => exact List.mem_cons_self

/-! ## The accessor -/

/-- The address checks pass where the sum fits and is aligned (R102). -/
theorem addressFault_none {off : Nat} {s : State} (hf : s.base + off < 2 ^ s.cfg.aw)
    (ha : (s.base + off) % 4 = 0) : addressFault off s = none := by
  simp [addressFault, Nat.not_le.mpr hf, ha]

/-- Overflow is checked first (R102, R222). -/
theorem addressFault_overflow {off : Nat} {s : State} (h : 2 ^ s.cfg.aw ≤ s.base + off) :
    addressFault off s = some (.addressOverflow, addressInfo off) := by
  simp [addressFault, h]

/-- Then alignment (R102, R222). -/
theorem addressFault_misaligned {off : Nat} {s : State} (hf : s.base + off < 2 ^ s.cfg.aw)
    (ha : (s.base + off) % 4 ≠ 0) :
    addressFault off s = some (.misalignedAccess, addressInfo (s.base + off)) := by
  simp [addressFault, Nat.not_le.mpr hf, ha]

/-- The address checks answer nothing but those three. -/
theorem addressFault_cases (off : Nat) (s : State) :
    (2 ^ s.cfg.aw ≤ s.base + off ∧ addressFault off s = some (.addressOverflow, addressInfo off)) ∨
    (s.base + off < 2 ^ s.cfg.aw ∧ (s.base + off) % 4 ≠ 0 ∧
      addressFault off s = some (.misalignedAccess, addressInfo (s.base + off))) ∨
    (s.base + off < 2 ^ s.cfg.aw ∧ (s.base + off) % 4 = 0 ∧ addressFault off s = none) := by
  by_cases hf : 2 ^ s.cfg.aw ≤ s.base + off
  · exact .inl ⟨hf, addressFault_overflow hf⟩
  · have hf := Nat.lt_of_not_le hf
    by_cases ha : (s.base + off) % 4 = 0
    · exact .inr (.inr ⟨hf, ha, addressFault_none hf ha⟩)
    · exact .inr (.inl ⟨hf, ha, addressFault_misaligned hf ha⟩)

/-- A fixed offset never fails the address checks from a base of a valid configuration (R53, R58). -/
theorem addressFault_fixed {c : Cfg} {off : Nat} {s : State} (hc : s.cfg = c) (hv : c.valid = true)
    (hb : s.base ∈ c.bases) (ho : off ∈ c.off.all) : addressFault off s = none := by
  subst hc
  have h1 := valid_base hv hb
  have h2 := valid_offset hv ho
  exact addressFault_none (valid_sum hv hb ho) (by omega)

/-- Everything `RegRead` can do (R102). -/
theorem regRead_cases (off : Nat) (s : State) :
    (s.base = 0 ∧ regRead off s = .done 0 s) ∨
    (s.base ≠ 0 ∧ ∃ f info, addressFault off s = some (f, info) ∧ regRead off s = .trap f info s) ∨
    (s.base ≠ 0 ∧ addressFault off s = none ∧ s.readErr = true ∧
      regRead off s = .trap .busError (addressInfo (s.base + off)) (memRead (s.base + off) s)) ∨
    (s.base ≠ 0 ∧ addressFault off s = none ∧ s.readErr = false ∧
      regRead off s = .done s.readAnswer.value (memRead (s.base + off) s)) := by
  unfold regRead
  by_cases hb : s.base = 0
  · simp [hb]
  · cases ha : addressFault off s with
    | some p => obtain ⟨f, info⟩ := p; simp [hb]
    | none => cases he : s.readErr <;> simp [hb]

/-- Everything `RegWrite` can do (R103). -/
theorem regWrite_cases (off : Nat) (v : Word) (s : State) :
    (s.base = 0 ∧ regWrite off v s = .done () s) ∨
    (s.base ≠ 0 ∧ ∃ f info, addressFault off s = some (f, info) ∧ regWrite off v s = .trap f info s) ∨
    (s.base ≠ 0 ∧ addressFault off s = none ∧ s.writeErr = true ∧
      regWrite off v s = .trap .busError (addressInfo (s.base + off)) (memWrite (s.base + off) v s)) ∨
    (s.base ≠ 0 ∧ addressFault off s = none ∧ s.writeErr = false ∧
      regWrite off v s = .done () (memWrite (s.base + off) v s)) := by
  unfold regWrite
  by_cases hb : s.base = 0
  · simp [hb]
  · cases ha : addressFault off s with
    | some p => obtain ⟨f, info⟩ := p; simp [hb]
    | none => cases he : s.writeErr <;> simp [hb]

/-- What one access through the guarded accessor leaves: the state it found, or that state after one bus event at
`BASE + off`, an address that fits and is aligned, while `BASE` is resolved. -/
inductive Touched (off : Nat) (s : State) : State → Prop where
  | none : Touched off s s
  | read : s.base ≠ 0 → s.base + off < 2 ^ s.cfg.aw → (s.base + off) % 4 = 0 → Touched off s (memRead (s.base + off) s)
  | write (v : Word) : s.base ≠ 0 → s.base + off < 2 ^ s.cfg.aw → (s.base + off) % 4 = 0 →
      Touched off s (memWrite (s.base + off) v s)

/-- How an access ends: what it leaves, and for a fault that it is one of codes 2 to 4, codes 2 and 3 only where the
address checks fail (R220, R222). -/
inductive Ends {α : Type} (off : Nat) (s : State) : Access α → Prop where
  | done (a : α) (s' : State) : Touched off s s' → Ends off s (.done a s')
  | address (f : FaultCode) (info : CmdWord) : s.base ≠ 0 → addressFault off s = some (f, info) →
      (f = .addressOverflow ∨ f = .misalignedAccess) → Ends off s (.trap f info s)
  | bus (info : CmdWord) (s' : State) : s.base ≠ 0 → Touched off s s' → s.cfg.busErrors = true →
      Ends off s (.trap .busError info s')

/-- An address fault is code 2 or 3. -/
theorem addressFault_code {off : Nat} {s : State} {f : FaultCode} {info : CmdWord}
    (h : addressFault off s = some (f, info)) : f = .addressOverflow ∨ f = .misalignedAccess := by
  rcases addressFault_cases off s with ⟨_, e⟩ | ⟨_, _, e⟩ | ⟨_, _, e⟩ <;> rw [e] at h <;> simp_all

/-- An address that passes the checks fits and is aligned. -/
theorem addressFault_passes {off : Nat} {s : State} (h : addressFault off s = none) :
    s.base + off < 2 ^ s.cfg.aw ∧ (s.base + off) % 4 = 0 := by
  rcases addressFault_cases off s with ⟨_, e⟩ | ⟨_, _, e⟩ | ⟨hf, ha, _⟩
  · simp [e] at h
  · simp [e] at h
  · exact ⟨hf, ha⟩

theorem regRead_ends (off : Nat) (s : State) : Ends off s (regRead off s) := by
  rcases regRead_cases off s with ⟨_, e⟩ | ⟨hb, f, info, hf, e⟩ | ⟨hb, hf, he, e⟩ | ⟨hb, hf, _, e⟩ <;> rw [e]
  · exact .done _ _ .none
  · exact .address f info hb hf (addressFault_code hf)
  · have hp := addressFault_passes hf
    refine .bus _ _ hb (.read hb hp.1 hp.2) ?_
    simp [State.readErr] at he; exact he.1
  · have hp := addressFault_passes hf
    exact .done _ _ (.read hb hp.1 hp.2)

theorem regWrite_ends (off : Nat) (v : Word) (s : State) : Ends off s (regWrite off v s) := by
  rcases regWrite_cases off v s with ⟨_, e⟩ | ⟨hb, f, info, hf, e⟩ | ⟨hb, hf, he, e⟩ | ⟨hb, hf, _, e⟩ <;> rw [e]
  · exact .done _ _ .none
  · exact .address f info hb hf (addressFault_code hf)
  · have hp := addressFault_passes hf
    refine .bus _ _ hb (.write v hb hp.1 hp.2) ?_
    simp [State.writeErr] at he; exact he.1
  · have hp := addressFault_passes hf
    exact .done _ _ (.write v hb hp.1 hp.2)

theorem pollFlag_ends (off : Nat) (mask : Word) (s : State) : Ends off s (pollFlag off mask s) := by
  unfold pollFlag
  cases h : regRead off s with
  | done v s' => have := h ▸ regRead_ends off s; cases this with | done _ _ t => exact .done _ _ t
  | trap f info s' =>
    have := h ▸ regRead_ends off s
    cases this with
    | address _ _ a b c => exact .address _ _ a b c
    | bus _ _ a b c => exact .bus _ _ a b c

/-- TxByte's line touches only its own register (R184). -/
theorem txLine_ends (b : Byte) (l : TxLine) (s : State) :
    ∃ off ∈ s.cfg.off.all, Ends off s (txLine b l s) := by
  cases l with
  | t1 =>
    refine ⟨s.cfg.off.uartFr, by simp [Config.Offsets.all], ?_⟩
    unfold txLine
    cases h : pollFlag s.cfg.off.uartFr s.cfg.mask.txff s with
    | done v s' => have := h ▸ pollFlag_ends _ s.cfg.mask.txff s; cases this with | done _ _ t => exact .done _ _ t
    | trap f info s' =>
      have := h ▸ pollFlag_ends _ s.cfg.mask.txff s
      cases this with
      | address _ _ a b c => exact .address _ _ a b c
      | bus _ _ a b c => exact .bus _ _ a b c
  | t2 =>
    refine ⟨s.cfg.off.uartDr, by simp [Config.Offsets.all], ?_⟩
    unfold txLine
    cases h : regWrite s.cfg.off.uartDr (zext32 b) s with
    | done v s' => have := h ▸ regWrite_ends _ (zext32 b) s; cases this with | done _ _ t => exact .done _ _ t
    | trap f info s' =>
      have := h ▸ regWrite_ends _ (zext32 b) s
      cases this with
      | address _ _ a b c => exact .address _ _ a b c
      | bus _ _ a b c => exact .bus _ _ a b c

/-- RxByte's line touches only its own register (R187). -/
theorem rxLine_ends (l : RxLine) (s : State) : ∃ off ∈ s.cfg.off.all, Ends off s (rxLine l s) := by
  cases l with
  | x1 =>
    refine ⟨s.cfg.off.uartFr, by simp [Config.Offsets.all], ?_⟩
    unfold rxLine
    cases h : pollFlag s.cfg.off.uartFr s.cfg.mask.rxfe s with
    | done v s' => have := h ▸ pollFlag_ends _ s.cfg.mask.rxfe s; cases this with | done _ _ t => exact .done _ _ t
    | trap f info s' =>
      have := h ▸ pollFlag_ends _ s.cfg.mask.rxfe s
      cases this with
      | address _ _ a b c => exact .address _ _ a b c
      | bus _ _ a b c => exact .bus _ _ a b c
  | x2 =>
    refine ⟨s.cfg.off.uartDr, by simp [Config.Offsets.all], ?_⟩
    unfold rxLine
    cases h : regRead s.cfg.off.uartDr s with
    | done v s' => have := h ▸ regRead_ends s.cfg.off.uartDr s; cases this with | done _ _ t => exact .done _ _ t
    | trap f info s' =>
      have := h ▸ regRead_ends s.cfg.off.uartDr s
      cases this with
      | address _ _ a b c => exact .address _ _ a b c
      | bus _ _ a b c => exact .bus _ _ a b c

/-- What a line that goes through the accessor leaves, fault entry included. -/
theorem orRaise_cases {α : Type} {off : Nat} {s : State} {r : Access α} (h : Ends off s r)
    (k : α → State → State) :
    (∃ a s', r = .done a s' ∧ Touched off s s' ∧ r.orRaise k = k a s') ∨
    (∃ f info s', r = .trap f info s' ∧ Touched off s s' ∧ s.base ≠ 0 ∧
      (f = .addressOverflow ∨ f = .misalignedAccess ∨ f = .busError) ∧ r.orRaise k = raise f info s') := by
  cases h with
  | done a s' t => exact .inl ⟨a, s', rfl, t, rfl⟩
  | address f info hb _ hf =>
    refine .inr ⟨f, info, s, rfl, .none, hb, ?_, rfl⟩
    rcases hf with h | h <;> simp [h]
  | bus info s' hb t _ => exact .inr ⟨.busError, info, s', rfl, t, hb, by simp, rfl⟩

/-! ## The frame of a command -/

/-- Everything a command's next step can do, if it answers a next state (R80, R81, R24). -/
theorem runCommand_next {i : Instr} {first : Seq} {line : Seq → State → Option State} {s s' : State}
    (h : runCommand i first line s = .next s') :
    s.halted = false ∧
      ((s.seq = .idle ∧ s.busy = false ∧ s' = accept i first s) ∨
       (s.seq = .complete ∧ s' = complete s) ∨
       (s.seq ≠ .idle ∧ s.seq ≠ .complete ∧ line s.seq s = some s')) := by
  unfold runCommand at h
  split at h
  · cases h
  · rename_i hh
    refine ⟨by simpa using hh, ?_⟩
    split at h
    · rename_i hs
      split at h
      · cases h
      · rename_i hb; cases h; exact .inl ⟨hs, by simpa using hb, rfl⟩
    · rename_i hs; cases h; exact .inr (.inl ⟨hs, rfl⟩)
    · rename_i h1 h2
      split at h
      · rename_i e; cases h; exact .inr (.inr ⟨h1, h2, e⟩)
      · cases h

/-- Acceptance, at an idle block (R80). -/
theorem runCommand_idle {i : Instr} {first : Seq} {line : Seq → State → Option State} {s : State}
    (hh : s.halted = false) (hb : s.busy = false) (hs : s.seq = .idle) :
    runCommand i first line s = .next (accept i first s) := by
  simp [runCommand, hh, hs, hb]

/-- Completion, after the last line (R81). -/
theorem runCommand_complete {i : Instr} {first : Seq} {line : Seq → State → Option State} {s : State}
    (hh : s.halted = false) (hs : s.seq = .complete) : runCommand i first line s = .next (complete s) := by
  simp [runCommand, hh, hs]

/-- A line, where `SEQ` names one. -/
theorem runCommand_line {i : Instr} {first : Seq} {line : Seq → State → Option State} {s s' : State}
    (hh : s.halted = false) (h1 : s.seq ≠ .idle) (h2 : s.seq ≠ .complete) (hl : line s.seq s = some s') :
    runCommand i first line s = .next s' := by
  unfold runCommand
  simp only [hh, Bool.false_eq_true, if_false]
  split <;> simp_all

/-- Everything a turn of the sequencer can be (R9, R80, R226, R228). -/
theorem turn_cases (s : State) :
    (s.halted = true ∧ turn s = .refuse .halted) ∨
    (s.halted = false ∧ s.cfg.valid = false ∧ turn s = .refuse .badConfig) ∨
    (s.halted = false ∧ s.cfg.valid = true ∧
      ((s.seq = .idle ∧ s.busy = true ∧ turn s = .stuck .strayLine) ∨
       (s.seq = .idle ∧ s.busy = false ∧ turn s = portTurn s) ∨
       (∃ l, s.seq = .emit l ∧ turn s = .settled (emitLine l s)) ∨
       (s.seq = .halt ∧ turn s = .settled (haltBlock s)) ∨
       (s.seq ≠ .idle ∧ (∀ l, s.seq ≠ .emit l) ∧ s.seq ≠ .halt ∧
         ((∃ i, s.cur = some i ∧ turn s = .run i s) ∨ (s.cur = none ∧ turn s = .stuck .noCommand))))) := by
  cases hh : s.halted
  · cases hv : s.cfg.valid
    · simp [turn, hh, hv]
    · refine .inr (.inr ⟨rfl, rfl, ?_⟩)
      cases hs : s.seq <;> simp only [turn, hh, hv, hs]
      case idle => cases hb : s.busy <;> simp
      case emit l => simp
      case halt => simp
      all_goals cases hc : s.cur <;> simp
  · simp [turn, hh]

end Sys2Proof.Machine
end

