-- ==== Sys2Proof/Laws/Step.lean ====
section
/-! SUPPORT. What one step can do, said once: every claim over all steps starts from `step_cases`. -/

namespace Sys2Proof.Machine

/-- The lines of a command, whichever it is. -/
def commandLine (i : Instr) : Seq → State → Option State :=
  match i with
  | .resolve platform => resolveLine platform
  | .regr off => regrLine off
  | .regw off value => regwLine off value
  | .delay count => delayCommandLine count
  | .mbox => mboxCommandLine
  | .init platform => initCommandLine platform
  | .putb byte => putbLine byte
  | .getb => getbLine
  | .puts n text => putsLine n text
  | .gets => getsCommandLine
  | .panic => panicLine

/-- Every meaning is its lines in the one frame of a command. -/
theorem exec_eq (i : Instr) (s : State) : exec i s = runCommand i (firstLine i) (commandLine i) s := by
  cases i <;> rfl

/-- A meaning at an idle block accepts its command (R80). -/
theorem exec_accepts {i : Instr} {s : State} (hh : s.halted = false) (hb : s.busy = false) (hs : s.seq = .idle) :
    exec i s = .next (accept i (firstLine i) s) := by
  rw [exec_eq]; exact runCommand_idle hh hb hs

/-- Everything a step that answers a next state does. -/
inductive StepKind (s : State) : State → Prop where
  /-- The command at the port is not there yet: the block waits (R80). -/
  | waits : s.seq = .idle → s.busy = false → decode s.port = .incomplete → StepKind s s
  /-- An illegal command takes the fault entry (R74, R75). -/
  | illegal (info : CmdWord) (rest : List CmdWord) : s.seq = .idle → s.busy = false →
      decode s.port = .illegal info rest → StepKind s (raise .illegalCommand info { s with port := rest })
  /-- A legal command is accepted (R80). -/
  | accepts (i : Instr) (rest : List CmdWord) : s.seq = .idle → s.busy = false → decode s.port = .command i rest →
      StepKind s (accept i (firstLine i) { s with port := rest })
  /-- A line of the running command (R24). -/
  | line (i : Instr) (s' : State) : s.cur = some i → s.seq ≠ .idle → s.seq ≠ .complete → onFaultPath s.seq = false →
      commandLine i s.seq s = some s' → StepKind s s'
  /-- Completion (R81). -/
  | completes (i : Instr) : s.cur = some i → s.seq = .complete → StepKind s (complete s)
  /-- A line of the emission (R226). -/
  | emits (l : TxLine) : s.seq = .emit l → StepKind s (emitLine l s)
  /-- Halt (R228). -/
  | halts : s.seq = .halt → StepKind s (haltBlock s)

/-- What one step can do, if it answers a next state. -/
theorem step_cases {s s' : State} (h : step s = .next s') :
    s.halted = false ∧ s.cfg.valid = true ∧ StepKind s s' := by
  unfold step at h
  rcases turn_cases s with ⟨_, e⟩ | ⟨_, _, e⟩ | ⟨hh, hv, e⟩
  · rw [e] at h; cases h
  · rw [e] at h; cases h
  · refine ⟨hh, hv, ?_⟩
    rcases e with ⟨_, _, e⟩ | ⟨hs, hb, e⟩ | ⟨l, hs, e⟩ | ⟨hs, e⟩ | ⟨h1, h2, h3, ⟨i, hc, e⟩ | ⟨_, e⟩⟩
    · rw [e] at h; cases h
    · rw [e] at h
      unfold portTurn at h
      cases hd : decode s.port with
      | incomplete => rw [hd] at h; cases h; exact .waits hs hb hd
      | illegal info rest => rw [hd] at h; cases h; exact .illegal info rest hs hb hd
      | command i rest =>
        rw [hd] at h
        have := exec_accepts (i := i) (s := { s with port := rest }) hh hb hs
        simp only [this] at h
        cases h
        exact .accepts i rest hs hb hd
    · rw [e] at h; cases h; exact .emits l hs
    · rw [e] at h; cases h; exact .halts hs
    · rw [e] at h
      simp only [exec_eq] at h
      rcases (runCommand_next h).2 with ⟨hs, _⟩ | ⟨hs, rfl⟩ | ⟨hs1, hs2, hl⟩
      · exact absurd hs h1
      · exact .completes i hc hs
      · refine .line i s' hc hs1 hs2 ?_ hl
        cases hq : s.seq <;> simp_all [onFaultPath]
    · rw [e] at h; cases h

/-- A command at the port of an accepting block is accepted in one step (R80). -/
theorem step_accepts {s : State} (ha : Accepting s) {i : Instr} {rest : List CmdWord}
    (hd : decode s.port = .command i rest) :
    step s = .next (accept i (firstLine i) { s with port := rest }) := by
  have ht : turn s = portTurn s := by simp [turn, ha.halted, ha.cfg, ha.seq, ha.busy]
  have hp : portTurn s = .run i { s with port := rest } := by simp [portTurn, hd]
  rw [step, ht, hp]
  exact exec_accepts (s := { s with port := rest }) ha.halted ha.busy ha.seq

/-- A running block takes a step of the command in `CUR` (R24, R26). -/
theorem step_runs {s : State} {l : Seq} {i : Instr} (hr : RunningAt s l) (hc : s.cur = some i)
    (h1 : l ≠ .idle) (h2 : onFaultPath l = false) : step s = exec i s := by
  have hs := hr.seq
  cases l <;> simp_all [step, turn, hr.halted, hr.cfg, onFaultPath]

/-- A line of a running block. -/
theorem step_line {s s' : State} {l : Seq} {i : Instr} (hr : RunningAt s l) (hc : s.cur = some i)
    (h1 : l ≠ .idle) (h2 : onFaultPath l = false) (h3 : l ≠ .complete) (hl : commandLine i l s = some s') :
    step s = .next s' := by
  have hs := hr.seq
  rw [step_runs hr hc h1 h2, exec_eq]
  exact runCommand_line hr.halted (by simp [hs, h1]) (by simp [hs, h3]) (by rw [hs]; exact hl)

/-! ## Runs -/

theorem runSteps_zero (s : State) : runSteps 0 s = .next s := rfl

/-- One step, then the rest of a run. -/
theorem runSteps_step {s s' : State} (n : Nat) (h : step s = .next s') : runSteps (n + 1) s = runSteps n s' := by
  simp [runSteps, h]

/-- Runs compose. -/
theorem runSteps_add {m : Nat} {s s' : State} (n : Nat) (h : runSteps m s = .next s') :
    runSteps (m + n) s = runSteps n s' := by
  induction m generalizing s with
  | zero => cases h; rw [Nat.zero_add]
  | succ m ih =>
    rw [Nat.succ_add]
    rw [runSteps] at h ⊢
    split at h <;> simp_all

end Sys2Proof.Machine
end

