-- ==== Sys2Proof/Laws/Access.lean ====
section
/-! SUPPORT. The accessor and the byte primitives in their three cases, said once: an access that the device answers
without an error, one that it answers with an error, and an access while `BASE` is 0. -/

namespace Sys2Proof.Machine

open Sys2Proof.Config (Cfg BusEvent)

/-- A fixed register of a resolved block is reachable (R53, R58). -/
theorem reaches_fixed {s : State} {off : Nat} (hv : s.cfg.valid = true) (hr : Resolved s) (ho : off ∈ s.cfg.off.all) :
    Reaches off s := by
  have h1 := valid_base hv hr
  have h2 := valid_offset hv ho
  exact ⟨h1.1, valid_sum hv hr ho, by omega⟩

theorem readErr_of_noBusErrors {s : State} (h : s.cfg.busErrors = false) : s.readErr = false := by
  simp [State.readErr, h]

theorem writeErr_of_noBusErrors {s : State} (h : s.cfg.busErrors = false) : s.writeErr = false := by
  simp [State.writeErr, h]

theorem memRead_noErr {s : State} (ea : Nat) (h : s.readErr = false) :
    memRead ea s = afterRead ea s.readAnswer.value s := by simp [memRead, afterRead, h]

theorem memWrite_noErr {s : State} (ea : Nat) (v : Word) (h : s.writeErr = false) :
    memWrite ea v s = afterWrite ea v s := by simp [memWrite, afterWrite, h]

/-- R102, an access the device answers. -/
theorem regRead_reaches {s : State} {off : Nat} (h : Reaches off s) (he : s.readErr = false) :
    regRead off s = .done s.readAnswer.value (afterRead (s.base + off) s.readAnswer.value s) := by
  simp [regRead, h.resolved, addressFault_none h.fits h.aligned, he, memRead_noErr]

/-- R103, an access the device performs. -/
theorem regWrite_reaches {s : State} {off : Nat} (v : Word) (h : Reaches off s) (he : s.writeErr = false) :
    regWrite off v s = .done () (afterWrite (s.base + off) v s) := by
  simp [regWrite, h.resolved, addressFault_none h.fits h.aligned, he, memWrite_noErr]

/-- A good answer carries no error, also while `BUS_ERRORS` is true (R236). -/
theorem readErr_of_good {s : State} (h : s.cfg.busErrors = false ∨ s.readAnswer.err = false) : s.readErr = false := by
  rcases h with h | h <;> simp [State.readErr, h]

theorem writeErr_of_good {s : State} (h : s.cfg.busErrors = false ∨ s.writeAnswer = false) : s.writeErr = false := by
  rcases h with h | h <;> simp [State.writeErr, h]

/-- R102, an access the device answers with an error. -/
theorem regRead_error {s : State} {off : Nat} (h : Reaches off s) (he : s.readErr = true) :
    regRead off s = .trap .busError (addressInfo (s.base + off)) (afterReadError (s.base + off) s) := by
  simp [regRead, h.resolved, addressFault_none h.fits h.aligned, he, memRead, afterReadError]

/-- R103, an access the device answers with an error. -/
theorem regWrite_error {s : State} {off : Nat} (v : Word) (h : Reaches off s) (he : s.writeErr = true) :
    regWrite off v s = .trap .busError (addressInfo (s.base + off)) (afterWriteError (s.base + off) v s) := by
  simp [regWrite, h.resolved, addressFault_none h.fits h.aligned, he, memWrite, afterWriteError]

/-- Raising BUS_ERROR for an address is what `TakesBusError` says (R220, R224). -/
theorem takesBusError_raise (addr : Nat) (s : State) :
    TakesBusError addr s (.next (raise .busError (addressInfo addr) s)) :=
  ⟨addressInfo addr, fun h => by rw [addressInfo, if_pos h], rfl⟩

/-- A line that is one `RegRead` at a reachable register and goes on at a position the value selects. -/
theorem lineReads_regRead {s : State} {off : Nat} (goesTo : Word → Seq) (h : Reaches off s) :
    LineReads (s.base + off) goesTo s (.next ((regRead off s).orRaise fun v s => s.goto (goesTo v))) where
  good hg := by rw [regRead_reaches h (readErr_of_good hg)]; rfl
  error hb he := by
    rw [regRead_error h (by simp [State.readErr, hb, he])]
    exact takesBusError_raise _ _

/-- A writing line of a command, at a reachable register. -/
theorem lineWrites_writeLine {s : State} {off : Nat} (v : Word) (next : Seq) (h : Reaches off s) :
    LineWrites (s.base + off) v next s (.next (writeLine off v next s)) where
  good hg := by rw [writeLine, regWrite_reaches v h (writeErr_of_good hg)]; rfl
  error hb he := by
    rw [writeLine, regWrite_error v h (by simp [State.writeErr, hb, he])]
    exact takesBusError_raise _ _

/-- R102, the zero-base guard. -/
theorem regRead_unresolved {s : State} (off : Nat) (h : s.base = 0) : regRead off s = .done 0 s := by
  simp [regRead, h]

/-- R103, the zero-base guard. -/
theorem regWrite_unresolved {s : State} (off : Nat) (v : Word) (h : s.base = 0) : regWrite off v s = .done () s := by
  simp [regWrite, h]

theorem pollFlag_reaches {s : State} {off : Nat} (mask : Word) (h : Reaches off s) (he : s.readErr = false) :
    pollFlag off mask s =
      .done (flagSet s.readAnswer.value mask) (afterRead (s.base + off) s.readAnswer.value s) := by
  simp [pollFlag, regRead_reaches h he]

/-- R104 (b): a status poll while `BASE` is 0 shows every flag clear. -/
theorem pollFlag_unresolved {s : State} (off : Nat) (mask : Word) (h : s.base = 0) :
    pollFlag off mask s = .done false s := by
  simp [pollFlag, regRead_unresolved off h, flagSet]

/-- A writing line of a command, at a reachable register. -/
theorem writeLine_reaches {s : State} {off : Nat} (v : Word) (next : Seq) (h : Reaches off s)
    (he : s.writeErr = false) : writeLine off v next s = (afterWrite (s.base + off) v s).goto next := by
  simp [writeLine, regWrite_reaches v h he, Access.orRaise, Access.finish]

theorem writeLine_unresolved {s : State} (off : Nat) (v : Word) (next : Seq) (h : s.base = 0) :
    writeLine off v next s = s.goto next := by
  simp [writeLine, regWrite_unresolved off v h, Access.orRaise, Access.finish]

/-- Each device register of R36 is one of the fixed offsets. -/
theorem fixed_offsets (c : Cfg) :
    c.off.gppud ∈ c.off.all ∧ c.off.gppudclk0 ∈ c.off.all ∧ c.off.uartDr ∈ c.off.all ∧ c.off.uartFr ∈ c.off.all ∧
      c.off.uartIbrd ∈ c.off.all ∧ c.off.uartFbrd ∈ c.off.all ∧ c.off.uartLcrh ∈ c.off.all ∧
      c.off.uartCr ∈ c.off.all ∧ c.off.uartImsc ∈ c.off.all ∧ c.off.uartIcr ∈ c.off.all ∧
      c.off.mboxRead ∈ c.off.all ∧ c.off.mboxStatus ∈ c.off.all ∧ c.off.mboxWrite ∈ c.off.all := by
  simp [Config.Offsets.all]

/-- The fixed register that stands in a list of writes of INIT is reachable. -/
theorem reaches_uartFr {s : State} (hv : s.cfg.valid = true) (hr : Resolved s) : Reaches s.cfg.off.uartFr s :=
  reaches_fixed hv hr (fixed_offsets s.cfg).2.2.2.1

theorem reaches_uartDr {s : State} (hv : s.cfg.valid = true) (hr : Resolved s) : Reaches s.cfg.off.uartDr s :=
  reaches_fixed hv hr (fixed_offsets s.cfg).2.2.1

/-- R184, T1. -/
theorem txLine_t1 {s : State} (b : Byte) (hv : s.cfg.valid = true) (hr : Resolved s) (he : s.readErr = false) :
    txLine b .t1 s =
      .done (some (if flagSet s.readAnswer.value s.cfg.mask.txff then .t1 else .t2))
        (afterRead (s.base + s.cfg.off.uartFr) s.readAnswer.value s) := by
  simp [txLine, pollFlag_reaches _ (reaches_uartFr hv hr) he]

/-- R184, T2. -/
theorem txLine_t2 {s : State} (b : Byte) (hv : s.cfg.valid = true) (hr : Resolved s) (he : s.writeErr = false) :
    txLine b .t2 s = .done none (afterWrite (s.base + s.cfg.off.uartDr) (b.setWidth 32) s) := by
  simp [txLine, regWrite_reaches _ (reaches_uartDr hv hr) he, zext32]

/-- R187, X1. -/
theorem rxLine_x1 {s : State} (hv : s.cfg.valid = true) (hr : Resolved s) (he : s.readErr = false) :
    rxLine .x1 s =
      .done (.inl (if flagSet s.readAnswer.value s.cfg.mask.rxfe then .x1 else .x2))
        (afterRead (s.base + s.cfg.off.uartFr) s.readAnswer.value s) := by
  simp [rxLine, pollFlag_reaches _ (reaches_uartFr hv hr) he]

/-- R187, X2 and X3. -/
theorem rxLine_x2 {s : State} (hv : s.cfg.valid = true) (hr : Resolved s) (he : s.readErr = false) :
    rxLine .x2 s =
      .done (.inr (s.readAnswer.value.extractLsb' 0 8))
        (afterRead (s.base + s.cfg.off.uartDr) s.readAnswer.value s) := by
  simp [rxLine, regRead_reaches (reaches_uartDr hv hr) he, lowByte]

/-- A poll that the device answers with an error. -/
theorem pollFlag_error {s : State} {off : Nat} (mask : Word) (h : Reaches off s) (he : s.readErr = true) :
    pollFlag off mask s = .trap .busError (addressInfo (s.base + off)) (afterReadError (s.base + off) s) := by
  simp [pollFlag, regRead_error h he]

/-- A flag test in the two spellings (R13). -/
theorem ite_flagSet {α : Type} (v mask : Word) (a b : α) :
    (if flagSet v mask = true then a else b) = if v &&& mask ≠ 0 then a else b := by
  simp [flagSet]

/-- A line that polls a flag at a reachable register and goes on by it, in the words of `LineReads`. -/
theorem lineReads_pollFlag {s : State} {off : Nat} (mask : Word) (set clear : Seq) (h : Reaches off s) :
    LineReads (s.base + off) (fun v => if v &&& mask ≠ 0 then set else clear) s
      (.next ((pollFlag off mask s).orRaise fun b s => s.goto (if b then set else clear))) where
  good hg := by
    rw [pollFlag_reaches mask h (readErr_of_good hg), ← ite_flagSet]; rfl
  error hb he := by
    rw [pollFlag_error mask h (by simp [State.readErr, hb, he])]
    exact takesBusError_raise _ _

/-- T1 in a command (R184). -/
theorem lineReads_txLine {s : State} {k : Option TxLine → State → State} {set clear : Seq} (b : Byte)
    (hv : s.cfg.valid = true) (hr : Resolved s) (h1 : ∀ s, k (some .t1) s = s.goto set)
    (h2 : ∀ s, k (some .t2) s = s.goto clear) :
    LineReads (s.base + s.cfg.off.uartFr) (fun v => if v &&& s.cfg.mask.txff ≠ 0 then set else clear) s
      (.next ((txLine b .t1 s).orRaise k)) where
  good hg := by
    rw [txLine_t1 b hv hr (readErr_of_good hg), ← ite_flagSet]
    simp only [Access.orRaise, Access.finish]
    split <;> simp [h1, h2, State.goto]
  error hb he := by
    rw [txLine, pollFlag_error _ (reaches_uartFr hv hr) (by simp [State.readErr, hb, he])]
    exact takesBusError_raise _ _

/-- T2 in a command (R184). -/
theorem lineWrites_txLine {s : State} {k : Option TxLine → State → State} {next : Seq} (b : Byte)
    (hv : s.cfg.valid = true) (hr : Resolved s) (h : ∀ s, k none s = s.goto next) :
    LineWrites (s.base + s.cfg.off.uartDr) (b.setWidth 32) next s (.next ((txLine b .t2 s).orRaise k)) where
  good hg := by
    rw [txLine_t2 b hv hr (writeErr_of_good hg)]
    simp [Access.orRaise, Access.finish, h, State.goto]
  error hb he := by
    rw [txLine, regWrite_error _ (reaches_uartDr hv hr) (by simp [State.writeErr, hb, he])]
    exact takesBusError_raise _ _

/-- X1 in a command (R187). -/
theorem lineReads_rxLine_x1 {s : State} {k : RxLine ⊕ Byte → State → State} {set clear : Seq}
    (hv : s.cfg.valid = true) (hr : Resolved s) (h1 : ∀ s, k (.inl .x1) s = s.goto set)
    (h2 : ∀ s, k (.inl .x2) s = s.goto clear) :
    LineReads (s.base + s.cfg.off.uartFr) (fun v => if v &&& s.cfg.mask.rxfe ≠ 0 then set else clear) s
      (.next ((rxLine .x1 s).orRaise k)) where
  good hg := by
    rw [rxLine_x1 hv hr (readErr_of_good hg), ← ite_flagSet]
    simp only [Access.orRaise, Access.finish]
    split <;> simp [h1, h2, State.goto]
  error hb he := by
    rw [rxLine, pollFlag_error _ (reaches_uartFr hv hr) (by simp [State.readErr, hb, he])]
    exact takesBusError_raise _ _

/-- X2 in a command (R187). -/
theorem lineReads_rxLine_x2 {s : State} {k : RxLine ⊕ Byte → State → State} (goesTo : Byte → Seq)
    (hv : s.cfg.valid = true) (hr : Resolved s) (h : ∀ b s, k (.inr b) s = s.goto (goesTo b)) :
    LineReads (s.base + s.cfg.off.uartDr) (fun v => goesTo (v.extractLsb' 0 8)) s
      (.next ((rxLine .x2 s).orRaise k)) where
  good hg := by
    rw [rxLine_x2 hv hr (readErr_of_good hg)]
    simp [Access.orRaise, Access.finish, h, State.goto]
  error hb he := by
    rw [rxLine, regRead_error (reaches_uartDr hv hr) (by simp [State.readErr, hb, he])]
    exact takesBusError_raise _ _

/-- TxByte while `BASE` is 0 passes both lines without a bus event (R182). -/
theorem txLine_unresolved {s : State} (b : Byte) (l : TxLine) (h : s.base = 0) :
    txLine b l s = .done (match l with | .t1 => some .t2 | .t2 => none) s := by
  cases l <;> simp [txLine, pollFlag_unresolved _ _ h, regWrite_unresolved _ _ h]

/-- RxByte while `BASE` is 0 returns the byte 0 without a bus event (R182). -/
theorem rxLine_unresolved {s : State} (l : RxLine) (h : s.base = 0) :
    rxLine l s = .done (match l with | .x1 => .inl .x2 | .x2 => .inr 0) s := by
  cases l
  · simp [rxLine, pollFlag_unresolved _ _ h]
  · simp [rxLine, regRead_unresolved _ h, lowByte]

/-! ## Scripted answers -/

/-- The next read of a script. -/
theorem readAnswer_answers {s : State} {v : Word} {vs : List Word} {more : List Config.ReadAnswer}
    (h : s.devReads = answers (v :: vs) ++ more) : s.readAnswer = ⟨v, false⟩ := by
  simp [State.readAnswer, h, answers]

/-- A read takes one answer off the script. -/
theorem devReads_tail {s : State} {v : Word} {vs : List Word} {more : List Config.ReadAnswer}
    (h : s.devReads = answers (v :: vs) ++ more) : s.devReads.tail = answers vs ++ more := by
  simp [h, answers]

/-- A scripted answer of `answers` carries no error. -/
theorem readErr_answers {s : State} {v : Word} {vs : List Word} {more : List Config.ReadAnswer}
    (h : s.devReads = answers (v :: vs) ++ more) : s.readErr = false := by
  simp [State.readErr, readAnswer_answers h]

/-- The device side performs the first of the next writes. -/
theorem writeErr_writesSucceed {n : Nat} {s : State} (h : WritesSucceed (n + 1) s) : s.writeErr = false := by
  rcases h with h | ⟨hl, h⟩
  · exact writeErr_of_good (.inl h)
  · refine writeErr_of_good (.inr ?_)
    match hw : s.devWrites with
    | [] => simp [hw] at hl
    | e :: es => simpa [State.writeAnswer, hw] using h e (by simp [hw])

end Sys2Proof.Machine
end

