-- ==== Sys2Proof/Laws/Encoding.lean ====
section
/-! SUPPORT. The fields of a command word and the packing of a payload, each said once. -/

namespace Sys2Proof

/-! ## Fields -/

@[simp] theorem commandFields_opc (o : BitVec 4) (a : Offset) (b : Word) :
    (commandFields o a b).extractLsb' 60 4 = o := by
  unfold commandFields
  ext i hi
  simp only [BitVec.getElem_extractLsb', BitVec.getLsbD_append]
  simp [show ¬ (60 + i < 32) by omega, show ¬ (60 + i - 32 < 28) by omega, show 60 + i - 32 - 28 = i by omega,
    BitVec.getLsbD_eq_getElem hi]

@[simp] theorem fieldA_commandFields (o : BitVec 4) (a : Offset) (b : Word) : fieldA (commandFields o a b) = a := by
  unfold commandFields fieldA
  ext i hi
  simp only [BitVec.getElem_extractLsb', BitVec.getLsbD_append]
  simp [show ¬ (32 + i < 32) by omega, hi]

@[simp] theorem fieldB_commandFields (o : BitVec 4) (a : Offset) (b : Word) : fieldB (commandFields o a b) = b := by
  unfold commandFields fieldB
  ext i hi
  simp only [BitVec.getElem_extractLsb', BitVec.getLsbD_append]
  simp [hi]

/-- A command word is its three fields (R71). -/
theorem commandFields_eta (w : CmdWord) : commandFields (w.extractLsb' 60 4) (fieldA w) (fieldB w) = w := by
  refine BitVec.eq_of_getLsbD_eq fun i hi => ?_
  unfold commandFields fieldA fieldB
  rw [BitVec.getLsbD_append, BitVec.getLsbD_append]
  by_cases h1 : i < 32
  · simp [h1]
  · by_cases h2 : i - 32 < 28
    · simp [h1, h2, show 32 + (i - 32) = i by omega]
    · simp [h1, h2, show 60 + (i - 32 - 28) = i by omega, show i - 32 - 28 < 4 by omega]

theorem commandFields_inj {o o' : BitVec 4} {a a' : Offset} {b b' : Word}
    (h : commandFields o a b = commandFields o' a' b') : o = o' ∧ a = a' ∧ b = b' := by
  refine ⟨?_, ?_, ?_⟩
  · simpa using congrArg (fun w : CmdWord => w.extractLsb' 60 4) h
  · simpa using congrArg fieldA h
  · simpa using congrArg fieldB h

theorem commandFields_and (o o' : BitVec 4) (a a' : Offset) (b b' : Word) :
    commandFields o a b &&& commandFields o' a' b' = commandFields (o &&& o') (a &&& a') (b &&& b') := by
  unfold commandFields
  exact BitVec.and_append.trans (by rw [BitVec.and_append])

/-! ## Rows -/

/-- The opcode number of R72. -/
def Opcode.number : Opcode → BitVec 4
  | .resolve => 1 | .regr => 2 | .regw => 3 | .delay => 4 | .mbox => 5 | .init => 6
  | .putb => 7 | .getb => 8 | .puts => 9 | .gets => 10 | .panic => 11

/-- The must-be-zero bits of field A. -/
def Opcode.zeroA : Opcode → Offset
  | .regr => 0 | .regw => 0 | .puts => 0
  | _ => BitVec.allOnes 28

/-- The must-be-zero bits of field B. -/
def Opcode.zeroB : Opcode → Word
  | .resolve => 0 | .regw => 0 | .delay => 0 | .init => 0
  | .putb => 0xFFFFFF00
  | _ => BitVec.allOnes 32

/-- The bits of field A that the printed mask of a row covers (R73). -/
def Opcode.maskA : Opcode → Offset
  | .resolve => 0xFFFFFF0 | .delay => 0xFFFFFF0 | .init => 0xFFFFFF0
  | o => o.zeroA

theorem mask_eq (o : Opcode) : o.mask = commandFields 0xF o.maskA o.zeroB := by
  cases o <;> decide

/-- A printed mask covers no bit outside the must-be-zero fields. -/
theorem maskA_and_zeroA (o : Opcode) : o.zeroA &&& o.maskA = o.maskA := by
  cases o <;> decide

theorem pattern_eq (o : Opcode) : o.pattern = commandFields o.number 0 0 := by
  cases o <;> decide

/-- R73: a word selects a row exactly where its opcode is the row's and the bits the mask covers are zero. -/
theorem selects_iff (o : Opcode) (k : BitVec 4) (a : Offset) (b : Word) :
    o.selects (commandFields k a b) = true ↔ k = o.number ∧ a &&& o.maskA = 0 ∧ b &&& o.zeroB = 0 := by
  have hk : k &&& 0xF = k := BitVec.and_allOnes
  unfold Opcode.selects
  rw [beq_iff_eq, mask_eq, pattern_eq, commandFields_and, hk]
  exact ⟨commandFields_inj, by rintro ⟨rfl, h1, h2⟩; rw [h1, h2]⟩

/-- No two opcodes have one number (R72). -/
theorem number_inj {o o' : Opcode} (h : o.number = o'.number) : o = o' := by
  cases o <;> cases o' <;> first | rfl | (exact absurd h (by decide))

theorem mem_opcodes (o : Opcode) : o ∈ opcodes := by cases o <;> simp [opcodes]

/-- `selectOpcode` finds the row a word selects. -/
theorem selectOpcode_eq_some {w : CmdWord} {o : Opcode} : selectOpcode w = some o ↔ o.selects w = true := by
  have huniq : ∀ o o' : Opcode, o.selects w = true → o'.selects w = true → o = o' := by
    intro o o' h h'
    rw [← commandFields_eta w, selects_iff] at h h'
    exact number_inj (h.1.symm.trans h'.1)
  constructor
  · intro h; simpa using List.find?_some h
  · intro h
    cases hs : selectOpcode w with
    | none => exact absurd h (by simpa using List.find?_eq_none.mp hs o (mem_opcodes o))
    | some o' =>
      have h' : o'.selects w = true := by simpa using List.find?_some hs
      rw [huniq o o' h h']

/-- Bits 31:8 of a word are zero exactly where the word has no bit of 0xFFFFFF00. -/
theorem upper_zero_iff (b : Word) : b.extractLsb' 8 24 = 0 ↔ b &&& 0xFFFFFF00 = 0 := by
  have h : ∀ i, i < 32 → (0xFFFFFF00 : Word).getLsbD i = decide (8 ≤ i) := by decide
  constructor
  · intro hz
    refine BitVec.eq_of_getLsbD_eq fun i hi => ?_
    rw [BitVec.getLsbD_and, h i hi]
    by_cases h8 : 8 ≤ i
    · have := congrArg (fun v : BitVec 24 => v.getLsbD (i - 8)) hz
      simp only [BitVec.getLsbD_extractLsb', show i - 8 < 24 by omega, show 8 + (i - 8) = i by omega] at this
      simpa [h8] using this
    · simp [h8]
  · intro hz
    refine BitVec.eq_of_getLsbD_eq fun i hi => ?_
    have := congrArg (fun v : Word => v.getLsbD (8 + i)) hz
    simp only [BitVec.getLsbD_and, h (8 + i) (by omega)] at this
    simpa [hi] using this

/-- R72: the must-be-zero fields of an opcode as bits. -/
theorem zeroFields_iff (o : Opcode) (k : BitVec 4) (a : Offset) (b : Word) :
    o.zeroFields (commandFields k a b) = true ↔ a &&& o.zeroA = 0 ∧ b &&& o.zeroB = 0 := by
  have ha : a &&& 268435455#28 = a := BitVec.and_allOnes
  have hb : b &&& 4294967295#32 = b := BitVec.and_allOnes
  have hu : b.extractLsb' 8 24 = 0#24 ↔ b &&& 4294967040#32 = 0#32 := upper_zero_iff b
  cases o <;> simp [Opcode.zeroFields, Opcode.zeroA, Opcode.zeroB, ha, hb, hu]

/-- R71 to R75: a word is a legal command word of an opcode exactly where its opcode is the row's and its must-be-zero
fields are zero. -/
theorem legalOpcode_eq_some {o : Opcode} {k : BitVec 4} {a : Offset} {b : Word} :
    legalOpcode (commandFields k a b) = some o ↔ k = o.number ∧ a &&& o.zeroA = 0 ∧ b &&& o.zeroB = 0 := by
  constructor
  · intro h
    unfold legalOpcode at h
    split at h
    · cases h
    · next o' ho =>
      split at h
      · next hz =>
        cases h
        exact ⟨((selects_iff _ _ _ _).mp (selectOpcode_eq_some.mp ho)).1, (zeroFields_iff _ _ _ _).mp hz⟩
      · cases h
  · rintro ⟨hk, ha, hb⟩
    have hm : a &&& o.maskA = 0 := by rw [← maskA_and_zeroA, ← BitVec.and_assoc, ha]; exact BitVec.zero_and
    have hs := selectOpcode_eq_some.mpr ((selects_iff o k a b).mpr ⟨hk, hm, hb⟩)
    simp only [legalOpcode, hs, (zeroFields_iff o k a b).mpr ⟨ha, hb⟩, if_true]

/-- A word that is no row's legal word is illegal (R74, R75). -/
theorem legalOpcode_eq_none {k : BitVec 4} {a : Offset} {b : Word}
    (h : ∀ o : Opcode, ¬ (k = o.number ∧ a &&& o.zeroA = 0 ∧ b &&& o.zeroB = 0)) :
    legalOpcode (commandFields k a b) = none := by
  cases hl : legalOpcode (commandFields k a b) with
  | none => rfl
  | some o => exact absurd (legalOpcode_eq_some.mp hl) (h o)

/-! ## Payloads -/

/-- Byte `k` of a word (R78). -/
def byteAt (w : CmdWord) (k : Nat) : Byte := w.extractLsb' (8 * k) 8

theorem wordBytes_eq (w : CmdWord) : wordBytes w = (List.range 8).map (byteAt w) := rfl

theorem wordBytes_length (w : CmdWord) : (wordBytes w).length = 8 := by simp [wordBytes]

/-- R78: byte `k` of packed bytes is byte `k`, and zero behind the last (R79). -/
theorem byteAt_packWord (bs : List Byte) (k : Nat) (hk : k < 8) : byteAt (packWord bs) k = bs.getD k 0 := by
  induction bs generalizing k with
  | nil => simp [packWord, byteAt]
  | cons b bs ih =>
    unfold packWord byteAt
    cases k with
    | zero =>
      ext i hi
      simp [show i < 64 by omega, hi]
    | succ k =>
      have := ih k (by omega)
      unfold byteAt at this
      rw [List.getD_cons_succ, ← this]
      ext i hi
      simp only [BitVec.getElem_extractLsb', BitVec.getLsbD_or, BitVec.getLsbD_setWidth, BitVec.getLsbD_shiftLeft]
      rw [BitVec.getLsbD_of_ge b _ (by omega)]
      simp [show 8 * (k + 1) + i < 64 by omega, show ¬ (8 * (k + 1) + i < 8) by omega,
        show 8 * (k + 1) + i - 8 = 8 * k + i by omega]

/-- The bytes of at most eight packed bytes (R78, R79). -/
theorem wordBytes_packWord (bs : List Byte) (h : bs.length ≤ 8) :
    wordBytes (packWord bs) = bs ++ List.replicate (8 - bs.length) 0 := by
  refine List.ext_getElem (by simp [wordBytes]; omega) fun k h1 h2 => ?_
  have hk : k < 8 := by simpa [wordBytes] using h1
  have := byteAt_packWord bs k hk
  simp only [wordBytes_eq, List.getElem_map, List.getElem_range, this]
  rw [List.getElem_append]
  split
  · simp [*]
  · simp [*]

/-- A word is determined by its bytes. -/
theorem byteAt_ext {w w' : CmdWord} (h : ∀ k, k < 8 → byteAt w k = byteAt w' k) : w = w' := by
  refine BitVec.eq_of_getLsbD_eq fun i hi => ?_
  have := congrArg (fun b : Byte => b.getLsbD (i % 8)) (h (i / 8) (by omega))
  simpa [byteAt, show i % 8 < 8 by omega, show 8 * (i / 8) + i % 8 = i by omega] using this

/-- Packing the bytes of a word gives the word back (R78). -/
theorem packWord_wordBytes (w : CmdWord) : packWord (wordBytes w) = w := by
  refine byteAt_ext fun k hk => ?_
  rw [byteAt_packWord _ _ hk, wordBytes_eq]
  simp [List.getD, hk]

/-- One word of the packing at a time. -/
theorem packBytes_cons {bs : List Byte} (h : bs ≠ []) :
    packBytes bs = packWord (bs.take 8) :: packBytes (bs.drop 8) := by
  match bs with
  | [] => contradiction
  | [_] | [_, _] | [_, _, _] | [_, _, _, _] | [_, _, _, _, _] | [_, _, _, _, _, _] | [_, _, _, _, _, _, _] =>
    simp [packBytes]
  | _ :: _ :: _ :: _ :: _ :: _ :: _ :: _ :: _ => simp [packBytes]

theorem packBytes_nil : packBytes [] = [] := rfl

/-- R70, R77: the packing of `n` bytes has `ceil(n/8)` words. -/
theorem packBytes_length (bs : List Byte) : (packBytes bs).length = payloadCount bs.length := by
  induction hn : bs.length using Nat.strong_induction_on generalizing bs with
  | _ n ih =>
    by_cases h : bs = []
    · subst h; subst hn; rfl
    · have hpos : 0 < bs.length := List.length_pos_iff.mpr h
      rw [packBytes_cons h, List.length_cons, ih (bs.drop 8).length (by simp; omega) _ rfl]
      simp only [payloadCount, List.length_drop]
      omega

/-- The bytes of a packing are the bytes, then zeros (R78, R79). -/
theorem payloadBytes_packBytes (bs : List Byte) :
    payloadBytes (packBytes bs) = bs ++ List.replicate (8 * payloadCount bs.length - bs.length) 0 := by
  induction hn : bs.length using Nat.strong_induction_on generalizing bs with
  | _ n ih =>
    by_cases h : bs = []
    · subst h; subst hn; rfl
    · have hpos : 0 < bs.length := List.length_pos_iff.mpr h
      have := ih (bs.drop 8).length (by simp; omega) _ rfl
      rw [packBytes_cons h]
      unfold payloadBytes at this ⊢
      rw [List.flatMap_cons, this, wordBytes_packWord _ (by simp)]
      by_cases h8 : 8 ≤ bs.length
      · have h1 : (bs.take 8).length = 8 := by simp; omega
        rw [h1]
        simp only [Nat.sub_self, List.replicate_zero, List.append_nil, List.length_drop]
        rw [← List.append_assoc, List.take_append_drop]
        congr 2
        simp only [payloadCount]; omega
      · have h1 : bs.take 8 = bs := List.take_of_length_le (by omega)
        have h2 : bs.drop 8 = [] := List.drop_eq_nil_of_le (by omega)
        rw [h1, h2]
        simp only [List.nil_append, List.length_nil, payloadCount, List.append_assoc]
        simp
        omega

/-- Packing the first `n` bytes of a payload with zero padding gives the payload back (R78, R79). -/
theorem packBytes_payloadBytes (ws : List CmdWord) (n : Nat) (hl : ws.length = payloadCount n)
    (hz : paddingZero n ws = true) : packBytes ((payloadBytes ws).take n) = ws := by
  induction ws generalizing n with
  | nil =>
    have : n = 0 := by simp [payloadCount] at hl; omega
    subst this; rfl
  | cons w ws ih =>
    have hn : 0 < n := by
      by_contra h0
      have : n = 0 := by omega
      subst this; simp [payloadCount] at hl
    have hne : (payloadBytes (w :: ws)).take n ≠ [] := by
      simp [payloadBytes, wordBytes]; omega
    have hb : payloadBytes (w :: ws) = wordBytes w ++ payloadBytes ws := by simp [payloadBytes]
    rw [packBytes_cons hne, hb, List.drop_take, List.take_take]
    have hd : (wordBytes w ++ payloadBytes ws).drop 8 = payloadBytes ws := by
      rw [List.drop_append_of_le_length (by simp [wordBytes_length]), List.drop_eq_nil_of_le (by simp [wordBytes_length])]
      simp
    rw [hd]
    simp only [List.length_cons, payloadCount] at hl
    by_cases h8 : 8 ≤ n
    · have ht : (wordBytes w ++ payloadBytes ws).take (min 8 n) = wordBytes w := by
        rw [Nat.min_eq_left h8, List.take_append_of_le_length (by simp [wordBytes_length]),
          List.take_of_length_le (by simp [wordBytes_length])]
      rw [ht, packWord_wordBytes, ih (n - 8) (by simp only [payloadCount]; omega)]
      unfold paddingZero at hz ⊢
      rw [hb, show n = 8 + (n - 8) by omega, ← List.drop_drop, hd] at hz
      exact hz
    · have hws : ws = [] := List.length_eq_zero_iff.mp (by omega)
      subst hws
      have : (payloadBytes ([] : List CmdWord)).take (n - 8) = [] := by simp [payloadBytes]
      rw [this, packBytes_nil]
      congr 1
      refine byteAt_ext fun k hk => ?_
      rw [byteAt_packWord _ _ hk, Nat.min_eq_right (by omega)]
      simp only [payloadBytes, List.flatMap_nil, List.append_nil]
      by_cases hkn : k < n
      · simp [wordBytes_eq, List.getD, hkn, hk]
      · have : byteAt w k = 0 := by
          have hz' := hz
          unfold paddingZero at hz'
          rw [List.all_eq_true] at hz'
          have hmem : byteAt w k ∈ (payloadBytes [w]).drop n := by
            simp only [payloadBytes, List.flatMap_cons, List.flatMap_nil, List.append_nil]
            rw [List.mem_drop_iff_getElem]
            exact ⟨k - n, by simp [wordBytes_length]; omega, by simp [wordBytes_eq, show n + (k - n) = k by omega]⟩
          simpa using hz' _ hmem
        simp [this, List.getD, hkn]

/-! ## The decoder, word by word -/

/-- R70: a command's length from its fields. -/
theorem payloadLength_commandFields (k : BitVec 4) (a : Offset) (b : Word) :
    payloadLength (commandFields k a b) = if k = 9 then payloadCount a.toNat else 0 := by
  unfold payloadLength
  rw [commandFields_opc, fieldA_commandFields]

/-- The decoder on a command word with exactly its payload and whatever stands behind. -/
theorem decode_cons {w : CmdWord} {payload rest : List CmdWord} (h : payload.length = payloadLength w) :
    decode (w :: (payload ++ rest)) =
      match decodeCommand w payload with
      | .error info => .illegal info rest
      | .ok i => .command i rest := by
  have hl : ¬ (payload ++ rest).length < payloadLength w := by rw [List.length_append]; omega
  have ht : (payload ++ rest).take (payloadLength w) = payload := by rw [← h, List.take_left]
  have hd : (payload ++ rest).drop (payloadLength w) = rest := by rw [← h, List.drop_left]
  cases hc : decodeCommand w payload <;> simp only [decode, if_neg hl, ht, hd, hc]

end Sys2Proof
end

