-- ==== Sys2Proof/Laws/PerInstr.lean ====
section
/-! SUPPORT. Families of facts about the commands as syntax, one lemma per constructor. -/

namespace Sys2Proof.Laws.RowMatches

/-- R71 to R75: the command word of a well-formed command is a legal word of the command's own row. -/
def Statement (i : Instr) : Prop := i.wellFormed = true → legalOpcode (commandWord i) = some i.opcode

theorem resolve (platform : Word) : Statement (.resolve platform) := fun _ =>
  legalOpcode_eq_some.mpr ⟨rfl, BitVec.zero_and, BitVec.and_zero⟩

theorem regr (off : Offset) : Statement (.regr off) := fun _ =>
  legalOpcode_eq_some.mpr ⟨rfl, BitVec.and_zero, BitVec.zero_and⟩

theorem regw (off : Offset) (value : Word) : Statement (.regw off value) := fun _ =>
  legalOpcode_eq_some.mpr ⟨rfl, BitVec.and_zero, BitVec.and_zero⟩

theorem delay (count : Word) : Statement (.delay count) := fun _ =>
  legalOpcode_eq_some.mpr ⟨rfl, BitVec.zero_and, BitVec.and_zero⟩

theorem mbox : Statement .mbox := fun _ => legalOpcode_eq_some.mpr ⟨rfl, rfl, rfl⟩

theorem init (platform : Word) : Statement (.init platform) := fun _ =>
  legalOpcode_eq_some.mpr ⟨rfl, BitVec.zero_and, BitVec.and_zero⟩

theorem putb (byte : Byte) : Statement (.putb byte) := fun _ => by
  refine legalOpcode_eq_some.mpr ⟨rfl, BitVec.zero_and, ?_⟩
  revert byte; decide

theorem getb : Statement .getb := fun _ => legalOpcode_eq_some.mpr ⟨rfl, rfl, rfl⟩

theorem puts (n : Offset) (text : List Byte) : Statement (.puts n text) := fun _ =>
  legalOpcode_eq_some.mpr ⟨rfl, BitVec.and_zero, BitVec.zero_and⟩

theorem gets : Statement .gets := fun _ => legalOpcode_eq_some.mpr ⟨rfl, rfl, rfl⟩

theorem panic : Statement .panic := fun _ => legalOpcode_eq_some.mpr ⟨rfl, rfl, rfl⟩

end Sys2Proof.Laws.RowMatches
end

