-- ==== Sys2Proof/Tests/Slice0.lean ====
section
/-! SUPPORT. Tests of the model on fixed values (expected results from the spec's own examples and vectors, named with
each), and for every obligation with hypotheses a witness: concrete values that meet all of them together. -/

namespace Sys2Proof.Tests

open Sys2Proof.Machine
open Sys2Proof.Config (Cfg BusEvent ReadAnswer)

/-! ## Helpers -/

/-- The reset configuration with a bus that can answer with an error. -/
def errCfg : Cfg := { Config.reference with busErrors := true }

/-- An idle block with words at its port. -/
def idleAt (base : Nat) (drv : DrvState) (ws : List CmdWord) : State :=
  { State.reset with base := base, drv := drv, port := ws }

/-- An idle block, Ready on platform 2, with words at its port and answers of the device side. -/
def readyAt (ws : List CmdWord) (reads : List ReadAnswer) : State :=
  { idleAt 0x3F000000 .ready ws with devReads := reads }

/-- A block at a line of a running command, Ready on platform 4. -/
def runningAt (i : Instr) (l : Seq) (reads : List ReadAnswer) : State :=
  { State.reset with
    base := 0xFE000000, drv := .ready, seq := l, busy := true, cur := some i, devReads := reads }

/-- The same on a bus that can answer with an error, with answers to writes. -/
def errAt (i : Instr) (l : Seq) (reads : List ReadAnswer) (writes : List Bool) : State :=
  { runningAt i l reads with cfg := errCfg, devWrites := writes }

/-- One part of the next state of a step; none where there is no next state. -/
def after {α : Type} (s : State) (f : State → α) : Option α :=
  match step s with
  | .next t => some (f t)
  | .fault _ => none
  | .refused _ => none

/-! ## WellFormed -/

/-- The one check of WellFormed refuses a text of another length than `n` (R77). -/
theorem test_wellFormed_refuses_short_text : (Instr.puts 1 []).wellFormed = false := by decide

theorem test_wellFormed_refuses_long_text : (Instr.puts 1 [0x61, 0x62]).wellFormed = false := by decide

theorem test_wellFormed_accepts_exact_text : (Instr.puts 2 [0x61, 0x62]).wellFormed = true := by decide

/-! ## Decoding: words written out from R71, R72 and R87 -/

theorem test_decode_resolve : decode [0x1000000000000004] = .command (.resolve 4) [] := by decide

theorem test_decode_regr : decode [0x2FFFFFFF00000000] = .command (.regr 0xFFFFFFF) [] := by decide

theorem test_decode_regw : decode [0x3020103000000301] = .command (.regw 0x201030 0x301) [] := by decide

theorem test_decode_delay : decode [0x4000000000000096] = .command (.delay 150) [] := by decide

theorem test_decode_mbox : decode [0x5000000000000000] = .command .mbox [] := by decide

theorem test_decode_init : decode [0x6000000080000003] = .command (.init 0x80000003) [] := by decide

theorem test_decode_putb : decode [0x7000000000000041] = .command (.putb 0x41) [] := by decide

theorem test_decode_getb : decode [0x8000000000000000] = .command .getb [] := by decide

/-- R87's `PUTS "bk> "`, with the next command's word behind it. -/
theorem test_decode_puts :
    decode [0x9000000400000000, 0x00000000203E6B62, 0x8000000000000000]
      = .command (.puts 4 [0x62, 0x6B, 0x3E, 0x20]) [0x8000000000000000] := by decide

/-- The ninth byte stands in bits 7:0 of the second payload word (R78). -/
theorem test_decode_puts_two_words :
    decode [0x9000000900000000, 0x0807060504030201, 0x0000000000000009]
      = .command (.puts 9 [1, 2, 3, 4, 5, 6, 7, 8, 9]) [] := by decide

theorem test_decode_gets : decode [0xA000000000000000] = .command .gets [] := by decide

theorem test_decode_panic : decode [0xB000000000000000] = .command .panic [] := by decide

/-- The lowest bit of field A is illegal for RESOLVE (V-ENC-4; notes/assumptions/17.md). -/
theorem test_decode_resolve_bit_32 :
    decode [0x1000000100000002] = .illegal 0x1000000100000002 [] := by decide

/-- Nonzero padding names the payload word (R79). -/
theorem test_decode_padding :
    decode [0x9000000400000000, 0x00000001203E6B62] = .illegal 0x00000001203E6B62 [] := by decide

theorem test_decode_waits_for_payload : decode [0x9000000400000000] = .incomplete := by decide

theorem test_decode_reserved : decode [0, 7] = .illegal 0 [7] := by decide

theorem test_table_word_regw : decodeTableWord 64 0x3020103000000301 = some (.regw 0x201030 0x301) := by decide

/-- A PUTS row with a count and no payload bits: its payload words are zero. -/
theorem test_table_word_puts : decodeTableWord 64 0x9000000300000000 = some (.puts 3 [0, 0, 0]) := by decide

theorem test_table_word_reserved : decodeTableWord 64 0xC000000000000000 = none := by decide

/-- `withFetchWord` makes the next step accept the instruction. -/
theorem test_fetch_word :
    after (State.reset.withFetchWord 64 0x6000000000000003) (fun t => (t.cur, t.busy, t.port))
      = some (some (.init 3), true, []) := by decide

/-! ## The text form (R85 to R87) -/

theorem test_assemble_init : assembleLine "INIT 3 ; comment".toList = some [0x6000000000000003] := by decide

theorem test_assemble_regw :
    assembleLine "REGW    0x201030, 0x301".toList = some [0x3020103000000301] := by decide

theorem test_assemble_puts_text :
    assembleLine "PUTS \"bk> \"".toList = some [0x9000000400000000, 0x00000000203E6B62] := by decide

theorem test_assemble_putb_char : assembleLine "PUTB '\\n'".toList = some [0x700000000000000A] := by decide

/-! ## Configuration and reset -/

/-- R10: the divisors 1 and 40 are the integer part and the 64ths of clock/(16 × baud). -/
theorem test_divisors :
    Config.uartClkHz / (16 * Config.baud) = Config.ibrdVal.toNat ∧
      (Config.uartClkHz % (16 * Config.baud)) * 64 / (16 * Config.baud) = Config.fbrdVal.toNat := by decide

theorem test_reference_valid : Config.reference.valid = true := by decide

theorem test_errCfg_valid : errCfg.valid = true := by decide

/-- R260, R43. -/
theorem test_reset_ports : State.reset.status = 0 ∧ State.reset.faultInfoPort = 0 := by decide

/-! ## One step of each command -/

theorem test_resolve_map :
    after (runningAt (.resolve 3) .resolveL1 []) State.base = some 0x3F000000 := by decide

theorem test_resolve_fallback :
    after (runningAt (.resolve 5) .resolveL1 []) State.base = some 0x20000000 := by decide

theorem test_regr_reads :
    after (runningAt (.regr 0x201018) .regrL1 [⟨0x90, false⟩]) (fun t => (t.trace, t.seq))
      = some ([.read 0xFE201018 0x90 false], .regrL2 0x90) := by decide

theorem test_regr_overflow :
    after (runningAt (.regr 0x2000000) .regrL1 []) (fun t => (t.faultCode, t.faultInfo, t.trace))
      = some (2, 0x2000000, []) := by decide

theorem test_regw_writes :
    after { runningAt (.regw 0x201030 0x301) .regwL1 [] with devWrites := [true] } (fun t => (t.trace, t.seq))
      = some ([.write 0xFE201030 0x301 false], .complete) := by decide

theorem test_regw_misaligned :
    after (runningAt (.regw 0x201031 1) .regwL1 []) (fun t => (t.faultCode, t.faultInfo))
      = some (3, 0xFE201031) := by decide

theorem test_delay_loads :
    after (runningAt (.delay 2) (.delay .l1) []) (fun t => (t.dcnt, t.seq)) = some (2, .delay .l2) := by decide

theorem test_delay_zero :
    after (runningAt (.delay 0) (.delay .l1) []) State.seq = some .complete := by decide

theorem test_mbox_request :
    after (runningAt .mbox (.mbox .m1) []) State.mreq = some 0x00080018 := by decide

theorem test_mbox_drops_other_reply :
    after { runningAt .mbox (.mbox .m4Read) [⟨0x00080019, false⟩] with mreq := 0x00080018 } State.seq
      = some (.mbox .m4Status) := by decide

theorem test_init_disables_first :
    after { runningAt (.init 4) (.init .s2) [] with devWrites := [false] } State.trace
      = some [.write 0xFE201030 0 false] := by decide

theorem test_init_negotiates_unsigned :
    after (runningAt (.init 0xFFFFFFFF) (.init .s7) []) State.seq = some (.init (.s7m .m1)) := by decide

theorem test_putb_waits :
    after (runningAt (.putb 0x41) (.putb .t1) [⟨0x20, false⟩]) State.seq = some (.putb .t1) := by decide

theorem test_putb_before_init :
    after { runningAt (.putb 0x41) .e0 [] with drv := .uninitialized } (fun t => (t.faultCode, t.faultInfo))
      = some (5, 0x7000000000000041) := by decide

/-- R188: the receive error bits are dropped. -/
theorem test_getb_low_byte :
    after (runningAt .getb (.getbQ1 .x2) [⟨0xF41, false⟩]) State.seq = some (.getbQ2 0x41) := by decide

theorem test_getb_responds :
    after (runningAt .getb (.getbQ2 0x61) []) State.respq = some [0x61] := by decide

theorem test_puts_empty :
    after (runningAt (.puts 0 []) .e0 []) (fun t => (t.seq, t.trace)) = some (.complete, []) := by decide

theorem test_puts_next_byte :
    after { runningAt (.puts 2 [0x68, 0x69]) (.puts 0 .t2) [] with devWrites := [false] }
        (fun t => (t.seq, t.trace))
      = some (.puts 1 .t1, [.write 0xFE201000 0x68 false]) := by decide

theorem test_gets_backspace_at_start :
    after (runningAt .gets (.gets .g4Discard) []) State.len = some 0 := by decide

/-- R193's example: three bytes of a line, packed. -/
theorem test_gets_responds :
    after
      { runningAt .gets (.gets .g9) [] with
        len := 3, lb := (((Vector.replicate 128 0).set 0 0x61).set 1 0x62).set 2 0x63 }
      State.respq = some [3, 0x636261] := by decide

theorem test_panic_raises :
    after (runningAt .panic .panicK1 []) (fun t => (t.faultCode, t.faultInfo, t.seq))
      = some (6, 0, .emit .t1) := by decide

/-! ## Witnesses: the hypotheses of each statement met on concrete values, clause by clause -/

theorem accepting_idleAt (base : Nat) (drv : DrvState) (ws : List CmdWord) : Accepting (idleAt base drv ws) :=
  ⟨test_reference_valid, rfl, rfl, rfl⟩

theorem accepting_readyAt (ws : List CmdWord) (reads : List ReadAnswer) : Accepting (readyAt ws reads) :=
  ⟨test_reference_valid, rfl, rfl, rfl⟩

theorem resolved_readyAt (ws : List CmdWord) (reads : List ReadAnswer) : Resolved (readyAt ws reads) :=
  show 0x3F000000 ∈ Config.reference.bases by decide

theorem resolved_runningAt (i : Instr) (l : Seq) (reads : List ReadAnswer) : Resolved (runningAt i l reads) :=
  show 0xFE000000 ∈ Config.reference.bases by decide

theorem resolved_errAt (i : Instr) (l : Seq) (reads : List ReadAnswer) (writes : List Bool) :
    Resolved (errAt i l reads writes) := show 0xFE000000 ∈ errCfg.bases by decide

theorem runningAt_errAt (i : Instr) (l : Seq) (reads : List ReadAnswer) (writes : List Bool) :
    RunningAt (errAt i l reads writes) l := ⟨test_errCfg_valid, rfl, rfl, rfl⟩

/-- Both kinds of answer on a bus that can answer with an error: a good one and an error, to a read and to a write. -/
theorem witness_bus_answers (i : Instr) (l : Seq) :
    (errAt i l [⟨7, false⟩] [false]).readAnswer.err = false ∧ (errAt i l [⟨7, true⟩] [false]).readAnswer.err = true ∧
      (errAt i l [] [false]).writeAnswer = false ∧ (errAt i l [] [true]).writeAnswer = true ∧
      (errAt i l [] []).cfg.busErrors = true := ⟨rfl, rfl, rfl, rfl, rfl⟩

theorem every {α : Type} {p : α → Bool} (l : List α) (h : l.all p = true) : ∀ a ∈ l, p a = true :=
  List.all_eq_true.mp h

theorem base_ne_zero : (0xFE000000 : Nat) ≠ 0 := by decide

/-! ### Encoding -/

theorem witness_DecodeOfEncodeIsTheCommand :
    (Instr.puts 9 [1, 2, 3, 4, 5, 6, 7, 8, 9]).wellFormed = true ∧ (Instr.puts 0 []).wellFormed = true ∧
      (Instr.regw 0xFFFFFFF 0xFFFFFFFF).wellFormed = true := by decide

theorem witness_EncodeOfDecodeIsTheWords :
    decode [0x9000000100000000, 0xFF, 5] = .command (.puts 1 [0xFF]) [5] := by decide

theorem witness_NoTwoRowsSelectOneWord :
    (0x70000000000000FF : CmdWord) &&& Opcode.putb.mask = Opcode.putb.pattern := by decide

theorem witness_IncompleteCommandWaits_empty : Accepting State.reset ∧ State.reset.port = [] :=
  ⟨⟨test_reference_valid, rfl, rfl, rfl⟩, rfl⟩

theorem witness_IncompleteCommandWaits_payload :
    Accepting (idleAt 0 .uninitialized [0x9000000900000000, 5]) ∧
      [(5 : CmdWord)].length < (if (0x9000000900000000 : CmdWord).extractLsb' 60 4 = 9
        then (((0x9000000900000000 : CmdWord).extractLsb' 32 28).toNat + 7) / 8 else 0) :=
  ⟨accepting_idleAt _ _ _, by decide⟩

theorem witness_ReservedOpcodeIsIllegal :
    Accepting (idleAt 0 .uninitialized [0xC000000000000000]) ∧
      0xC ≤ ((0xC000000000000000 : CmdWord).extractLsb' 60 4).toNat ∧
      0xC ≤ ((0xFFFFFFFFFFFFFFFF : CmdWord).extractLsb' 60 4).toNat ∧
      (0x0FFFFFFFFFFFFFFF : CmdWord).extractLsb' 60 4 = 0 :=
  ⟨accepting_idleAt _ _ _, by decide⟩

/-- The low end and the top of each field, one word a clause; PUTS with its payload. -/
theorem witness_MustBeZeroBitIsIllegal :
    Accepting (idleAt 0 .uninitialized (commandFields 9 1 1 :: [5] ++ [6])) ∧
      [(5 : CmdWord)].length = (if (9 : BitVec 4) = 9 then ((1 : Offset).toNat + 7) / 8 else 0) ∧
      ((9 : BitVec 4) ∈ [(0x2 : BitVec 4), 0x9] ∧ (1 : Word) ≠ 0) ∧
      ((6 : BitVec 4) ∈ [(0x1 : BitVec 4), 0x4, 0x6] ∧ (1 : Offset) ≠ 0) ∧
      ((5 : BitVec 4) ∈ [(0x5 : BitVec 4), 0x8, 0xA, 0xB] ∧ ((0x8000000 : Offset) ≠ 0 ∨ (0 : Word) ≠ 0)) ∧
      0x100 ≤ (0x100 : Word).toNat :=
  ⟨accepting_idleAt _ _ _, by decide⟩

theorem witness_NonzeroPaddingIsIllegal :
    Accepting (idleAt 0 .uninitialized (commandFields 0x9 9 0 :: [5] ++ [0x0100000000000109] ++ [])) ∧
      [(5 : CmdWord)].length + 1 = ((9 : Offset).toNat + 7) / 8 ∧ (9 : Offset).toNat % 8 ≠ 0 ∧
      ((9 : Offset).toNat % 8 ≤ 1 ∧ (0x0100000000000109 : CmdWord).extractLsb' (8 * 1) 8 ≠ 0) ∧
      ((9 : Offset).toNat % 8 ≤ 7 ∧ (0x0100000000000109 : CmdWord).extractLsb' (8 * 7) 8 ≠ 0) :=
  ⟨accepting_idleAt _ _ _, by decide⟩

/-! ### Acceptance, completion, dispatch -/

theorem witness_StepAcceptsTheDecodedCommand :
    Accepting (idleAt 0 .uninitialized [0xB000000000000000, 7]) ∧
      decode (idleAt 0 .uninitialized [0xB000000000000000, 7]).port = .command .panic [7] :=
  ⟨accepting_idleAt _ _ _, by decide⟩

theorem witness_StepRunsTheCommandInCur :
    RunningAt (runningAt (.puts 1 [5]) (.puts 0 .t1) []) (.puts 0 .t1) ∧
      (runningAt (.puts 1 [5]) (.puts 0 .t1) []).cur = some (.puts 1 [5]) ∧
      lineOf (.puts 1 [5]) (.puts 0 .t1) = true :=
  ⟨⟨test_reference_valid, rfl, rfl, rfl⟩, rfl, by decide⟩

theorem witness_CompletionFreesTheBlock :
    (runningAt .gets .complete []).halted = false ∧ (runningAt .gets .complete []).seq = .complete := by decide

theorem witness_CommandsWriteOnlyTheirState :
    (runningAt (.delay 0) (.delay .l1) []).seq ≠ .idle ∧
      exec (.delay 0) (runningAt (.delay 0) (.delay .l1) [])
        = .next { runningAt (.delay 0) (.delay .l1) [] with seq := .complete } ∧
      (runningAt .gets .complete []).seq ≠ .idle ∧
      exec .gets (runningAt .gets .complete [])
        = .next { runningAt .gets .complete [] with seq := .idle, busy := false } := ⟨by decide, rfl, by decide, rfl⟩

/-! ### RESOLVE, REGR, REGW -/

theorem witness_ResolveSetsBase_map :
    (runningAt (.resolve 4) .resolveL1 []).cfg.platformMap
        = [(2, 0x3F000000), (3, 0x3F000000)] ++ (4, 0xFE000000) :: [] ∧
      (∀ e ∈ [((2 : Word), 0x3F000000), (3, 0x3F000000)], e.1 ≠ 4) ∧
      (runningAt (.resolve 4) .resolveL1 []).seq = .resolveL1 := ⟨rfl, by decide, rfl⟩

theorem witness_ResolveSetsBase_fallback :
    (∀ e ∈ (runningAt (.resolve 1) .resolveL1 []).cfg.platformMap, e.1 ≠ (1 : Word)) ∧
      (∀ e ∈ (runningAt (.resolve 5) .resolveL1 []).cfg.platformMap, e.1 ≠ (5 : Word)) := by decide

/-- The zero-base guard; the first overflowing offset; the last offset below it, misaligned; the last aligned one, with
and without a bus error. -/
theorem witness_RegrReadsThroughTheAccessor :
    (idleAt 0 .uninitialized []).base = 0 ∧
      2 ^ Config.reference.aw ≤ 0xFE000000 + (0x2000000 : Offset).toNat ∧
      (0xFE000000 + (0x1FFFFFF : Offset).toNat < 2 ^ Config.reference.aw ∧
        (0xFE000000 + (0x1FFFFFF : Offset).toNat) % 4 ≠ 0) ∧
      Reaches (0x1FFFFFC : Offset).toNat (runningAt (.regr 0x1FFFFFC) .regrL1 [⟨1, false⟩]) ∧
      (runningAt (.regr 0x1FFFFFC) .regrL1 [⟨1, false⟩]).readAnswer.err = false ∧
      { runningAt (.regr 0x1FFFFFC) .regrL1 [⟨1, true⟩] with cfg := errCfg }.readAnswer.err = true ∧
      Reaches (0x1FFFFFC : Offset).toNat { runningAt (.regr 0x1FFFFFC) .regrL1 [⟨1, true⟩] with cfg := errCfg } :=
  ⟨rfl, by decide, by decide, ⟨by decide, by decide, by decide⟩, rfl, rfl, ⟨by decide, by decide, by decide⟩⟩

theorem witness_RegrRespondsWithTheWord :
    (runningAt (.regr 0) (.regrL2 0xFFFFFFFF) []).halted = false ∧
      (runningAt (.regr 0) (.regrL2 0xFFFFFFFF) []).seq = .regrL2 0xFFFFFFFF := by decide

theorem witness_RegwWritesThroughTheAccessor :
    (runningAt (.regw 0x1FFFFFC 7) .regwL1 []).seq = .regwL1 ∧
      { runningAt (.regw 0x1FFFFFC 7) .regwL1 [] with base := 0 }.base = 0 ∧
      Reaches (0x1FFFFFC : Offset).toNat (runningAt (.regw 0x1FFFFFC 7) .regwL1 []) ∧
      { runningAt (.regw 0x1FFFFFC 7) .regwL1 [] with cfg := errCfg, devWrites := [true] }.writeAnswer = true ∧
      { runningAt (.regw 0x1FFFFFC 7) .regwL1 [] with cfg := errCfg, devWrites := [false] }.writeAnswer = false ∧
      2 ^ Config.reference.aw ≤ 0xFE000000 + (0x2000000 : Offset).toNat ∧
      (0xFE000000 + (0x1FFFFFD : Offset).toNat) % 4 ≠ 0 :=
  ⟨rfl, rfl, ⟨by decide, by decide, by decide⟩, rfl, rfl, by decide, by decide⟩

theorem witness_RegisterCommandsWithoutBaseAreAbsorbed :
    Accepting (idleAt 0 .uninitialized [commandFields 0x2 0xFFFFFFF 0]) ∧
      Accepting (idleAt 0 .uninitialized [commandFields 0x3 1 0xFFFFFFFF]) :=
  ⟨accepting_idleAt _ _ _, accepting_idleAt _ _ _⟩

/-! ### DELAY, MBOX, INIT -/

theorem witness_DelayTakesCountStepsAndCompletes :
    Accepting (idleAt 0 .uninitialized [commandFields 0x4 0 0]) ∧
      Accepting (idleAt 0 .uninitialized [commandFields 0x4 0 0xFFFFFFFF]) :=
  ⟨accepting_idleAt _ _ _, accepting_idleAt _ _ _⟩

theorem witness_DelayLinesCountDown :
    (runningAt (.delay 0) (.delay .l1) []).seq = .delay .l1 ∧
      { runningAt (.delay 1) (.delay .l2) [] with dcnt := 1 }.seq = .delay .l2 ∧
      { runningAt (.delay 1) (.delay .l2) [] with dcnt := 1 }.dcnt ≠ 0 := by decide

theorem witness_RequestWordCarriesAddressAndChannel :
    (runningAt .mbox (.mbox .m1) []).cfg.valid = true ∧ (runningAt .mbox (.mbox .m1) []).seq = .mbox .m1 :=
  ⟨test_reference_valid, rfl⟩

/-- Each line, in MBOX and in INIT, on a bus that can answer with an error (the answers: `witness_bus_answers`). -/
theorem witness_MboxLinesPollSendAndMatch :
    (∀ l, Resolved (errAt .mbox (.mbox l) [⟨0, false⟩] [false]) ∧
        (errAt .mbox (.mbox l) [⟨0, false⟩] [false]).seq = .mbox l) ∧
      ∀ l, Resolved (errAt (.init 3) (.init (.s7m l)) [⟨0, true⟩] [true]) ∧
        (errAt (.init 3) (.init (.s7m l)) [⟨0, true⟩] [true]).seq = .init (.s7m l) :=
  ⟨fun _ => ⟨resolved_errAt _ _ _ _, rfl⟩, fun _ => ⟨resolved_errAt _ _ _ _, rfl⟩⟩

/-- A wait for room with one FULL read. -/
def fullWait : Wait := ⟨[0x80000000], 0x40000000⟩

/-- The two kinds of iteration of M4 that go on. -/
def goingOn : List ReplyRound := [.empty 0x40000000, .mismatch 0 0x00080019]

/-- The answers of a handshake with every kind of iteration. -/
def handshakeReads : List ReadAnswer :=
  answers (fullWait.reads ++ goingOn.flatMap ReplyRound.values ++ [0x80000000, requestWord Config.reference])

theorem witness_handshake :
    fullWait.ends Config.reference.mask.full = true ∧
      (∀ r ∈ goingOn, r.goesOn Config.reference = true) ∧
      flagSet 0x80000000 Config.reference.mask.empty = false :=
  ⟨by decide, by decide, by decide⟩

theorem witness_MboxCompletesOnTheMatchingReply :
    Accepting (readyAt [commandFields 0x5 0 0] handshakeReads) ∧
      Resolved (readyAt [commandFields 0x5 0 0] handshakeReads) ∧
      WritesSucceed 1 (readyAt [commandFields 0x5 0 0] handshakeReads) ∧
      WritesSucceed 1 { readyAt [] [] with cfg := errCfg, devWrites := [false] } ∧
      (readyAt [commandFields 0x5 0 0] handshakeReads).devReads = handshakeReads ++ [] :=
  ⟨accepting_readyAt _ _, resolved_readyAt _ _, .inl rfl, .inr (by decide), by decide⟩

theorem witness_MboxWithoutBaseHangs :
    Accepting (idleAt 0 .uninitialized [commandFields 0x5 0 0]) ∧ (idleAt 0 .uninitialized []).base = 0 :=
  ⟨accepting_idleAt _ _ _, rfl⟩

theorem witness_InitLinesWriteTheirRegisters :
    (runningAt (.init 2) (.init .s1) []).cfg.platformMap
        = [] ++ (2, 0x3F000000) :: [(3, 0x3F000000), (4, 0xFE000000)] ∧
      (∀ e ∈ (runningAt (.init 0) (.init .s1) []).cfg.platformMap, e.1 ≠ (0 : Word)) ∧
      (runningAt (.init 2) (.init .s12) []).seq = .init .s12 ∧
      Resolved (errAt (.init 2) (.init .s2) [] [true]) ∧
      (errAt (.init 2) (.init .s2) [] [true]).seq = .init .s2 ∧
      (errAt (.init 2) (.init .s11) [] [false]).seq = .init .s11 :=
  ⟨rfl, by decide, rfl, resolved_errAt _ _ _ _, rfl, rfl⟩

theorem witness_InitNegotiatesFromGenerationThree :
    (runningAt (.init 3) (.init .s7) []).seq = .init .s7 ∧ 3 ≤ (3 : Word).toNat ∧
      3 ≤ (0xFFFFFFFF : Word).toNat ∧ (2 : Word).toNat < 3 := by decide

theorem witness_InitBelowGenerationThreeMakesTenWrites :
    Accepting (idleAt 0 .uninitialized [commandFields 0x6 0 2]) ∧
      WritesSucceed 10 (idleAt 0 .uninitialized [commandFields 0x6 0 2]) ∧
      WritesSucceed 10 { idleAt 0 .uninitialized [] with cfg := errCfg, devWrites := List.replicate 10 false } ∧
      (2 : Word).toNat < 3 :=
  ⟨accepting_idleAt _ _ _, .inl rfl, .inr (by decide), by decide⟩

theorem witness_InitFromGenerationThreeNegotiatesFirst :
    Accepting (readyAt [commandFields 0x6 0 3] handshakeReads) ∧ 3 ≤ (3 : Word).toNat ∧
      WritesSucceed 11 (readyAt [commandFields 0x6 0 3] handshakeReads) ∧
      (readyAt [commandFields 0x6 0 3] handshakeReads).devReads = handshakeReads ++ [] :=
  ⟨accepting_readyAt _ _, by decide, .inl rfl, by decide⟩

theorem witness_OnlyInitMakesTheDriverReady :
    after { runningAt (.init 2) (.init .s12) [] with drv := .uninitialized } State.drv = some .ready ∧
      after (runningAt (.init 2) (.init .s1) []) State.drv = some .ready := by decide

/-! ### PUTB, GETB, PUTS, GETS -/

theorem witness_ByteCommandsCheckTheDriverFirst :
    { runningAt .gets .e0 [] with drv := .uninitialized }.base ≠ 0 ∧
      { runningAt .gets .e0 [] with drv := .uninitialized }.seq = .e0 ∧
      (runningAt (.puts 0 []) .e0 []).drv = .ready ∧
      { runningAt (.puts 1 [5]) .e0 [] with drv := .uninitialized, base := 0 }.base = 0 := by decide

theorem witness_PutbPollsThenWrites :
    Resolved (errAt (.putb 0xFF) (.putb .t1) [⟨0x20, true⟩] []) ∧
      (errAt (.putb 0xFF) (.putb .t1) [⟨0x20, true⟩] []).seq = .putb .t1 ∧
      (errAt (.putb 0xFF) (.putb .t2) [] [false]).seq = .putb .t2 :=
  ⟨resolved_errAt _ _ _ _, rfl, rfl⟩

theorem witness_PutbSendsItsByteOnce :
    Accepting (readyAt [commandFields 0x7 0 ((0x0A : Byte).setWidth 32)] (answers (Wait.mk [0x20, 0x30] 0x10).reads)) ∧
      WritesSucceed 1 (readyAt [] []) ∧ (Wait.mk [0x20, 0x30] 0x10).ends Config.reference.mask.txff = true :=
  ⟨accepting_readyAt _ _, .inl rfl, by decide⟩

/-- Waits of each kind: TxByte in a command and in the emission, RxByte, M2. -/
theorem witness_WaitsHaveNoTimeout :
    (RunningAt (errAt (.puts 1 [5]) (.puts 0 .t1) (answers [0x20]) []) (.puts 0 .t1) ∧
        lineOf (.puts 1 [5]) (.puts 0 .t1) = true ∧
        waitOf errCfg (.puts 0 .t1) = some (0x00201018, 0x20) ∧ (∀ v ∈ [(0x20 : Word)], flagSet v 0x20 = true)) ∧
      (waitOf errCfg (.emit .t1) = some (0x00201018, 0x20) ∧ onFaultPath (.emit .t1) = true) ∧
      (waitOf errCfg (.gets (.g2 .x1)) = some (0x00201018, 0x10) ∧ flagSet 0x30 0x10 = true) ∧
      (waitOf errCfg (.init (.s7m .m2)) = some (0x0000B898, 0x80000000) ∧ flagSet 0xC0000000 0x80000000 = true) :=
  ⟨⟨runningAt_errAt _ _ _ _, by decide, by decide, every _ (by decide)⟩, by decide, by decide, by decide⟩

theorem witness_WaitsHaveNoTimeout_reply :
    RunningAt { errAt .mbox (.mbox .m4Status) (answers (goingOn.flatMap ReplyRound.values)) [] with
        mreq := requestWord errCfg } (.mbox .m4Status) ∧
      (∀ r ∈ goingOn, r.goesOn errCfg = true) :=
  ⟨⟨test_errCfg_valid, rfl, rfl, rfl⟩, by decide⟩

theorem witness_GetbPollsReadsAndResponds :
    Resolved (errAt .getb (.getbQ1 .x1) [⟨0x10, true⟩] []) ∧
      (errAt .getb (.getbQ1 .x1) [⟨0x10, true⟩] []).seq = .getbQ1 .x1 ∧
      (errAt .getb (.getbQ1 .x2) [⟨0x10, false⟩] []).seq = .getbQ1 .x2 ∧
      (errAt .getb (.getbQ2 0xFF) [] []).seq = .getbQ2 0xFF :=
  ⟨resolved_errAt _ _ _ _, rfl, rfl, rfl⟩

theorem witness_GetbRespondsWithTheLowByte :
    Accepting (readyAt [commandFields 0x8 0 0] (answers ((Wait.mk [0x10] 0).reads ++ [0xF41]))) ∧
      (Wait.mk [0x10] 0).ends Config.reference.mask.rxfe = true :=
  ⟨accepting_readyAt _ _, by decide⟩

theorem witness_PutsSendsOneByte :
    Resolved (errAt (.puts 1 [5]) (.puts 0 .t2) [] [true]) ∧ [(5 : Byte)][0]? = some 5 ∧
      (errAt (.puts 1 [5]) (.puts 0 .t2) [] [true]).seq = .puts 0 .t2 ∧
      (errAt (.puts 1 [5]) (.puts 0 .t1) [⟨0, true⟩] []).seq = .puts 0 .t1 :=
  ⟨resolved_errAt _ _ _ _, rfl, rfl, rfl⟩

theorem witness_PutsSendsTheTextInOrder :
    Accepting (readyAt (commandFields 0x9 2 0 :: packBytes [0x68, 0x69] ++ [])
        (answers ([Wait.mk [0x20] 0, Wait.mk [] 0x10].flatMap Wait.reads))) ∧
      WritesSucceed 2 (readyAt [] []) ∧ [(0x68 : Byte), 0x69].length = (2 : Offset).toNat ∧
      [Wait.mk [0x20] 0, Wait.mk [] 0x10].length = [(0x68 : Byte), 0x69].length ∧
      (∀ w ∈ [Wait.mk [0x20] 0, Wait.mk [] 0x10], w.ends Config.reference.mask.txff = true) :=
  ⟨accepting_readyAt _ _, .inl rfl, by decide, by decide, by decide⟩

theorem witness_GetsLinesPollClassifyAndEcho :
    Resolved (errAt .gets (.gets (.g2 .x2)) [⟨0x17F, false⟩] []) ∧
      (errAt .gets (.gets (.g2 .x1)) [⟨0x10, true⟩] []).seq = .gets (.g2 .x1) ∧
      (errAt .gets (.gets (.g2 .x2)) [⟨0x17F, false⟩] []).seq = .gets (.g2 .x2) ∧
      (errAt .gets (.gets (.echo 0x0D [0x0A] .t1 .terminate)) [⟨0x20, false⟩] []).seq
        = .gets (.echo 0x0D [0x0A] .t1 .terminate) ∧
      (errAt .gets (.gets (.echo 8 [] .t2 .erase)) [] [true]).seq = .gets (.echo 8 [] .t2 .erase) :=
  ⟨resolved_errAt _ _ _ _, rfl, rfl, rfl, rfl⟩

theorem witness_GetsLinesEditTheBuffer :
    (runningAt .gets (.gets .g0) []).seq = .gets .g0 ∧
      (runningAt .gets (.gets .g4Discard) []).seq = .gets .g4Discard ∧
      { runningAt .gets (.gets (.g5Store 5)) [] with len := 127 }.len.toNat < 128 ∧
      (runningAt .gets (.gets (.g5Store 5)) []).len.toNat < 128 := by decide

theorem witness_GetsRespondsWithTheLine :
    (runningAt .gets (.gets .g9) []).len.toNat ≤ 128 ∧
      { runningAt .gets (.gets .g9) [] with len := 128 }.len.toNat ≤ 128 ∧
      (runningAt .gets (.gets .g9) []).seq = .gets .g9 := by decide

/-- R201's input `ab`, backspace, `c`, LF, with a poll that shows RXFE set and one that shows TXFF set. -/
def editedInput : List Received :=
  [⟨⟨[0x10], 0⟩, 0x61, [⟨[0x20], 0⟩]⟩, ⟨⟨[], 0⟩, 0x62, [⟨[], 0⟩]⟩, ⟨⟨[], 0⟩, 0x08, [⟨[], 0⟩, ⟨[], 0⟩, ⟨[], 0⟩]⟩,
    ⟨⟨[], 0⟩, 0x63, [⟨[], 0⟩]⟩, ⟨⟨[], 0⟩, 0x0A, [⟨[], 0⟩, ⟨[], 0⟩]⟩]

theorem witness_GetsRefinesTheLineEditor :
    Accepting (readyAt [commandFields 0xA 0 0] (answers (editReads editedInput))) ∧
      WritesSucceed (echoCount editedInput) (readyAt [] []) ∧
      editFits Config.reference [] editedInput = true ∧
      editLine [] (editedInput.map Received.byte) = some [0x61, 0x63] :=
  ⟨accepting_readyAt _ _, .inl rfl, by decide, by decide⟩

/-- The 128th plain byte ends the line (R198, R201). -/
theorem witness_GetsRefinesTheLineEditor_full :
    editFits Config.reference [] (List.replicate 128 ⟨⟨[], 0⟩, 0x55, [⟨[], 0⟩]⟩) = true ∧
      editLine [] ((List.replicate 128 (⟨⟨[], 0⟩, 0x55, [⟨[], 0⟩]⟩ : Received)).map Received.byte)
        = some (List.replicate 128 0x55) := by decide +kernel

theorem witness_ByteCommandsWithoutBaseAreAbsorbed :
    Accepting (idleAt 0 .uninitialized [commandFields 0x7 0 ((0xFF : Byte).setWidth 32)]) ∧
      Accepting (idleAt 0 .uninitialized [commandFields 0x8 0 0]) ∧
      Accepting (idleAt 0 .uninitialized (commandFields 0x9 9 0 :: packBytes (List.replicate 9 0x0A) ++ [])) ∧
      (List.replicate 9 (0x0A : Byte)).length = (9 : Offset).toNat ∧
      Accepting (idleAt 0 .uninitialized [commandFields 0x9 0 0]) ∧
      Accepting (idleAt 0 .uninitialized [commandFields 0xA 0 0]) :=
  ⟨accepting_idleAt _ _ _, accepting_idleAt _ _ _, accepting_idleAt _ _ _, by decide, accepting_idleAt _ _ _,
    accepting_idleAt _ _ _⟩

/-! ### Faults and halt -/

/-- A block at a line of the panic emission after a misaligned access. -/
def emittingAt (base : Nat) (l : TxLine) (idx : BitVec 4) (reads : List ReadAnswer) : State :=
  { State.reset with
    base := base, seq := .emit l, busy := true, pidx := idx, faultCode := 3, faultInfo := 1, devReads := reads }

theorem witness_PanicEntersTheFaultPath :
    (runningAt .panic .panicK1 []).halted = false ∧ (runningAt .panic .panicK1 []).seq = .panicK1 := by decide

theorem witness_EmissionReportsOnceThenHalts :
    RunningAt (emittingAt 0x20000000 .t1 0 (answers ((List.replicate 13 (Wait.mk [0x20] 0)).flatMap Wait.reads)))
        (.emit .t1) ∧
      RunningAt (emittingAt 0 .t1 0 []) (.emit .t1) ∧
      Resolved (emittingAt 0x20000000 .t1 0 []) ∧ WritesSucceed 13 (emittingAt 0x20000000 .t1 0 []) ∧
      (∀ w ∈ List.replicate 13 (Wait.mk [0x20] 0), w.ends Config.reference.mask.txff = true) :=
  ⟨⟨test_reference_valid, rfl, rfl, rfl⟩, ⟨test_reference_valid, rfl, rfl, rfl⟩, by unfold Resolved; decide,
    .inl rfl, by decide⟩

theorem witness_BusErrorInTheEmissionHalts :
    RunningAt { emittingAt 0x20000000 .t1 0 [⟨0, true⟩] with cfg := errCfg } (.emit .t1) ∧
      RunningAt { emittingAt 0x20000000 .t2 12 [] with cfg := errCfg, devWrites := [true] } (.emit .t2) ∧
      Resolved { emittingAt 0x20000000 .t1 0 [⟨0, true⟩] with cfg := errCfg } ∧
      Config.panicText[(12 : BitVec 4).toNat]? = some 0x21 :=
  ⟨⟨test_errCfg_valid, rfl, rfl, rfl⟩, ⟨test_errCfg_valid, rfl, rfl, rfl⟩, by unfold Resolved; decide, rfl⟩

theorem witness_HaltedBlockTakesNoStep : { State.reset with halted := true }.halted = true := rfl

/-- A configuration for each disjunct, at the edge of its constraint. -/
theorem witness_InvalidConfigurationIsRefused :
    { Config.reference with aw := 31 }.aw < 32 ∧
      (0 ∈ { Config.reference with fallbackBase := 0 }.bases) ∧
      (∃ b ∈ { Config.reference with fallbackBase := 2 }.bases, b % 4 ≠ 0) ∧
      (∃ b ∈ { Config.reference with fallbackBase := 2 ^ 32 }.bases, 2 ^ 32 ≤ b) ∧
      (∃ o ∈ { Config.reference.off with gppud := 2 ^ 28 }.all, 2 ^ 28 ≤ o) ∧
      (∃ o ∈ { Config.reference.off with mboxWrite := 1 }.all, o % 4 ≠ 0) ∧
      (∃ b ∈ { Config.reference with fallbackBase := 0xFFFFFFFC }.bases, ∃ o ∈ Config.reference.off.all,
        2 ^ 32 ≤ b + o) ∧
      16 ≤ { Config.reference with mboxChannel := 16 }.mboxChannel ∧
      { Config.reference with mboxMsgAddr := 8 }.mboxMsgAddr % 16 ≠ 0 ∧
      { Config.reference with mboxMsgAddr := 0 }.mboxMsgAddr = 0 ∧
      2 ^ 32 ≤ { Config.reference with mboxMsgAddr := 2 ^ 32 }.mboxMsgAddr ∧
      { Config.reference with mask := { Config.reference.mask with txff := 0 } }.mask.txff = 0 := by decide

/-! ### The invariant -/

/-- The invariant of a state at a line of a running command, from what can be computed. -/
theorem inv_of_running {s : State} {i : Instr} (hc : s.cfg.valid = true) (hb : s.base = 0 ∨ Resolved s)
    (hr : s.drv = .ready → s.base ≠ 0) (hi : ∀ l, s.seq = .init l → l ≠ .s1 → s.base ≠ 0)
    (hl : s.len.toNat ≤ 128) (hp : s.pidx.toNat ≤ 13) (hbusy : s.busy = true) (hh : s.halted = false)
    (hf : s.faultCode = 0) (hcur : s.cur = some i) (hw : i.wellFormed = true) (hline : lineOf i s.seq = true)
    (hlat : latchesFit s s.seq = true) : Inv s where
  cfg := hc
  base := hb
  ready := hr
  initBase := hi
  len := hl
  pidx := hp
  busy := ⟨fun _ h => (by rw [h] at hline; cases hline), fun _ => hbusy⟩
  halted := fun h => by rw [hh] at h; cases h
  code := by rw [hf]; decide
  fault := by
    rw [hf]
    refine ⟨fun h => absurd rfl h, fun h => ?_⟩
    rcases h with h | h
    · rw [hh] at h; cases h
    · generalize s.seq = l at h hline
      cases l <;> first | cases hline | cases h
  position := .inr (.inr ⟨i, hcur, hw, hline⟩)
  latches := hlat

/-- States of the invariant at a line of a command, Ready on platform 4. -/
theorem inv_runningAt {i : Instr} {l : Seq} {reads : List ReadAnswer} (hw : i.wellFormed = true)
    (hline : lineOf i l = true) (hlat : latchesFit (runningAt i l reads) l = true) : Inv (runningAt i l reads) :=
  inv_of_running (i := i) test_reference_valid (.inr (resolved_runningAt _ _ _)) (fun _ => base_ne_zero)
    (fun _ _ _ => base_ne_zero) (Nat.zero_le _) (Nat.zero_le _) rfl rfl rfl rfl hw hline hlat

/-- The same with a bus that can answer with an error. -/
theorem inv_runningAt_errCfg {i : Instr} {l : Seq} {reads : List ReadAnswer} (hw : i.wellFormed = true)
    (hline : lineOf i l = true) (hlat : latchesFit { runningAt i l reads with cfg := errCfg } l = true) :
    Inv { runningAt i l reads with cfg := errCfg } :=
  inv_of_running (i := i) test_errCfg_valid (.inr (show 0xFE000000 ∈ errCfg.bases by decide)) (fun _ => base_ne_zero)
    (fun _ _ _ => base_ne_zero) (Nat.zero_le _) (Nat.zero_le _) rfl rfl rfl rfl hw hline hlat

/-- Codes 2 and 3 at REGR, 4 at GETB, 6 at PANIC. -/
theorem witness_CommandsRaiseOnlyTheirFaults :
    (Inv (runningAt (.regr 0x2000000) .regrL1 []) ∧
        after (runningAt (.regr 0x2000000) .regrL1 []) State.faultCode = some 2) ∧
      (Inv (runningAt (.regr 1) .regrL1 []) ∧ after (runningAt (.regr 1) .regrL1 []) State.faultCode = some 3) ∧
      (Inv { runningAt .getb (.getbQ1 .x1) [⟨0, true⟩] with cfg := errCfg } ∧
        after { runningAt .getb (.getbQ1 .x1) [⟨0, true⟩] with cfg := errCfg } State.faultCode = some 4) ∧
      (Inv (runningAt .panic .panicK1 []) ∧ after (runningAt .panic .panicK1 []) State.faultCode = some 6) :=
  ⟨⟨inv_runningAt (by decide) (by decide) (by decide), by decide⟩,
    ⟨inv_runningAt (by decide) (by decide) (by decide), by decide⟩,
    ⟨inv_runningAt_errCfg (by decide) (by decide) (by decide), by decide⟩,
    ⟨inv_runningAt (by decide) (by decide) (by decide), by decide⟩⟩

/-- Code 5 at PUTS before INIT; PANIC without a base. -/
theorem witness_CommandsRaiseOnlyTheirFaults_before_init :
    (Inv { runningAt (.puts 0 []) .e0 [] with drv := .uninitialized } ∧
        after { runningAt (.puts 0 []) .e0 [] with drv := .uninitialized } State.faultCode = some 5) ∧
      (Inv { runningAt .panic .panicK1 [] with drv := .uninitialized, base := 0 } ∧
        after { runningAt .panic .panicK1 [] with drv := .uninitialized, base := 0 } State.faultCode = some 6) :=
  ⟨⟨inv_of_running (i := .puts 0 []) test_reference_valid (.inr (resolved_runningAt (.puts 0 []) .e0 [])) (fun h => by cases h)
        (fun _ h => by cases h) (by decide) (by decide) rfl rfl rfl rfl rfl rfl rfl, by decide⟩,
    ⟨inv_of_running (i := .panic) test_reference_valid (.inl rfl) (fun h => by cases h)
        (fun _ h => by cases h) (by decide) (by decide) rfl rfl rfl rfl rfl rfl rfl, by decide⟩⟩

/-- A state of the invariant on the fault path. -/
theorem inv_emittingAt : Inv (emittingAt 0x20000000 .t1 0 [⟨0, false⟩]) where
  cfg := test_reference_valid
  base := .inr (by unfold Resolved; decide)
  ready := fun h => by cases h
  initBase := fun _ h => by cases h
  len := by decide
  pidx := by decide
  busy := ⟨fun _ h => (by cases h), fun _ => rfl⟩
  halted := fun h => by cases h
  code := by decide
  fault := ⟨fun _ => .inr rfl, fun _ => by decide⟩
  position := .inr (.inl rfl)
  latches := rfl

theorem witness_FirstFaultIsKept :
    Inv (emittingAt 0x20000000 .t1 0 [⟨0, false⟩]) ∧
      after (emittingAt 0x20000000 .t1 0 [⟨0, false⟩]) State.seq = some (.emit .t2) ∧
      (emittingAt 0x20000000 .t1 0 [⟨0, false⟩]).faultCode ≠ 0 :=
  ⟨inv_emittingAt, by decide, by decide⟩

theorem witness_FaultEntryKeepsTheState :
    (runningAt .panic .panicK1 []).faultCode = 0 ∧
      after (runningAt .panic .panicK1 []) State.faultCode = some 6 := by decide

/-! ### The machine as a whole -/

theorem witness_NoBusEventWithoutBase :
    after { runningAt .mbox (.mbox .m2) [] with drv := .uninitialized, base := 0 } State.seq
      = some (.mbox .m3) := by decide

/-- A step with a bus event and a step without. -/
theorem witness_OneAlignedBusEventPerStep :
    after (runningAt .mbox (.mbox .m2) [⟨0, false⟩]) State.trace = some [.read 0xFE00B898 0 false] ∧
      after (runningAt .mbox (.mbox .m1) []) State.trace = some [] := by decide

/-- A step that changes `BASE` and a step that does not. -/
theorem witness_OnlyTheLocatorWritesBase :
    after (runningAt (.init 2) (.init .s1) []) State.base = some 0x3F000000 ∧
      after (runningAt (.init 2) (.init .s7) []) State.base = some 0xFE000000 := by decide

theorem witness_OnlyThreeLinesRespond :
    after (runningAt (.regr 0) (.regrL2 9) []) State.respq = some [9] ∧
      after (runningAt (.regr 0) .complete []) State.respq = some [] := by decide

theorem witness_ResetAbandonsTheCommand :
    (runningAt .mbox (.mbox .m2) []).cfg.valid = true ∧ Instr.getb.wellFormed = true :=
  ⟨test_reference_valid, rfl⟩

theorem witness_InvariantHoldsAtReset : errCfg.valid = true := test_errCfg_valid

theorem witness_EveryStepKeepsTheInvariant :
    Inv (runningAt (.delay 2) (.delay .l1) []) ∧
      after (runningAt (.delay 2) (.delay .l1) []) State.dcnt = some 2 :=
  ⟨inv_runningAt (by decide) (by decide) (by decide), by decide⟩

theorem witness_MachineNeverGetsStuck :
    Inv (runningAt .gets (.gets (.g2 .x1)) [⟨0x10, false⟩]) ∧
      (runningAt .gets (.gets (.g2 .x1)) [⟨0x10, false⟩]).halted = false :=
  ⟨inv_runningAt (by decide) (by decide) (by decide), rfl⟩

/-- Two states that differ in every latch nobody can see. -/
theorem witness_UnspecifiedLatchesAreUnobservable :
    Alike (runningAt .getb (.getbQ2 7) [])
      { runningAt .getb (.getbQ2 7) [] with lb := Vector.replicate 128 0xEE, mreq := 1, dcnt := 2 } where
  rest := rfl
  line := fun k hk => absurd hk (Nat.not_lt_zero k)
  request := fun l _ h => by rcases h with h | h <;> cases h
  delay := fun h => by rcases h with h | h | h <;> cases h

end Sys2Proof.Tests
end

section
/-! SUPPORT. The STATUS port said once, bit by bit (spec/10_state.md R43); its fields and its value after reset. -/

namespace Sys2Proof.Machine

theorem status_getLsbD_zero (s : State) : s.status.getLsbD 0 = s.busy := by
  simp [State.status]

theorem status_getLsbD_one (s : State) : s.status.getLsbD 1 = (s.drv == .ready) := by
  simp [State.status]

theorem status_getLsbD_two (s : State) : s.status.getLsbD 2 = s.halted := by
  simp [State.status]

/-- Above the three flags only `FAULT_CODE`, shifted to bit 8, reaches STATUS; it has no bit 8 or higher of its own. -/
theorem status_getLsbD_of_three_le (s : State) {k : Nat} (hk : 3 ≤ k) :
    s.status.getLsbD k = (decide (8 ≤ k) && s.faultCode.getLsbD (k - 8)) := by
  have not_busy : k ≠ 0 := by omega
  have not_ready : k - 1 ≠ 0 := by omega
  have not_halted : k - 2 ≠ 0 := by omega
  by_cases inside : k < 32
  · have from_eight : (!decide (k < 8)) = decide (8 ≤ k) := by
      rw [← decide_not, decide_eq_decide, Nat.not_lt]
    simp [State.status, not_busy, not_ready, not_halted, inside, from_eight]
  · have past_status : s.status.getLsbD k = false := BitVec.getLsbD_of_ge _ _ (by omega)
    have past_code : s.faultCode.getLsbD (k - 8) = false := BitVec.getLsbD_of_ge _ _ (by omega)
    simp [past_status, past_code]

/-- The fields 7:3 and 31:16 of R43, and any other that touches neither the flags nor bits 15:8. -/
theorem status_extractLsb'_eq_zero (s : State) {start len : Nat} (hstart : 3 ≤ start)
    (hclear : start + len ≤ 8 ∨ 16 ≤ start) : s.status.extractLsb' start len = 0 := by
  ext i hi
  rw [BitVec.getElem_extractLsb', status_getLsbD_of_three_le s (by omega)]
  rcases hclear with below | above
  · have below_code : ¬ 8 ≤ start + i := by omega
    simp [below_code]
  · have past_code : s.faultCode.getLsbD (start + i - 8) = false := BitVec.getLsbD_of_ge _ _ (by omega)
    simp [past_code]

theorem status_extractLsb'_faultCode (s : State) : s.status.extractLsb' 8 8 = s.faultCode := by
  ext i hi
  rw [BitVec.getElem_extractLsb', status_getLsbD_of_three_le s (by omega)]
  simp [hi]

@[simp] theorem resetFor_status (c : Config.Cfg) : (State.resetFor c).status = 0 := by
  have not_ready : (DrvState.uninitialized == DrvState.ready) = false := by decide
  simp [State.status, State.resetFor, not_ready]

@[simp] theorem resetFor_faultInfoPort (c : Config.Cfg) : (State.resetFor c).faultInfoPort = 0 := rfl

/-- Settles O56: each bit and each field of STATUS by its own lemma, FAULT_INFO by definition, reset for any `CFG`. -/
theorem statusPortBits : Obligations.StatusPortBits := fun s =>
  ⟨status_getLsbD_zero s, status_getLsbD_one s, status_getLsbD_two s,
    status_extractLsb'_eq_zero s (by decide) (.inl (by decide)), status_extractLsb'_faultCode s,
    status_extractLsb'_eq_zero s (by decide) (.inr (by decide)), rfl, resetFor_status _, resetFor_faultInfoPort _⟩

end Sys2Proof.Machine
end

section
/-! SUPPORT. Illegal command words: what the decoder answers for one (spec/30_encoding.md R74, R75) and what the step
that meets it at the port leaves (spec/60_exceptions.md R224). -/

namespace Sys2Proof

/-- The opcodes that have no row (R74). -/
def ReservedOpc (k : BitVec 4) : Prop := k = 0 ∨ 0xC ≤ k.toNat

theorem number_not_reservedOpc (o : Opcode) : ¬ ReservedOpc o.number := by
  unfold ReservedOpc
  cases o <;> decide

theorem legalOpcode_eq_none_of_reservedOpc {w : CmdWord} (hw : ReservedOpc (w.extractLsb' 60 4)) :
    legalOpcode w = none := by
  rw [← commandFields_eta w]
  refine legalOpcode_eq_none fun o ⟨is_row, _⟩ => ?_
  rw [is_row] at hw
  exact number_not_reservedOpc o hw

/-- Only PUTS has a payload, and its opcode is not reserved (R70, R74). -/
theorem payloadLength_eq_zero_of_reservedOpc {w : CmdWord} (hw : ReservedOpc (w.extractLsb' 60 4)) :
    payloadLength w = 0 := by
  have not_puts : w.extractLsb' 60 4 ≠ 9 := by
    intro is_puts
    rw [is_puts] at hw
    exact number_not_reservedOpc .puts hw
  rw [payloadLength, if_neg not_puts]

/-- A word that is no legal command word is itself the offending word, whatever its payload holds (R74, R75, R222). -/
theorem decodeCommand_of_legalOpcode_none {w : CmdWord} (hw : legalOpcode w = none) (payload : List CmdWord) :
    decodeCommand w payload = .error w := by
  rw [decodeCommand, hw]

theorem decode_of_legalOpcode_none {w : CmdWord} {payload rest : List CmdWord} (hw : legalOpcode w = none)
    (hl : payload.length = payloadLength w) : decode (w :: (payload ++ rest)) = .illegal w rest := by
  rw [decode_cons hl, decodeCommand_of_legalOpcode_none hw]

theorem decode_of_reservedOpc {w : CmdWord} (hw : ReservedOpc (w.extractLsb' 60 4)) (rest : List CmdWord) :
    decode (w :: rest) = .illegal w rest :=
  decode_of_legalOpcode_none (payload := []) (legalOpcode_eq_none_of_reservedOpc hw)
    (payloadLength_eq_zero_of_reservedOpc hw).symm

end Sys2Proof

namespace Sys2Proof.Machine

theorem turn_of_accepting {s : State} (ha : Accepting s) : turn s = portTurn s := by
  simp [turn, ha.halted, ha.cfg, ha.seq, ha.busy]

/-- An illegal command at the port of an accepting block takes the fault entry of ILLEGAL_COMMAND (R74, R75, R224). -/
theorem step_illegal {s : State} (ha : Accepting s) {info : CmdWord} {rest : List CmdWord}
    (hd : decode s.port = .illegal info rest) :
    step s = .next (raise .illegalCommand info { s with port := rest }) := by
  have raises : portTurn s = .settled (raise .illegalCommand info { s with port := rest }) := by
    rw [portTurn, hd]
  rw [step, turn_of_accepting ha, raises]

/-- Settles O6: a reserved opcode is no row's, so the decoder answers `.illegal` with the word itself; the rest is the
frame of the fault entry, field by field. -/
theorem reservedOpcodeIsIllegal : Obligations.ReservedOpcodeIsIllegal := by
  intro s w rest ha hport hreserved
  have illegal : decode s.port = .illegal w rest := by rw [hport]; exact decode_of_reservedOpc hreserved rest
  refine ⟨raise .illegalCommand w { s with port := rest }, step_illegal ha illegal, ?_⟩
  simp [FaultCode.code, ha.halted]

end Sys2Proof.Machine
end

section
/-! SUPPORT. RESOLVE, REGR and REGW at the line where each does its work (spec/40_mmio_accessor.md R101 to R103): what
`Lookup` finds, how a failed address check ends an access, and each command's line as an outcome. -/

namespace Sys2Proof.Machine

open Sys2Proof.Config (Cfg)

/-- A line of a command, where `SEQ` names one, is the command's meaning. -/
theorem exec_line {i : Instr} {s s' : State} (hh : s.halted = false) (not_idle : s.seq ≠ .idle)
    (not_complete : s.seq ≠ .complete) (hl : commandLine i s.seq s = some s') : exec i s = .next s' := by
  rw [exec_eq]
  exact runCommand_line hh not_idle not_complete hl

/-! ## `Lookup` (R101) -/

/-- The first pair of an identifier is the map's value for it (R8; notes/assumptions/19.md). -/
theorem lookupBase_of_first {c : Cfg} {p : Word} {b : Nat} {pre post : List (Word × Nat)}
    (hmap : c.platformMap = pre ++ (p, b) :: post) (hpre : ∀ e ∈ pre, e.1 ≠ p) : lookupBase c p = b := by
  have none_before : pre.find? (fun e => e.1 == p) = none := by simpa using hpre
  simp [lookupBase, hmap, List.find?_append, none_before]

theorem lookupBase_of_outside {c : Cfg} {p : Word} (hout : ∀ e ∈ c.platformMap, e.1 ≠ p) :
    lookupBase c p = c.fallbackBase := by
  have not_found : c.platformMap.find? (fun e => e.1 == p) = none := by simpa using hout
  simp [lookupBase, not_found]

theorem exec_resolve_l1 {s : State} (p : Word) (hh : s.halted = false) (hs : s.seq = .resolveL1) :
    exec (.resolve p) s = .next { s with base := lookupBase s.cfg p, seq := .complete } :=
  exec_line hh (by simp [hs]) (by simp [hs]) (by rw [hs]; rfl)

/-- Settles O13: RESOLVE's line writes `Lookup`, which is the map's first pair for the identifier or the fallback. -/
theorem resolveSetsBase : Obligations.ResolveSetsBase := by
  intro s p hh hs
  rw [exec_resolve_l1 p hh hs]
  refine ⟨fun pre post b hmap hpre => ?_, fun hout => ?_⟩
  · rw [lookupBase_of_first hmap hpre]
  · rw [lookupBase_of_outside hout]

/-! ## An access that fails the address checks (R102, R103, R222) -/

theorem addressInfo_of_lt {a : Nat} (h : a < 2 ^ 64) : addressInfo a = BitVec.ofNat 64 a := if_pos h

/-- An offset field has 28 bits, so its `zext_64` is always stated. -/
theorem addressInfo_offset (off : Offset) : addressInfo off.toNat = BitVec.ofNat 64 off.toNat :=
  addressInfo_of_lt (by have := off.isLt; omega)

theorem regRead_trap {s : State} {off : Nat} {f : FaultCode} {info : CmdWord} (hb : s.base ≠ 0)
    (hf : addressFault off s = some (f, info)) : regRead off s = .trap f info s := by
  simp [regRead, hb, hf]

theorem regWrite_trap {s : State} {off : Nat} {f : FaultCode} {info : CmdWord} (v : Word) (hb : s.base ≠ 0)
    (hf : addressFault off s = some (f, info)) : regWrite off v s = .trap f info s := by
  simp [regWrite, hb, hf]

/-! ## L1 of REGR (R102, R105) -/

theorem exec_regr_l1 {s : State} (off : Offset) (hh : s.halted = false) (hs : s.seq = .regrL1) :
    exec (.regr off) s = .next ((regRead off.toNat s).orRaise fun v s => s.goto (.regrL2 v)) :=
  exec_line hh (by simp [hs]) (by simp [hs]) (by rw [hs]; rfl)

theorem exec_regr_trap {s : State} {off : Offset} {f : FaultCode} {info : CmdWord} (hh : s.halted = false)
    (hs : s.seq = .regrL1) (hb : s.base ≠ 0) (hf : addressFault off.toNat s = some (f, info)) :
    exec (.regr off) s = .next (faultEntered f.code info s) := by
  rw [exec_regr_l1 off hh hs, regRead_trap hb hf]
  rfl

theorem exec_regr_reaches {s : State} {off : Offset} (hh : s.halted = false) (hs : s.seq = .regrL1)
    (hr : Reaches off.toNat s) : LineReads (s.base + off.toNat) .regrL2 s (exec (.regr off) s) := by
  rw [exec_regr_l1 off hh hs]
  exact lineReads_regRead .regrL2 hr

/-- Settles O14: one outcome each for the guard, the two address checks, and the two answers of the device. -/
theorem regrReadsThroughTheAccessor : Obligations.RegrReadsThroughTheAccessor := by
  intro s off hh hs
  refine ⟨fun unresolved => ?_, fun resolved overflow => ?_, fun resolved fits misaligned => ?_,
    fun hr => (exec_regr_reaches hh hs hr).error, fun hr => (exec_regr_reaches hh hs hr).good⟩
  · rw [exec_regr_l1 off hh hs, regRead_unresolved _ unresolved]
    rfl
  · rw [← addressInfo_offset]
    exact exec_regr_trap hh hs resolved (addressFault_overflow overflow)
  · exact ⟨addressInfo (s.base + off.toNat), addressInfo_of_lt,
      exec_regr_trap hh hs resolved (addressFault_misaligned fits misaligned)⟩

/-! ## The line of REGW (R103, R108) -/

theorem exec_regw_l1 {s : State} (off : Offset) (v : Word) (hh : s.halted = false) (hs : s.seq = .regwL1) :
    exec (.regw off v) s = .next (writeLine off.toNat v .complete s) :=
  exec_line hh (by simp [hs]) (by simp [hs]) (by rw [hs]; rfl)

theorem exec_regw_trap {s : State} {off : Offset} {f : FaultCode} {info : CmdWord} (v : Word)
    (hh : s.halted = false) (hs : s.seq = .regwL1) (hb : s.base ≠ 0)
    (hf : addressFault off.toNat s = some (f, info)) :
    exec (.regw off v) s = .next (faultEntered f.code info s) := by
  rw [exec_regw_l1 off v hh hs, writeLine, regWrite_trap v hb hf]
  rfl

theorem exec_regw_reaches {s : State} {off : Offset} (v : Word) (hh : s.halted = false) (hs : s.seq = .regwL1)
    (hr : Reaches off.toNat s) : LineWrites (s.base + off.toNat) v .complete s (exec (.regw off v) s) := by
  rw [exec_regw_l1 off v hh hs]
  exact lineWrites_writeLine v .complete hr

/-- Settles O16: one outcome each for the guard, the two address checks, and the two answers of the device. -/
theorem regwWritesThroughTheAccessor : Obligations.RegwWritesThroughTheAccessor := by
  intro s off v hh hs
  refine ⟨fun unresolved => ?_, fun resolved overflow => ?_, fun resolved fits misaligned => ?_,
    fun hr => (exec_regw_reaches v hh hs hr).error, fun hr => (exec_regw_reaches v hh hs hr).good⟩
  · rw [exec_regw_l1 off v hh hs, writeLine_unresolved _ _ _ unresolved]
    rfl
  · rw [← addressInfo_offset]
    exact exec_regw_trap v hh hs resolved (addressFault_overflow overflow)
  · exact ⟨addressInfo (s.base + off.toNat), addressInfo_of_lt,
      exec_regw_trap v hh hs resolved (addressFault_misaligned fits misaligned)⟩

end Sys2Proof.Machine
end

section
/-! SUPPORT. MBOX at M1 (spec/42_mailbox.md R131): the fields of the request word, and the line that latches it. -/

namespace Sys2Proof.Machine

open Sys2Proof.Config (Cfg)

/-! ## The request word (R131) -/

/-- The mask clears bits 3:0 of the address, so only the channel stands there. -/
theorem requestWord_channel (c : Cfg) : (requestWord c).extractLsb' 0 4 = BitVec.ofNat 4 c.mboxChannel := by
  have mask_clears : BitVec.extractLsb' 0 4 (0xFFFFFFF0 : Word) = 0#4 := by decide
  have channel_field : (BitVec.ofNat 32 c.mboxChannel).extractLsb' 0 4 = BitVec.ofNat 4 c.mboxChannel :=
    BitVec.eq_of_toNat_eq (by simp)
  rw [requestWord, BitVec.extractLsb'_or, BitVec.extractLsb'_and, mask_clears, channel_field, BitVec.and_zero,
    BitVec.zero_or]

/-- The mask keeps bits 31:4 of the address, and a channel of four bits has none there (R9 (d)). -/
theorem requestWord_address {c : Cfg} (hc : c.mboxChannel < 16) :
    (requestWord c).extractLsb' 4 28 = (BitVec.ofNat 32 c.mboxMsgAddr).extractLsb' 4 28 := by
  have mask_keeps : BitVec.extractLsb' 4 28 (0xFFFFFFF0 : Word) = BitVec.allOnes 28 := by decide
  have channel_below : (BitVec.ofNat 32 c.mboxChannel).extractLsb' 4 28 = 0#28 := by
    apply BitVec.eq_of_toNat_eq
    simp only [BitVec.extractLsb'_toNat, BitVec.toNat_ofNat, Nat.shiftRight_eq_div_pow]
    omega
  rw [requestWord, BitVec.extractLsb'_or, BitVec.extractLsb'_and, mask_keeps, channel_below, BitVec.and_allOnes,
    BitVec.or_zero]

/-- The message address is aligned, not 0 and of 32 bits (R9 (e)), so bits 31:4 of it are not all clear. -/
theorem address_field_ne_zero {c : Cfg} (aligned : c.mboxMsgAddr % 16 = 0) (nonzero : c.mboxMsgAddr ≠ 0)
    (fits : c.mboxMsgAddr < 2 ^ 32) : (BitVec.ofNat 32 c.mboxMsgAddr).extractLsb' 4 28 ≠ 0#28 := by
  intro clear
  have clear_nat := congrArg BitVec.toNat clear
  simp only [BitVec.extractLsb'_toNat, BitVec.toNat_ofNat, Nat.shiftRight_eq_div_pow] at clear_nat
  omega

theorem requestWord_ne_zero {c : Cfg} (hv : c.valid = true) : requestWord c ≠ 0 := by
  obtain ⟨channel_lt, aligned, nonzero, fits, -⟩ := valid_rest hv
  intro zero
  apply address_field_ne_zero aligned nonzero fits
  rw [← requestWord_address channel_lt, zero]
  rfl

/-! ## M1 -/

theorem exec_mbox_m1 {s : State} (hh : s.halted = false) (hs : s.seq = .mbox .m1) :
    exec .mbox s = .next { s with mreq := requestWord s.cfg, seq := .mbox .m2 } :=
  exec_line hh (by simp [hs]) (by simp [hs]) (by rw [hs]; rfl)

/-- Settles O20: M1 latches `requestWord`, whose fields and whose being nonzero are facts about a valid `CFG`. -/
theorem requestWordCarriesAddressAndChannel : Obligations.RequestWordCarriesAddressAndChannel := by
  intro s hv hh hs
  obtain ⟨channel_lt, -⟩ := valid_rest hv
  exact ⟨requestWord s.cfg, exec_mbox_m1 hh hs, rfl, requestWord_address channel_lt, requestWord_channel s.cfg,
    requestWord_ne_zero hv⟩

end Sys2Proof.Machine
end

section
/-! SUPPORT. The entry check of the byte commands and the response of GETS (spec/44_uart_io.md R180, R191, R199), with
what each byte position of packed bytes holds (spec/30_encoding.md R78, R79). -/

namespace Sys2Proof

theorem ne_nil_of_getElem?_packBytes {bs : List Byte} {j : Nat} {w : CmdWord} (hw : (packBytes bs)[j]? = some w) :
    bs ≠ [] := by
  rintro rfl
  simp [packBytes_nil] at hw

/-- Packing puts eight bytes in a word, so byte `r` of word `j` is byte `8 * j + r`, and zero behind the last byte. -/
theorem byteAt_of_getElem?_packBytes {bs : List Byte} {j r : Nat} {w : CmdWord} (hr : r < 8)
    (hw : (packBytes bs)[j]? = some w) : byteAt w r = bs.getD (8 * j + r) 0 := by
  induction j generalizing bs with
  | zero =>
    rw [packBytes_cons (ne_nil_of_getElem?_packBytes hw)] at hw
    have first_word : packWord (bs.take 8) = w := by simpa using hw
    rw [← first_word, byteAt_packWord _ _ hr]
    simp [List.getD, hr]
  | succ j ih =>
    rw [packBytes_cons (ne_nil_of_getElem?_packBytes hw), List.getElem?_cons_succ] at hw
    rw [ih hw]
    simp [List.getD, show 8 + (8 * j + r) = 8 * (j + 1) + r by omega]

/-- A read behind the first `n` bytes finds the padding of R79. -/
theorem getD_take (bs : List Byte) (n k : Nat) : (bs.take n).getD k 0 = if k < n then bs.getD k 0 else 0 := by
  by_cases inside : k < n <;> simp [List.getD, inside]

end Sys2Proof

namespace Sys2Proof.Machine

/-! ## The entry check (R180) -/

theorem entryCheck_unready {s : State} (i : Instr) (first : Seq) (unready : s.drv = .uninitialized)
    (resolved : s.base ≠ 0) : entryCheck i first s = faultEntered 5 (commandWord i) s :=
  if_pos ⟨unready, resolved⟩

theorem entryCheck_passes {s : State} (i : Instr) (first : Seq) (h : s.drv = .ready ∨ s.base = 0) :
    entryCheck i first s = s.goto first := by
  refine if_neg fun ⟨unready, resolved⟩ => ?_
  rcases h with ready | unresolved
  · rw [ready] at unready
    cases unready
  · exact resolved unresolved

/-- A command whose line E0 is the entry check meets R180's two outcomes there. -/
theorem exec_entryCheck {i : Instr} {first : Seq} {s : State} (hh : s.halted = false) (hs : s.seq = .e0)
    (hl : commandLine i .e0 s = some (entryCheck i first s)) :
    (s.drv = .uninitialized → s.base ≠ 0 → exec i s = .next (faultEntered 5 (commandWord i) s)) ∧
    ((s.drv = .ready ∨ s.base = 0) → exec i s = .next { s with seq := first }) := by
  have checks : exec i s = .next (entryCheck i first s) :=
    exec_line hh (by simp [hs]) (by simp [hs]) (by rw [hs]; exact hl)
  refine ⟨fun unready resolved => ?_, fun h => ?_⟩
  · rw [checks, entryCheck_unready i first unready resolved]
  · rw [checks, entryCheck_passes i first h]
    rfl

/-- PUTS starts at its byte 0, and one with no byte at its completion (R190, R191). -/
theorem putsAt_zero (n : Offset) : putsAt n 0 = if n = 0 then .complete else .puts 0 .t1 := by
  by_cases empty : n = 0
  · subst empty
    rfl
  · have positive : 0 < n.toNat := by bv_omega
    rw [if_neg empty]
    exact if_pos positive

/-- Settles O29: E0 of each of the four commands is `entryCheck` with the command's own first line. -/
theorem byteCommandsCheckTheDriverFirst : Obligations.ByteCommandsCheckTheDriverFirst := by
  intro s i w l hh hs hcommand
  rcases hcommand with ⟨b, rfl, rfl, rfl⟩ | ⟨rfl, rfl, rfl⟩ | ⟨n, text, rfl, rfl, rfl⟩ | ⟨rfl, rfl, rfl⟩
  case inl => exact exec_entryCheck hh hs rfl
  case inr.inl => exact exec_entryCheck hh hs rfl
  case inr.inr.inl =>
    rw [← putsAt_zero]
    exact exec_entryCheck (i := .puts n text) hh hs rfl
  case inr.inr.inr => exact exec_entryCheck hh hs rfl

/-! ## The response of GETS (R199) -/

theorem exec_gets_g9 {s : State} (hh : s.halted = false) (hs : s.seq = .gets .g9) :
    exec .gets s = .next { s with respq := s.respq ++ lineResponse s, seq := .complete } :=
  exec_line hh (by simp [hs]) (by simp [hs]) (by rw [hs]; rfl)

theorem line_length {s : State} (fits : s.len.toNat ≤ 128) :
    (s.lb.toList.take s.len.toNat).length = s.len.toNat := by
  simpa using fits

/-- Settles O39: G9 appends `lineResponse`; the number of its words and the bytes in them are facts about `packBytes`. -/
theorem getsRespondsWithTheLine : Obligations.GetsRespondsWithTheLine := by
  intro s hh hs fits
  refine ⟨packBytes (s.lb.toList.take s.len.toNat), exec_gets_g9 hh hs, ?_, fun k w hw => ?_⟩
  · rw [packBytes_length, line_length fits, payloadCount]
  · calc w.extractLsb' (8 * (k % 8)) 8
      _ = (s.lb.toList.take s.len.toNat).getD (8 * (k / 8) + k % 8) 0 :=
        byteAt_of_getElem?_packBytes (Nat.mod_lt k (by decide)) hw
      _ = (s.lb.toList.take s.len.toNat).getD k 0 := by rw [Nat.div_add_mod]
      _ = if k < s.len.toNat then s.lb.toList.getD k 0 else 0 := getD_take _ _ k

end Sys2Proof.Machine
end

section
/-! SUPPORT. The state right after reset (spec/70_reset_and_hazards.md R260). -/

namespace Sys2Proof.Machine

/-- The reference configuration enters reset only through `CFG`: what holds of `State.resetFor` holds of it. -/
theorem reset_eq_resetFor_cfg : State.reset = State.resetFor State.reset.cfg := rfl

/-- Settles O54: each register of R260 is a field that `State.resetFor` sets to the constant named here, whatever `CFG`
is; the STATUS and FAULT_INFO ports are functions of those fields, with their values at reset said above. -/
theorem resetValues : Obligations.ResetValues := by
  refine ⟨reset_eq_resetFor_cfg, fun c => ⟨?base, ?drv, ?halted, ?busy, ?seq, ?cur, ?faultCode, ?faultInfo, ?len, ?pidx,
    ?respq, ?port, ?status, ?faultInfoPort⟩⟩
  case status => exact resetFor_status c
  case faultInfoPort => exact resetFor_faultInfoPort c
  all_goals rfl

end Sys2Proof.Machine
end

section
/-! SUPPORT. The encoding read both ways (spec/30_encoding.md R70 to R79): the words of a command decode to it, decoded
words are the command's own; what the decoder answers for a nonzero must-be-zero field or padding byte. -/

namespace Sys2Proof

/-! ## From a command to its words and back -/

/-- R71 to R75: the command word of a well-formed command selects its own row, with the must-be-zero fields zero. -/
theorem legalOpcode_commandWord {i : Instr} (hi : i.wellFormed = true) : legalOpcode (commandWord i) = some i.opcode := by
  cases i with
  | resolve platform => exact Laws.RowMatches.resolve platform hi
  | regr off => exact Laws.RowMatches.regr off hi
  | regw off value => exact Laws.RowMatches.regw off value hi
  | delay count => exact Laws.RowMatches.delay count hi
  | mbox => exact Laws.RowMatches.mbox hi
  | init platform => exact Laws.RowMatches.init platform hi
  | putb byte => exact Laws.RowMatches.putb byte hi
  | getb => exact Laws.RowMatches.getb hi
  | puts n text => exact Laws.RowMatches.puts n text hi
  | gets => exact Laws.RowMatches.gets hi
  | panic => exact Laws.RowMatches.panic hi

/-- R77: PUTS is well formed where its count is the number of its bytes. -/
theorem wellFormed_puts {n : Offset} {text : List Byte} :
    (Instr.puts n text).wellFormed = true ↔ text.length = n.toNat := by
  simp [Instr.wellFormed]

/-- R70: the command word tells how many payload words the encoding has. -/
theorem payloadLength_commandWord {i : Instr} (hi : i.wellFormed = true) :
    payloadLength (commandWord i) = (payloadWords i).length := by
  cases i with
  | puts n text =>
    rw [commandWord, payloadLength_commandFields, payloadWords, packBytes_length, wellFormed_puts.mp hi]
    rfl
  | _ => rw [commandWord, payloadLength_commandFields]; rfl

theorem extractLsb'_setWidth_byte (b : Byte) : (b.setWidth 32).extractLsb' 0 8 = b := by
  ext k hk
  simp [hk, show k < 32 by omega]

/-- The bytes packed for `n` bytes of text start with the text (R78). -/
theorem take_payloadBytes_packBytes (text : List Byte) :
    (payloadBytes (packBytes text)).take text.length = text := by
  rw [payloadBytes_packBytes, List.take_left]

/-- Packed bytes have zero padding (R79). -/
theorem paddingZero_packBytes (text : List Byte) : paddingZero text.length (packBytes text) = true := by
  rw [paddingZero, payloadBytes_packBytes, List.drop_left]
  simp

/-- R76, R77: the operands read from a command's own words are the command's. -/
theorem assembleOperands_encode {i : Instr} (hi : i.wellFormed = true) :
    assembleOperands i.opcode (commandWord i) (payloadWords i) = i := by
  cases i with
  | putb byte => simp [assembleOperands, Instr.opcode, commandWord, extractLsb'_setWidth_byte]
  | puts n text =>
    simp only [assembleOperands, Instr.opcode, commandWord, payloadWords, fieldA_commandFields]
    rw [← wellFormed_puts.mp hi, take_payloadBytes_packBytes]
  | _ => simp [assembleOperands, Instr.opcode, commandWord]

/-- R79: only PUTS has padding to check, and the encoder's is zero. -/
theorem padding_of_encode {i : Instr} (hi : i.wellFormed = true) (hp : i.opcode = .puts) :
    paddingZero (fieldA (commandWord i)).toNat (payloadWords i) = true := by
  cases i with
  | puts n text =>
    rw [commandWord, fieldA_commandFields, payloadWords, ← wellFormed_puts.mp hi]
    exact paddingZero_packBytes text
  | _ => cases hp

theorem decodeCommand_encode {i : Instr} (hi : i.wellFormed = true) :
    decodeCommand (commandWord i) (payloadWords i) = .ok i := by
  simp only [decodeCommand, legalOpcode_commandWord hi, assembleOperands_encode hi]
  refine if_neg fun bad => ?_
  simp only [Bool.and_eq_true, decide_eq_true_eq, Bool.not_eq_true'] at bad
  rw [padding_of_encode hi bad.1] at bad
  exact absurd bad.2 (by decide)

/-- Settles O1: the command word tells the payload's length, so the decoder cuts the words where the encoder ended. -/
theorem decodeOfEncodeIsTheCommand : Obligations.DecodeOfEncodeIsTheCommand := by
  intro i rest hi
  rw [encode, List.cons_append, decode_cons (payloadLength_commandWord hi).symm, decodeCommand_encode hi]

/-! ## From words to the command and back -/

/-- A legal command word is its opcode's number over its fields, with the must-be-zero bits zero (R71 to R75). -/
theorem eq_commandFields_of_legalOpcode {w : CmdWord} {o : Opcode} (h : legalOpcode w = some o) :
    ∃ a b, w = commandFields o.number a b ∧ a &&& o.zeroA = 0 ∧ b &&& o.zeroB = 0 := by
  rw [← commandFields_eta w] at h
  obtain ⟨is_row, zero_a, zero_b⟩ := legalOpcode_eq_some.mp h
  exact ⟨fieldA w, fieldB w, by rw [← is_row, commandFields_eta], zero_a, zero_b⟩

/-- What the decoder reads from a command word and its payload: a legal word whose padding, for PUTS, is zero. -/
theorem decodeCommand_eq_ok {w : CmdWord} {payload : List CmdWord} {i : Instr} (h : decodeCommand w payload = .ok i) :
    ∃ o, legalOpcode w = some o ∧ (o = .puts → paddingZero (fieldA w).toNat payload = true) ∧
      i = assembleOperands o w payload := by
  unfold decodeCommand at h
  split at h
  next => cases h
  next o ho =>
    split at h
    next => cases h
    next good =>
      cases h
      exact ⟨o, ho, fun is_puts => by simpa [is_puts] using good, rfl⟩

/-- Words that decode to a command are a command word, its payload and the rest (R70). -/
theorem decode_eq_command {ws rest : List CmdWord} {i : Instr} (h : decode ws = .command i rest) :
    ∃ w payload, ws = w :: (payload ++ rest) ∧ payload.length = payloadLength w ∧ decodeCommand w payload = .ok i := by
  cases ws with
  | nil => cases h
  | cons w behind =>
    rw [decode] at h
    split at h
    next => cases h
    next enough =>
      have length : (behind.take (payloadLength w)).length = payloadLength w :=
        List.length_take_of_le (Nat.le_of_not_lt enough)
      cases hd : decodeCommand w (behind.take (payloadLength w)) with
      | error info => rw [hd] at h; cases h
      | ok j =>
        rw [hd] at h
        obtain ⟨rfl, rfl⟩ := Decoded.command.inj h
        exact ⟨w, _, by rw [List.take_append_drop], length, hd⟩

theorem payloadBytes_length (ws : List CmdWord) : (payloadBytes ws).length = 8 * ws.length := by
  simp [payloadBytes, wordBytes_length, List.length_flatMap, Nat.mul_comm]

/-- A byte's word has no bit above bit 7. -/
theorem setWidth_extractLsb'_byte {b : Word} (h : b &&& 0xFFFFFF00 = 0) : (b.extractLsb' 0 8).setWidth 32 = b := by
  have upper : b.extractLsb' 8 24 = 0#24 := (upper_zero_iff b).mpr h
  refine BitVec.eq_of_toNat_eq ?_
  have high : b.toNat / 256 = 0 := by
    have := congrArg BitVec.toNat upper
    simp only [BitVec.extractLsb'_toNat, Nat.shiftRight_eq_div_pow, BitVec.toNat_zero] at this
    have := b.isLt
    omega
  simp only [BitVec.toNat_setWidth, BitVec.extractLsb'_toNat, Nat.shiftRight_zero]
  omega

/-- The words of a legal command word and its payload are the encoding of the operands read from them. -/
theorem encode_assembleOperands {o : Opcode} {a : Offset} {b : Word} {payload : List CmdWord}
    (hl : payload.length = payloadLength (commandFields o.number a b)) (hz : a &&& o.zeroA = 0 ∧ b &&& o.zeroB = 0)
    (hp : o = .puts → paddingZero a.toNat payload = true) :
    (assembleOperands o (commandFields o.number a b) payload).wellFormed = true ∧
      encode (assembleOperands o (commandFields o.number a b) payload) = commandFields o.number a b :: payload := by
  obtain ⟨zero_a, zero_b⟩ := hz
  have allA : ∀ x : Offset, x &&& BitVec.allOnes 28 = 0 → x = 0 := fun x hx => by rwa [BitVec.and_allOnes] at hx
  have allB : ∀ x : Word, x &&& BitVec.allOnes 32 = 0 → x = 0 := fun x hx => by rwa [BitVec.and_allOnes] at hx
  rw [payloadLength_commandFields] at hl
  cases o with
  | puts =>
    have count : payload.length = payloadCount a.toNat := hl
    have fits : ((payloadBytes payload).take a.toNat).length = a.toNat := by
      simp only [List.length_take, payloadBytes_length, count, payloadCount]
      omega
    simp only [assembleOperands, fieldA_commandFields, wellFormed_puts, fits, true_and]
    rw [encode, commandWord, payloadWords, packBytes_payloadBytes _ _ count (hp rfl), allB b zero_b]
    rfl
  | putb =>
    have no_payload : payload = [] := List.length_eq_zero_iff.mp hl
    simp [assembleOperands, Instr.wellFormed, encode, commandWord, payloadWords, no_payload, Opcode.number,
      allA a zero_a, setWidth_extractLsb'_byte zero_b]
  | regw =>
    have no_payload : payload = [] := List.length_eq_zero_iff.mp hl
    simp [assembleOperands, Instr.wellFormed, encode, commandWord, payloadWords, no_payload, Opcode.number]
  | regr =>
    have no_payload : payload = [] := List.length_eq_zero_iff.mp hl
    simp [assembleOperands, Instr.wellFormed, encode, commandWord, payloadWords, no_payload, Opcode.number,
      allB b zero_b]
  | resolve | delay | init =>
    have no_payload : payload = [] := List.length_eq_zero_iff.mp hl
    simp [assembleOperands, Instr.wellFormed, encode, commandWord, payloadWords, no_payload, Opcode.number,
      allA a zero_a]
  | mbox | getb | gets | panic =>
    have no_payload : payload = [] := List.length_eq_zero_iff.mp hl
    simp [assembleOperands, Instr.wellFormed, encode, commandWord, payloadWords, no_payload, Opcode.number,
      allA a zero_a, allB b zero_b]

/-- Settles O2: the decoder checked every bit of the words that the encoder writes from the operands. -/
theorem encodeOfDecodeIsTheWords : Obligations.EncodeOfDecodeIsTheWords := by
  intro ws rest i h
  obtain ⟨w, payload, rfl, hl, hd⟩ := decode_eq_command h
  obtain ⟨o, legal, padding, rfl⟩ := decodeCommand_eq_ok hd
  obtain ⟨a, b, rfl, zero⟩ := eq_commandFields_of_legalOpcode legal
  rw [fieldA_commandFields] at padding
  obtain ⟨well_formed, words⟩ := encode_assembleOperands hl zero padding
  exact ⟨well_formed, by rw [words, List.cons_append]⟩

/-! ## The table and the examples -/

/-- Settles O3: a word selects at most one row. -/
theorem noTwoRowsSelectOneWord : Obligations.NoTwoRowsSelectOneWord := by
  intro w o o' h h'
  have row : selectOpcode w = some o := selectOpcode_eq_some.mpr (beq_iff_eq.mpr h)
  have row' : selectOpcode w = some o' := selectOpcode_eq_some.mpr (beq_iff_eq.mpr h')
  exact Option.some_injective _ (row.symm.trans row')

/-- An example's words decode to a command where they are the command's encoding. -/
theorem decode_of_eq_encode {i : Instr} {ws : List CmdWord} (hi : i.wellFormed = true) (hw : encode i = ws) :
    decode ws = .command i [] := by
  have := decodeOfEncodeIsTheCommand i [] hi
  rwa [List.append_nil, hw] at this

/-- Settles O4: each example is the encoding of the command it stands for. -/
theorem encodingExamplesDecode : Obligations.EncodingExamplesDecode :=
  ⟨decode_of_eq_encode rfl (by decide), decode_of_eq_encode rfl (by decide), decode_of_eq_encode rfl (by decide),
    decode_of_eq_encode rfl (by decide), decode_of_eq_encode rfl (by decide), decode_of_eq_encode rfl (by decide),
    decode_of_eq_encode rfl (by decide), decode_of_eq_encode rfl (by decide), decode_of_eq_encode rfl (by decide)⟩

end Sys2Proof

namespace Sys2Proof.Machine

/-! ## Words that wait and words that are illegal -/

theorem step_waits {s : State} (ha : Accepting s) (hd : decode s.port = .incomplete) : step s = .next s := by
  have waits : portTurn s = .settled s := by rw [portTurn, hd]
  rw [step, turn_of_accepting ha, waits]

/-- Settles O5: the decoder answers `.incomplete` for no word, and for a word whose payload is not there yet. -/
theorem incompleteCommandWaits : Obligations.IncompleteCommandWaits := by
  intro s ha
  refine ⟨fun empty => step_waits ha (by rw [empty]; rfl), fun w rest hport missing => step_waits ha ?_⟩
  have short : rest.length < payloadLength w := missing
  rw [hport, decode, if_pos short]

/-- The must-be-zero fields that R72 names, opcode by opcode, violated. -/
theorem legalOpcode_eq_none_of_nonzero {opc : BitVec 4} {a : Offset} {b : Word}
    (h : (opc ∈ [0x1, 0x4, 0x6] ∧ a ≠ 0) ∨ (opc ∈ [0x2, 0x9] ∧ b ≠ 0) ∨
      (opc ∈ [0x5, 0x8, 0xA, 0xB] ∧ (a ≠ 0 ∨ b ≠ 0)) ∨ (opc = 0x7 ∧ (a ≠ 0 ∨ 0x100 ≤ b.toNat))) :
    legalOpcode (commandFields opc a b) = none := by
  refine legalOpcode_eq_none fun o ⟨is_row, zero_a, zero_b⟩ => ?_
  have allA : o.zeroA = BitVec.allOnes 28 → a = 0 := fun e => by rwa [e, BitVec.and_allOnes] at zero_a
  have allB : o.zeroB = BitVec.allOnes 32 → b = 0 := fun e => by rwa [e, BitVec.and_allOnes] at zero_b
  have low_byte : o = .putb → b.toNat < 0x100 := by
    rintro rfl
    rw [← setWidth_extractLsb'_byte zero_b, BitVec.toNat_setWidth, Nat.mod_eq_of_lt (by omega)]
    exact (b.extractLsb' 0 8).isLt
  subst is_row
  cases o with
  | resolve | delay | init =>
    have nonzero : a ≠ 0 := by simpa [Opcode.number] using h
    exact nonzero (allA rfl)
  | regr | puts =>
    have nonzero : b ≠ 0 := by simpa [Opcode.number] using h
    exact nonzero (allB rfl)
  | regw => simp [Opcode.number] at h
  | mbox | getb | gets | panic =>
    have nonzero : a ≠ 0 ∨ b ≠ 0 := by simpa [Opcode.number] using h
    exact nonzero.elim (fun nz => nz (allA rfl)) fun nz => nz (allB rfl)
  | putb =>
    have nonzero : a ≠ 0 ∨ 0x100 ≤ b.toNat := by simpa [Opcode.number] using h
    exact nonzero.elim (fun nz => nz (allA rfl)) (Nat.not_le.mpr (low_byte rfl))

/-- Settles O7: a nonzero must-be-zero field leaves the word without a row, so the word itself is the offending one. -/
theorem mustBeZeroBitIsIllegal : Obligations.MustBeZeroBitIsIllegal := by
  intro s opc a b payload rest ha hport hlength hnonzero
  have length : payload.length = payloadLength (commandFields opc a b) := by
    rw [hlength, payloadLength_commandFields, payloadCount]
  have illegal : decode s.port = .illegal (commandFields opc a b) rest := by
    rw [hport, List.cons_append]
    exact decode_of_legalOpcode_none (legalOpcode_eq_none_of_nonzero hnonzero) length
  exact step_illegal ha illegal

/-- A byte of the last payload word behind the text is padding (R79). -/
theorem paddingZero_last {n k : Nat} {payload : List CmdWord} {last : CmdWord} (hl : payload.length + 1 = (n + 7) / 8)
    (inside : n % 8 ≠ 0) (hk : n % 8 ≤ k) (hk8 : k < 8) (h : paddingZero n (payload ++ [last]) = true) :
    byteAt last k = 0 := by
  have bytes : payloadBytes (payload ++ [last]) = payloadBytes payload ++ wordBytes last := by simp [payloadBytes]
  have is_padding : byteAt last k ∈ (payloadBytes (payload ++ [last])).drop n := by
    rw [bytes, List.drop_append, List.mem_append]
    right
    rw [List.mem_drop_iff_getElem]
    refine ⟨k - n % 8, ?_, ?_⟩
    · rw [wordBytes_length, payloadBytes_length]; omega
    · simp only [wordBytes_eq, List.getElem_map, List.getElem_range, payloadBytes_length]
      congr 1
      omega
  simpa using List.all_eq_true.mp h _ is_padding

/-- Settles O8: the padding check fails at the last payload word, which is then the offending one. -/
theorem nonzeroPaddingIsIllegal : Obligations.NonzeroPaddingIsIllegal := by
  intro s n payload rest last k ha hport hlength inside hk hk8 nonzero
  have legal : legalOpcode (commandFields 0x9 n 0) = some .puts := Laws.RowMatches.puts n (List.replicate n.toNat 0)
    (wellFormed_puts.mpr List.length_replicate)
  have bad_padding : paddingZero n.toNat (payload ++ [last]) = false := by
    rw [← Bool.not_eq_true]
    exact fun good => nonzero (paddingZero_last hlength inside hk hk8 good)
  have length : (payload ++ [last]).length = payloadLength (commandFields 0x9 n 0) := by
    rw [payloadLength_commandFields, List.length_append]
    exact hlength
  have illegal : decode s.port = .illegal last rest := by
    have words : s.port = commandFields 0x9 n 0 :: ((payload ++ [last]) ++ rest) := hport
    rw [words, decode_cons length, decodeCommand, legal]
    simp [bad_padding]
  exact step_illegal ha illegal

end Sys2Proof.Machine
end

section
/-! SUPPORT. The lines of every command in one normal form: a line is one guarded read and a position its value selects,
one guarded write and the next position, or an internal update. `commandLine_iff` ties the tables to the model; every claim
about the lines of commands starts from them. -/

namespace Sys2Proof.Machine

open Sys2Proof.Config (Cfg BusEvent)

/-! ## The shared bodies and the commands they stand in -/

/-- Where a `TxByte` stands in a command (R183, R190, R193): its lines, its byte, and what follows it. -/
inductive SendsAt : Instr → (TxLine → Seq) → Byte → Seq → Prop where
  | putb (b : Byte) : SendsAt (.putb b) .putb b .complete
  | puts (n : Offset) (text : List Byte) (k : Nat) :
      SendsAt (.puts n text) (.puts k) (textByte text k) (putsAt n (k + 1))
  | echoMore (b b' : Byte) (more : List Byte) (k : EchoThen) :
      SendsAt .gets (fun l => .gets (.echo b (b' :: more) l k)) b (.gets (.echo b' more .t1 k))
  | echoLast (b : Byte) (k : EchoThen) : SendsAt .gets (fun l => .gets (.echo b [] l k)) b (.gets k.line)

/-- Where an `RxByte` stands in a command (R186, R193): its lines, and the position its byte leads to. -/
inductive ReceivesAt : Instr → (RxLine → Seq) → (Byte → Seq) → Prop where
  | getb : ReceivesAt .getb .getbQ1 .getbQ2
  | gets : ReceivesAt .gets (fun l => .gets (.g2 l)) (fun b => .gets (classify b))

/-- Where the handshake stands in a command (R130, R158): its lines, and what follows it. -/
inductive HandshakesAt : Instr → (MboxLine → Seq) → Seq → Prop where
  | mbox : HandshakesAt .mbox .mbox .complete
  | init (p : Word) : HandshakesAt (.init p) (fun l => .init (.s7m l)) (.init .s8a)

/-- Where a delay stands in a command (R120, R123): its lines, its count, and what follows it. -/
inductive CountsAt : Instr → (DelayLine → Seq) → Word → Seq → Prop where
  | delay (count : Word) : CountsAt (.delay count) .delay count .complete
  | s3d (p : Word) : CountsAt (.init p) (fun l => .init (.s3d l)) Config.settle (.init .s4)
  | s4d (p : Word) : CountsAt (.init p) (fun l => .init (.s4d l)) Config.settle (.init .s5)

/-- The commands with an entry check (R180), and the first line behind it. -/
inductive ChecksEntry : Instr → Seq → Prop where
  | putb (b : Byte) : ChecksEntry (.putb b) (.putb .t1)
  | getb : ChecksEntry .getb (.getbQ1 .x1)
  | puts (n : Offset) (text : List Byte) : ChecksEntry (.puts n text) (putsAt n 0)
  | gets : ChecksEntry .gets (.gets .g0)

/-- The writing lines of INIT (R150): the line, its register, its value, the next line. -/
inductive InitWrites (c : Cfg) : InitLine → Nat → Word → InitLine → Prop where
  | s2 : InitWrites c .s2 c.off.uartCr c.val.crOff .s3
  | s3 : InitWrites c .s3 c.off.gppud c.val.pudOff (.s3d .l1)
  | s4 : InitWrites c .s4 c.off.gppudclk0 c.val.pudclkUart (.s4d .l1)
  | s5 : InitWrites c .s5 c.off.gppudclk0 c.val.pudclkNone .s6
  | s6 : InitWrites c .s6 c.off.uartIcr c.val.icrAll .s7
  | s8a : InitWrites c .s8a c.off.uartIbrd Config.ibrdVal .s8b
  | s8b : InitWrites c .s8b c.off.uartFbrd Config.fbrdVal .s9
  | s9 : InitWrites c .s9 c.off.uartLcrh c.val.lcrh .s10
  | s10 : InitWrites c .s10 c.off.uartImsc c.val.imsc .s11
  | s11 : InitWrites c .s11 c.off.uartCr c.val.crOn .s12

/-! ## The tables -/

/-- The reading lines: the register, and the position each value leads to. `mreq` is `MREQ`. -/
inductive ReadsAt (c : Cfg) (mreq : Word) : Instr → Seq → Nat → (Word → Seq) → Prop where
  | regr (off : Offset) : ReadsAt c mreq (.regr off) .regrL1 off.toNat .regrL2
  | txff {i : Instr} {inside : TxLine → Seq} {b : Byte} {next : Seq} : SendsAt i inside b next →
      ReadsAt c mreq i (inside .t1) c.off.uartFr fun v => if flagSet v c.mask.txff then inside .t1 else inside .t2
  | rxfe {i : Instr} {inside : RxLine → Seq} {got : Byte → Seq} : ReceivesAt i inside got →
      ReadsAt c mreq i (inside .x1) c.off.uartFr fun v => if flagSet v c.mask.rxfe then inside .x1 else inside .x2
  | data {i : Instr} {inside : RxLine → Seq} {got : Byte → Seq} : ReceivesAt i inside got →
      ReadsAt c mreq i (inside .x2) c.off.uartDr fun v => got (lowByte v)
  | full {i : Instr} {inside : MboxLine → Seq} {leave : Seq} : HandshakesAt i inside leave →
      ReadsAt c mreq i (inside .m2) c.off.mboxStatus fun v =>
        if flagSet v c.mask.full then inside .m2 else inside .m3
  | empty {i : Instr} {inside : MboxLine → Seq} {leave : Seq} : HandshakesAt i inside leave →
      ReadsAt c mreq i (inside .m4Status) c.off.mboxStatus fun v =>
        if flagSet v c.mask.empty then inside .m4Status else inside .m4Read
  | reply {i : Instr} {inside : MboxLine → Seq} {leave : Seq} : HandshakesAt i inside leave →
      ReadsAt c mreq i (inside .m4Read) c.off.mboxRead fun v => if v ≠ mreq then inside .m4Status else leave

/-- The writing lines: the register, the value, the next position. -/
inductive WritesAt (c : Cfg) (mreq : Word) : Instr → Seq → Nat → Word → Seq → Prop where
  | regw (off : Offset) (v : Word) : WritesAt c mreq (.regw off v) .regwL1 off.toNat v .complete
  | send {i : Instr} {inside : TxLine → Seq} {b : Byte} {next : Seq} : SendsAt i inside b next →
      WritesAt c mreq i (inside .t2) c.off.uartDr (b.setWidth 32) next
  | request {i : Instr} {inside : MboxLine → Seq} {leave : Seq} : HandshakesAt i inside leave →
      WritesAt c mreq i (inside .m3) c.off.mboxWrite mreq (inside .m4Status)
  | init {l l' : InitLine} {off : Nat} {v : Word} (p : Word) : InitWrites c l off v l' →
      WritesAt c mreq (.init p) (.init l) off v (.init l')

/-- The lines without a bus access, with the state each leaves. -/
inductive InternalAt (s : State) : Instr → Seq → State → Prop where
  | resolves (p : Word) :
      InternalAt s (.resolve p) .resolveL1 { s with base := lookupBase s.cfg p, seq := .complete }
  | initResolves (p : Word) :
      InternalAt s (.init p) (.init .s1) { s with base := lookupBase s.cfg p, seq := .init .s2 }
  | regrResponds (off : Offset) (v : Word) :
      InternalAt s (.regr off) (.regrL2 v) ((respond [zext64 v] s).goto .complete)
  | getbResponds (b : Byte) : InternalAt s .getb (.getbQ2 b) ((respond [zext64 (zext32 b)] s).goto .complete)
  | getsResponds : InternalAt s .gets (.gets .g9) ((respond (lineResponse s) s).goto .complete)
  | loads {i : Instr} {inside : DelayLine → Seq} {count : Word} {leave : Seq} : CountsAt i inside count leave →
      InternalAt s i (inside .l1) { s with dcnt := count, seq := if count = 0 then leave else inside .l2 }
  | counts {i : Instr} {inside : DelayLine → Seq} {count : Word} {leave : Seq} : CountsAt i inside count leave →
      s.dcnt ≠ 0 → InternalAt s i (inside .l2)
        { s with dcnt := s.dcnt - 1, seq := if s.dcnt - 1 = 0 then leave else inside .l2 }
  | leaves {i : Instr} {inside : DelayLine → Seq} {count : Word} {leave : Seq} : CountsAt i inside count leave →
      s.dcnt = 0 → InternalAt s i (inside .l2) (s.goto leave)
  | latches {i : Instr} {inside : MboxLine → Seq} {leave : Seq} : HandshakesAt i inside leave →
      InternalAt s i (inside .m1) { s with mreq := requestWord s.cfg, seq := inside .m2 }
  | negotiates (p : Word) : InternalAt s (.init p) (.init .s7)
      (s.goto (if Config.mboxGenMin ≤ p then .init (.s7m .m1) else .init .s8a))
  | becomesReady (p : Word) : InternalAt s (.init p) (.init .s12) { s with drv := .ready, seq := .complete }
  | passes {i : Instr} {first : Seq} : ChecksEntry i first → s.drv = .ready ∨ s.base = 0 →
      InternalAt s i .e0 (s.goto first)
  | unready {i : Instr} {first : Seq} : ChecksEntry i first → s.drv = .uninitialized → s.base ≠ 0 →
      InternalAt s i .e0 (raise .byteOpBeforeInit (commandWord i) s)
  | clears : InternalAt s .gets (.gets .g0) { s with len := 0, seq := .gets (.g2 .x1) }
  | discards : InternalAt s .gets (.gets .g4Discard) (discardByte s)
  | stores (b : Byte) : InternalAt s .gets (.gets (.g5Store b)) (storeByte b s)
  | panics : InternalAt s .panic .panicK1 (raise .softwarePanic 0 s)

/-- A line that is one `RegRead` and the position its value selects; `onTrap` is what a fault asks for: the fault entry
inside a command (R224), Halt inside the emission (R227). -/
def readThen (onTrap : FaultCode → CmdWord → State → State) (off : Nat) (goesTo : Word → Seq) (s : State) : State :=
  (regRead off s).finish onTrap fun v s => s.goto (goesTo v)

/-- A reading line of a command. -/
def readLine (off : Nat) (goesTo : Word → Seq) (s : State) : State := readThen raise off goesTo s

/-- What a line of a command does. -/
inductive LineAt (s : State) (i : Instr) (l : Seq) : State → Prop where
  | reads {off : Nat} {goesTo : Word → Seq} : ReadsAt s.cfg s.mreq i l off goesTo → LineAt s i l (readLine off goesTo s)
  | writes {off : Nat} {v : Word} {next : Seq} : WritesAt s.cfg s.mreq i l off v next →
      LineAt s i l (writeLine off v next s)
  | internal {t : State} : InternalAt s i l t → LineAt s i l t

/-! ## The tables are the model's lines -/

/-- A poll is a read of which only the flag counts (R12, R13). -/
theorem pollFlag_finish (onTrap : FaultCode → CmdWord → State → State) (off : Nat) (mask : Word) (set clear : Seq)
    (s : State) : ((pollFlag off mask s).finish onTrap fun b s => s.goto (if b then set else clear)) =
      readThen onTrap off (fun v => if flagSet v mask then set else clear) s := by
  unfold pollFlag readThen
  cases regRead off s <;> rfl

theorem pollFlag_orRaise (off : Nat) (mask : Word) (set clear : Seq) (s : State) :
    ((pollFlag off mask s).orRaise fun b s => s.goto (if b then set else clear)) =
      readLine off (fun v => if flagSet v mask then set else clear) s := pollFlag_finish raise off mask set clear s

/-- T1 is a poll of TXFF, in a command and in the emission (R184, R226). -/
theorem txLine_t1_finish {onTrap : FaultCode → CmdWord → State → State} {b : Byte} {k : Option TxLine → State → State}
    {inside : TxLine → Seq} {s : State} (hk : ∀ l s, k (some l) s = s.goto (inside l)) :
    (txLine b .t1 s).finish onTrap k =
      readThen onTrap s.cfg.off.uartFr (fun v => if flagSet v s.cfg.mask.txff then inside .t1 else inside .t2) s := by
  rw [← pollFlag_finish, txLine]
  cases pollFlag s.cfg.off.uartFr s.cfg.mask.txff s with
  | done set s' => cases set <;> exact hk _ _
  | trap f info s' => rfl

/-- T2 is a write of the byte, in a command and in the emission (R184, R226). -/
theorem txLine_t2_finish (onTrap : FaultCode → CmdWord → State → State) (b : Byte) (k : Option TxLine → State → State)
    (s : State) : (txLine b .t2 s).finish onTrap k =
      (regWrite s.cfg.off.uartDr (b.setWidth 32) s).finish onTrap fun _ => k none := by
  rw [txLine, zext32]
  cases regWrite s.cfg.off.uartDr (b.setWidth 32) s <;> rfl

theorem txLine_t2_orRaise {b : Byte} {k : Option TxLine → State → State} {next : Seq} {s : State}
    (hk : ∀ s, k none s = s.goto next) :
    (txLine b .t2 s).orRaise k = writeLine s.cfg.off.uartDr (b.setWidth 32) next s := by
  rw [Access.orRaise, txLine_t2_finish, writeLine, Access.orRaise]
  simp only [funext hk]

/-- X1 is a poll of RXFE (R187). -/
theorem rxLine_x1_orRaise {k : RxLine ⊕ Byte → State → State} {inside : RxLine → Seq} {s : State}
    (hk : ∀ l s, k (.inl l) s = s.goto (inside l)) :
    (rxLine .x1 s).orRaise k =
      readLine s.cfg.off.uartFr (fun v => if flagSet v s.cfg.mask.rxfe then inside .x1 else inside .x2) s := by
  rw [← pollFlag_orRaise, rxLine]
  cases pollFlag s.cfg.off.uartFr s.cfg.mask.rxfe s with
  | done set s' => cases set <;> exact hk _ _
  | trap f info s' => rfl

/-- X2 is a read of the data register (R187). -/
theorem rxLine_x2_orRaise {k : RxLine ⊕ Byte → State → State} {got : Byte → Seq} {s : State}
    (hk : ∀ b s, k (.inr b) s = s.goto (got b)) :
    (rxLine .x2 s).orRaise k = readLine s.cfg.off.uartDr (fun v => got (lowByte v)) s := by
  rw [rxLine, readLine, readThen]
  cases regRead s.cfg.off.uartDr s with
  | done d s' => exact hk _ s'
  | trap f info s' => rfl

/-- M4's comparison is with the request latched before its read, which no read changes (R134). -/
theorem mboxLine_m4Read (inside : MboxLine → Seq) (leave : Seq) (s : State) :
    mboxLine inside leave .m4Read s =
      readLine s.cfg.off.mboxRead (fun v => if v ≠ s.mreq then inside .m4Status else leave) s := by
  rw [mboxLine, readLine, readThen]
  rcases regRead_cases s.cfg.off.mboxRead s with ⟨-, e⟩ | ⟨-, _, _, -, e⟩ | ⟨-, -, -, e⟩ | ⟨-, -, -, e⟩ <;> rw [e] <;> rfl

/-- A command runs `TxByte`'s lines and goes on as the table says. -/
theorem commandLine_of_sendsAt {i : Instr} {inside : TxLine → Seq} {b : Byte} {next : Seq} (h : SendsAt i inside b next) :
    ∃ k : Option TxLine → State → State, (∀ l s, k (some l) s = s.goto (inside l)) ∧ (∀ s, k none s = s.goto next) ∧
      ∀ l s, commandLine i (inside l) s = some ((txLine b l s).orRaise k) := by
  cases h <;> exact ⟨_, fun _ _ => rfl, fun _ => rfl, fun _ _ => rfl⟩

/-- A command runs `RxByte`'s lines and goes on as the table says. -/
theorem commandLine_of_receivesAt {i : Instr} {inside : RxLine → Seq} {got : Byte → Seq} (h : ReceivesAt i inside got) :
    ∃ k : RxLine ⊕ Byte → State → State, (∀ l s, k (.inl l) s = s.goto (inside l)) ∧
      (∀ b s, k (.inr b) s = s.goto (got b)) ∧
      ∀ l s, commandLine i (inside l) s = some ((rxLine l s).orRaise k) := by
  cases h <;> exact ⟨_, fun _ _ => rfl, fun _ _ => rfl, fun _ _ => rfl⟩

theorem commandLine_of_handshakesAt {i : Instr} {inside : MboxLine → Seq} {leave : Seq} (h : HandshakesAt i inside leave)
    (l : MboxLine) (s : State) : commandLine i (inside l) s = some (mboxLine inside leave l s) := by
  cases h <;> rfl

theorem commandLine_of_countsAt {i : Instr} {inside : DelayLine → Seq} {count : Word} {leave : Seq}
    (h : CountsAt i inside count leave) (l : DelayLine) (s : State) :
    commandLine i (inside l) s = some (delayLine count (inside .l2) leave l s) := by
  cases h <;> rfl

theorem commandLine_of_checksEntry {i : Instr} {first : Seq} (h : ChecksEntry i first) (s : State) :
    commandLine i .e0 s = some (entryCheck i first s) := by
  cases h <;> rfl

/-- A reading line of the tables is the command's line. -/
theorem commandLine_of_readsAt {i : Instr} {l : Seq} {off : Nat} {goesTo : Word → Seq} {s : State}
    (h : ReadsAt s.cfg s.mreq i l off goesTo) : commandLine i l s = some (readLine off goesTo s) := by
  cases h with
  | regr off => rfl
  | txff h =>
    obtain ⟨k, some_line, -, line⟩ := commandLine_of_sendsAt h
    rw [line, Access.orRaise, txLine_t1_finish some_line, readLine]
  | rxfe h =>
    obtain ⟨k, some_line, -, line⟩ := commandLine_of_receivesAt h
    rw [line, rxLine_x1_orRaise some_line]
  | data h =>
    obtain ⟨k, -, byte, line⟩ := commandLine_of_receivesAt h
    rw [line, rxLine_x2_orRaise byte]
  | full h => rw [commandLine_of_handshakesAt h, mboxLine, pollFlag_orRaise]
  | empty h => rw [commandLine_of_handshakesAt h, mboxLine, pollFlag_orRaise]
  | reply h => rw [commandLine_of_handshakesAt h, mboxLine_m4Read]

/-- A writing line of the tables is the command's line. -/
theorem commandLine_of_writesAt {i : Instr} {l : Seq} {off : Nat} {v : Word} {next : Seq} {s : State}
    (h : WritesAt s.cfg s.mreq i l off v next) : commandLine i l s = some (writeLine off v next s) := by
  cases h with
  | regw off v => rfl
  | send h =>
    obtain ⟨k, -, returned, line⟩ := commandLine_of_sendsAt h
    rw [line, txLine_t2_orRaise returned]
  | request h => rw [commandLine_of_handshakesAt h, mboxLine]
  | init p h => cases h <;> rfl

/-- An internal line of the tables is the command's line. -/
theorem commandLine_of_internalAt {i : Instr} {l : Seq} {s t : State} (h : InternalAt s i l t) :
    commandLine i l s = some t := by
  cases h with
  | loads h => rw [commandLine_of_countsAt h, delayLine]
  | counts h nonzero => rw [commandLine_of_countsAt h, delayLine, if_neg nonzero]
  | leaves h zero => rw [commandLine_of_countsAt h, delayLine, if_pos zero]
  | latches h => cases h <;> rfl
  | passes h passes => rw [commandLine_of_checksEntry h, entryCheck_passes _ _ passes]
  | unready h unready resolved => rw [commandLine_of_checksEntry h, entryCheck_unready _ _ unready resolved]; rfl
  | _ => rfl

theorem commandLine_of_lineAt {i : Instr} {l : Seq} {s t : State} (h : LineAt s i l t) : commandLine i l s = some t := by
  cases h with
  | reads h => exact commandLine_of_readsAt h
  | writes h => exact commandLine_of_writesAt h
  | internal h => exact commandLine_of_internalAt h

/-- A position of the tables has a line there. -/
theorem exists_lineAt_of_sendsAt {i : Instr} {inside : TxLine → Seq} {b : Byte} {next : Seq}
    (h : SendsAt i inside b next) (l : TxLine) (s : State) : ∃ t, LineAt s i (inside l) t := by
  cases l with
  | t1 => exact ⟨_, .reads (.txff h)⟩
  | t2 => exact ⟨_, .writes (.send h)⟩

theorem exists_lineAt_of_receivesAt {i : Instr} {inside : RxLine → Seq} {got : Byte → Seq}
    (h : ReceivesAt i inside got) (l : RxLine) (s : State) : ∃ t, LineAt s i (inside l) t := by
  cases l with
  | x1 => exact ⟨_, .reads (.rxfe h)⟩
  | x2 => exact ⟨_, .reads (.data h)⟩

theorem exists_lineAt_of_handshakesAt {i : Instr} {inside : MboxLine → Seq} {leave : Seq}
    (h : HandshakesAt i inside leave) (l : MboxLine) (s : State) : ∃ t, LineAt s i (inside l) t := by
  cases l with
  | m1 => exact ⟨_, .internal (.latches h)⟩
  | m2 => exact ⟨_, .reads (.full h)⟩
  | m3 => exact ⟨_, .writes (.request h)⟩
  | m4Status => exact ⟨_, .reads (.empty h)⟩
  | m4Read => exact ⟨_, .reads (.reply h)⟩

theorem exists_lineAt_of_countsAt {i : Instr} {inside : DelayLine → Seq} {count : Word} {leave : Seq}
    (h : CountsAt i inside count leave) (l : DelayLine) (s : State) : ∃ t, LineAt s i (inside l) t := by
  cases l with
  | l1 => exact ⟨_, .internal (.loads h)⟩
  | l2 =>
    by_cases zero : s.dcnt = 0
    · exact ⟨_, .internal (.leaves h zero)⟩
    · exact ⟨_, .internal (.counts h zero)⟩

theorem exists_lineAt_of_checksEntry {i : Instr} {first : Seq} (h : ChecksEntry i first) (s : State) :
    ∃ t, LineAt s i .e0 t := by
  by_cases resolved : s.base = 0
  · exact ⟨_, .internal (.passes h (.inr resolved))⟩
  · cases drv : s.drv with
    | ready => exact ⟨_, .internal (.passes h (.inl drv))⟩
    | uninitialized => exact ⟨_, .internal (.unready h drv resolved)⟩

/-- Every line of INIT is in the tables (R150). -/
theorem exists_lineAt_init (p : Word) (l : InitLine) (s : State) : ∃ t, LineAt s (.init p) (.init l) t := by
  cases l with
  | s1 => exact ⟨_, .internal (.initResolves p)⟩
  | s2 => exact ⟨_, .writes (.init p .s2)⟩
  | s3 => exact ⟨_, .writes (.init p .s3)⟩
  | s3d l => exact exists_lineAt_of_countsAt (.s3d p) l s
  | s4 => exact ⟨_, .writes (.init p .s4)⟩
  | s4d l => exact exists_lineAt_of_countsAt (.s4d p) l s
  | s5 => exact ⟨_, .writes (.init p .s5)⟩
  | s6 => exact ⟨_, .writes (.init p .s6)⟩
  | s7 => exact ⟨_, .internal (.negotiates p)⟩
  | s7m l => exact exists_lineAt_of_handshakesAt (.init p) l s
  | s8a => exact ⟨_, .writes (.init p .s8a)⟩
  | s8b => exact ⟨_, .writes (.init p .s8b)⟩
  | s9 => exact ⟨_, .writes (.init p .s9)⟩
  | s10 => exact ⟨_, .writes (.init p .s10)⟩
  | s11 => exact ⟨_, .writes (.init p .s11)⟩
  | s12 => exact ⟨_, .internal (.becomesReady p)⟩

/-- Every line of GETS is in the tables (R193). -/
theorem exists_lineAt_gets (l : GetsLine) (s : State) : ∃ t, LineAt s .gets (.gets l) t := by
  cases l with
  | g0 => exact ⟨_, .internal .clears⟩
  | g2 l => exact exists_lineAt_of_receivesAt .gets l s
  | echo b more l k =>
    cases more with
    | nil => exact exists_lineAt_of_sendsAt (.echoLast b k) l s
    | cons b' more => exact exists_lineAt_of_sendsAt (.echoMore b b' more k) l s
  | g4Discard => exact ⟨_, .internal .discards⟩
  | g5Store b => exact ⟨_, .internal (.stores b)⟩
  | g9 => exact ⟨_, .internal .getsResponds⟩

/-- Every line of every command is in the tables; whether a position has a line does not depend on the state. -/
theorem exists_lineAt_of_commandLine {i : Instr} {l : Seq} {s t : State} (h : commandLine i l s = some t) (u : State) :
    ∃ t', LineAt u i l t' := by
  cases i with
  | resolve p => cases l with | resolveL1 => exact ⟨_, .internal (.resolves p)⟩ | _ => cases h
  | regr off =>
    cases l with
    | regrL1 => exact ⟨_, .reads (.regr off)⟩
    | regrL2 v => exact ⟨_, .internal (.regrResponds off v)⟩
    | _ => cases h
  | regw off v => cases l with | regwL1 => exact ⟨_, .writes (.regw off v)⟩ | _ => cases h
  | delay count => cases l with | delay l => exact exists_lineAt_of_countsAt (.delay count) l u | _ => cases h
  | mbox => cases l with | mbox l => exact exists_lineAt_of_handshakesAt .mbox l u | _ => cases h
  | init p => cases l with | init l => exact exists_lineAt_init p l u | _ => cases h
  | putb b =>
    cases l with
    | e0 => exact exists_lineAt_of_checksEntry (.putb b) u
    | putb l => exact exists_lineAt_of_sendsAt (.putb b) l u
    | _ => cases h
  | getb =>
    cases l with
    | e0 => exact exists_lineAt_of_checksEntry .getb u
    | getbQ1 l => exact exists_lineAt_of_receivesAt .getb l u
    | getbQ2 b => exact ⟨_, .internal (.getbResponds b)⟩
    | _ => cases h
  | puts n text =>
    cases l with
    | e0 => exact exists_lineAt_of_checksEntry (.puts n text) u
    | puts k l => exact exists_lineAt_of_sendsAt (.puts n text k) l u
    | _ => cases h
  | gets =>
    cases l with
    | e0 => exact exists_lineAt_of_checksEntry .gets u
    | gets l => exact exists_lineAt_gets l u
    | _ => cases h
  | panic => cases l with | panicK1 => exact ⟨_, .internal .panics⟩ | _ => cases h

/-- The tables say exactly what the lines of the commands do. -/
theorem commandLine_iff {i : Instr} {l : Seq} {s t : State} : commandLine i l s = some t ↔ LineAt s i l t := by
  refine ⟨fun h => ?_, commandLine_of_lineAt⟩
  obtain ⟨t', line⟩ := exists_lineAt_of_commandLine h s
  have same : t' = t := Option.some_injective _ ((commandLine_of_lineAt line).symm.trans h)
  exact same ▸ line

/-! ## Positions of the tables -/

/-- A position that has a line is inside a command: neither Idle, nor completion, nor on the fault path. -/
def InsideCommand (l : Seq) : Prop := l ≠ .idle ∧ l ≠ .complete ∧ onFaultPath l = false

theorem insideCommand_of_commandLine {i : Instr} {l : Seq} {s t : State} (h : commandLine i l s = some t) :
    InsideCommand l := by
  cases l with
  | idle | complete | emit | halt => cases i <;> cases h
  | _ => exact ⟨by simp, by simp, rfl⟩

/-- A line of a command is what its meaning does there. -/
theorem exec_lineAt {i : Instr} {s t : State} (hh : s.halted = false) (h : LineAt s i s.seq t) : exec i s = .next t := by
  have line := commandLine_iff.mpr h
  obtain ⟨not_idle, not_complete, -⟩ := insideCommand_of_commandLine line
  exact exec_line hh not_idle not_complete line

/-- The converse: a meaning that answers a next state past acceptance completes or does its line. -/
theorem lineAt_of_exec {i : Instr} {s t : State} (not_idle : s.seq ≠ .idle) (h : exec i s = .next t) :
    (s.seq = .complete ∧ t = complete s) ∨ (InsideCommand s.seq ∧ LineAt s i s.seq t) := by
  rw [exec_eq] at h
  rcases (runCommand_next h).2 with ⟨idle, -⟩ | completed | ⟨-, -, line⟩
  · exact absurd idle not_idle
  · exact .inl completed
  · exact .inr ⟨insideCommand_of_commandLine line, commandLine_iff.mp line⟩

/-! ## What a reading or writing line can leave -/

/-- What one access through the accessor can leave, with the event it adds: none, or the access itself at an address
that fits and is aligned (R102, R103). -/
inductive Accessed (s : State) (may : BusEvent → Prop) : State → Prop where
  | none : Accessed s may s
  | read (ea : Nat) : may (.read ea s.readAnswer.value s.readErr) → s.base ≠ 0 → s.base ≤ ea → ea % 4 = 0 →
      ea < 2 ^ s.cfg.aw → Accessed s may (memRead ea s)
  | write (ea : Nat) (v : Word) : may (.write ea v s.writeErr) → s.base ≠ 0 → s.base ≤ ea → ea % 4 = 0 →
      ea < 2 ^ s.cfg.aw → Accessed s may (memWrite ea v s)

/-- A fault an access can end in, with what tells it apart: codes 2 and 3 come from the address checks, code 4 from a bus
that can answer with an error; none while `BASE` is 0 (R102, R103, R222). -/
structure AccessFault (s : State) (off : Nat) (f : FaultCode) : Prop where
  resolved : s.base ≠ 0
  kind : ((f = .addressOverflow ∨ f = .misalignedAccess) ∧ ∃ info, addressFault off s = some (f, info)) ∨
    (f = .busError ∧ s.cfg.busErrors = true)

/-- The next positions and the faults of one access. -/
inductive LineEnds (s : State) (off : Nat) (may : BusEvent → Prop) (next : Seq → Prop) : State → Prop where
  | goesOn {s' : State} (l : Seq) : Accessed s may s' → next l → LineEnds s off may next (s'.goto l)
  | traps {s' : State} (f : FaultCode) (info : CmdWord) : Accessed s may s' → AccessFault s off f →
      LineEnds s off may next (raise f info s')

/-- How a read ends (R102). -/
theorem regRead_accessed (off : Nat) (s : State) :
    (∃ v s', regRead off s = .done v s' ∧ Accessed s (fun e => ∃ v err, e = .read (s.base + off) v err) s') ∨
    ∃ f info s', regRead off s = .trap f info s' ∧ Accessed s (fun e => ∃ v err, e = .read (s.base + off) v err) s' ∧
      AccessFault s off f := by
  rcases regRead_cases off s with ⟨-, done⟩ | ⟨hb, f, info, hf, trap⟩ | ⟨hb, hf, he, trap⟩ | ⟨hb, hf, -, done⟩
  · exact .inl ⟨0, s, done, .none⟩
  · exact .inr ⟨f, info, s, trap, .none, hb, .inl ⟨addressFault_code hf, info, hf⟩⟩
  · obtain ⟨fits, aligned⟩ := addressFault_passes hf
    simp only [State.readErr, Bool.and_eq_true] at he
    exact .inr ⟨_, _, _, trap, .read _ ⟨_, _, rfl⟩ hb (Nat.le_add_right _ _) aligned fits, hb, .inr ⟨rfl, he.1⟩⟩
  · obtain ⟨fits, aligned⟩ := addressFault_passes hf
    exact .inl ⟨_, _, done, .read _ ⟨_, _, rfl⟩ hb (Nat.le_add_right _ _) aligned fits⟩

/-- How a write ends (R103). -/
theorem regWrite_accessed (off : Nat) (v : Word) (s : State) :
    (∃ s', regWrite off v s = .done () s' ∧ Accessed s (fun e => ∃ err, e = .write (s.base + off) v err) s') ∨
    ∃ f info s', regWrite off v s = .trap f info s' ∧ Accessed s (fun e => ∃ err, e = .write (s.base + off) v err) s' ∧
      AccessFault s off f := by
  rcases regWrite_cases off v s with ⟨-, done⟩ | ⟨hb, f, info, hf, trap⟩ | ⟨hb, hf, he, trap⟩ | ⟨hb, hf, -, done⟩
  · exact .inl ⟨s, done, .none⟩
  · exact .inr ⟨f, info, s, trap, .none, hb, .inl ⟨addressFault_code hf, info, hf⟩⟩
  · obtain ⟨fits, aligned⟩ := addressFault_passes hf
    simp only [State.writeErr, Bool.and_eq_true] at he
    exact .inr ⟨_, _, _, trap, .write _ _ ⟨_, rfl⟩ hb (Nat.le_add_right _ _) aligned fits, hb, .inr ⟨rfl, he.1⟩⟩
  · obtain ⟨fits, aligned⟩ := addressFault_passes hf
    exact .inl ⟨_, done, .write _ _ ⟨_, rfl⟩ hb (Nat.le_add_right _ _) aligned fits⟩

/-- The next position or the fault of a reading line. -/
theorem readLine_ends (off : Nat) (goesTo : Word → Seq) (s : State) :
    LineEnds s off (fun e => ∃ v err, e = .read (s.base + off) v err) (fun l => ∃ v, l = goesTo v)
      (readLine off goesTo s) := by
  rw [readLine, readThen]
  rcases regRead_accessed off s with ⟨v, s', done, accessed⟩ | ⟨f, info, s', trap, accessed, fault⟩
  · rw [done]; exact .goesOn _ accessed ⟨v, rfl⟩
  · rw [trap]; exact .traps f info accessed fault

/-- The next position or the fault of a writing line. -/
theorem writeLine_ends (off : Nat) (v : Word) (next : Seq) (s : State) :
    LineEnds s off (fun e => ∃ err, e = .write (s.base + off) v err) (fun l => l = next) (writeLine off v next s) := by
  rw [writeLine]
  rcases regWrite_accessed off v s with ⟨s', done, accessed⟩ | ⟨f, info, s', trap, accessed, fault⟩
  · rw [done]; exact .goesOn _ accessed rfl
  · rw [trap]; exact .traps f info accessed fault

end Sys2Proof.Machine
end

section
/-! SUPPORT. One step of a command at each of its lines, as an outcome: acceptance, completion, the reading and writing
lines through the tables, the internal lines. -/

namespace Sys2Proof.Machine

open Sys2Proof.Config (Cfg BusEvent)

/-! ## Acceptance, dispatch, completion -/

/-- Settles O9: acceptance is the meaning of the decoded command at an idle block. -/
theorem stepAcceptsTheDecodedCommand : Obligations.StepAcceptsTheDecodedCommand := by
  intro s i rest ha hd
  have accepted := step_accepts ha hd
  exact ⟨by rw [accepted]; exact (exec_accepts (s := { s with port := rest }) ha.halted ha.busy ha.seq).symm, accepted⟩

/-- A line of a command is neither Idle nor on the fault path. -/
theorem lineOf_inside {i : Instr} {l : Seq} (h : lineOf i l = true) : l ≠ .idle ∧ onFaultPath l = false := by
  cases l with
  | idle | emit | halt => cases h
  | _ => exact ⟨by simp, rfl⟩

/-- Settles O10: at a position of a command the sequencer gives the turn to `CUR`. -/
theorem stepRunsTheCommandInCur : Obligations.StepRunsTheCommandInCur := by
  intro s i l running hc hl
  obtain ⟨not_idle, not_fault⟩ := lineOf_inside hl
  exact step_runs running hc not_idle not_fault

/-- Settles O11: every meaning completes in the one frame of a command. -/
theorem completionFreesTheBlock : Obligations.CompletionFreesTheBlock := by
  intro s i hh hs
  rw [exec_eq]
  exact runCommand_complete hh hs

/-! ## Reading and writing lines -/

/-- Every reading line but REGR's reads a fixed register (R36). -/
theorem readsAt_fixed {c : Cfg} {m : Word} {i : Instr} {l : Seq} {off : Nat} {goesTo : Word → Seq}
    (h : ReadsAt c m i l off goesTo) (hi : i.opcode ≠ .regr) : off ∈ c.off.all := by
  obtain ⟨-, -, dr, fr, -, -, -, -, -, -, mbox_read, mbox_status, -⟩ := fixed_offsets c
  cases h with
  | regr => exact absurd rfl hi
  | txff | rxfe => exact fr
  | data => exact dr
  | full | empty => exact mbox_status
  | reply => exact mbox_read

theorem initWrites_fixed {c : Cfg} {l l' : InitLine} {off : Nat} {v : Word} (h : InitWrites c l off v l') :
    off ∈ c.off.all := by
  cases h <;> simp [Config.Offsets.all]

/-- Every writing line but REGW's writes a fixed register (R36). -/
theorem writesAt_fixed {c : Cfg} {m : Word} {i : Instr} {l : Seq} {off : Nat} {v : Word} {next : Seq}
    (h : WritesAt c m i l off v next) (hi : i.opcode ≠ .regw) : off ∈ c.off.all := by
  obtain ⟨-, -, dr, -, -, -, -, -, -, -, -, -, mbox_write⟩ := fixed_offsets c
  cases h with
  | regw => exact absurd rfl hi
  | send => exact dr
  | request => exact mbox_write
  | init p h => exact initWrites_fixed h

section

variable {s : State} {i : Instr} {l : Seq} {off : Nat}

/-- A line that reads a fixed register of a resolved block, as an outcome. -/
theorem exec_readsAt {goesTo : Word → Seq} (hv : s.cfg.valid = true) (hh : s.halted = false) (hr : Resolved s)
    (h : ReadsAt s.cfg s.mreq i l off goesTo) (hi : i.opcode ≠ .regr) (hs : s.seq = l) :
    LineReads (s.base + off) goesTo s (exec i s) := by
  subst hs
  rw [exec_lineAt hh (.reads h)]
  exact lineReads_regRead goesTo (reaches_fixed hv hr (readsAt_fixed h hi))

/-- A line that writes a fixed register of a resolved block, as an outcome. -/
theorem exec_writesAt {v : Word} {next : Seq} (hv : s.cfg.valid = true) (hh : s.halted = false) (hr : Resolved s)
    (h : WritesAt s.cfg s.mreq i l off v next) (hi : i.opcode ≠ .regw) (hs : s.seq = l) :
    LineWrites (s.base + off) v next s (exec i s) := by
  subst hs
  rw [exec_lineAt hh (.writes h)]
  exact lineWrites_writeLine v next (reaches_fixed hv hr (writesAt_fixed h hi))

/-- An internal line, as an outcome. -/
theorem exec_internalAt {t : State} (hh : s.halted = false) (hs : s.seq = l) (h : InternalAt s i l t) :
    exec i s = .next t := by
  subst hs
  exact exec_lineAt hh (.internal h)

end

/-- A poll's two ways on, in the spelling of the statements (R13). -/
theorem pollTo_eq (mask : Word) (set clear : Seq) :
    (fun v : Word => if flagSet v mask then set else clear) = fun v => if v &&& mask ≠ 0 then set else clear :=
  funext fun v => ite_flagSet v mask set clear

theorem opcode_of_sendsAt {i : Instr} {inside : TxLine → Seq} {b : Byte} {next : Seq} (h : SendsAt i inside b next) :
    i.opcode ≠ .regr ∧ i.opcode ≠ .regw := by cases h <;> simp [Instr.opcode]

theorem opcode_of_receivesAt {i : Instr} {inside : RxLine → Seq} {got : Byte → Seq} (h : ReceivesAt i inside got) :
    i.opcode ≠ .regr := by cases h <;> decide

theorem opcode_of_handshakesAt {i : Instr} {inside : MboxLine → Seq} {leave : Seq} (h : HandshakesAt i inside leave) :
    i.opcode ≠ .regr ∧ i.opcode ≠ .regw := by cases h <;> simp [Instr.opcode]

section

variable {s : State} {i : Instr} {b : Byte} {next : Seq} {inside : TxLine → Seq}

/-- T1 wherever it stands in a command (R184). -/
theorem exec_t1 (hv : s.cfg.valid = true) (hh : s.halted = false) (hr : Resolved s) (h : SendsAt i inside b next)
    (hs : s.seq = inside .t1) : LineReads (s.base + s.cfg.off.uartFr)
      (fun v => if v &&& s.cfg.mask.txff ≠ 0 then inside .t1 else inside .t2) s (exec i s) := by
  rw [← pollTo_eq]
  exact exec_readsAt hv hh hr (.txff h) (opcode_of_sendsAt h).1 hs

/-- T2 wherever it stands in a command (R184). -/
theorem exec_t2 (hv : s.cfg.valid = true) (hh : s.halted = false) (hr : Resolved s) (h : SendsAt i inside b next)
    (hs : s.seq = inside .t2) : LineWrites (s.base + s.cfg.off.uartDr) (b.setWidth 32) next s (exec i s) :=
  exec_writesAt hv hh hr (.send h) (opcode_of_sendsAt h).2 hs

variable {inside : RxLine → Seq} {got : Byte → Seq}

/-- X1 wherever it stands in a command (R187). -/
theorem exec_x1 (hv : s.cfg.valid = true) (hh : s.halted = false) (hr : Resolved s) (h : ReceivesAt i inside got)
    (hs : s.seq = inside .x1) : LineReads (s.base + s.cfg.off.uartFr)
      (fun v => if v &&& s.cfg.mask.rxfe ≠ 0 then inside .x1 else inside .x2) s (exec i s) := by
  rw [← pollTo_eq]
  exact exec_readsAt hv hh hr (.rxfe h) (opcode_of_receivesAt h) hs

/-- X2 wherever it stands in a command (R187). -/
theorem exec_x2 (hv : s.cfg.valid = true) (hh : s.halted = false) (hr : Resolved s) (h : ReceivesAt i inside got)
    (hs : s.seq = inside .x2) :
    LineReads (s.base + s.cfg.off.uartDr) (fun v => got (v.extractLsb' 0 8)) s (exec i s) :=
  exec_readsAt hv hh hr (.data h) (opcode_of_receivesAt h) hs

end

/-- Settles O15: L2 of REGR is an internal line. -/
theorem regrRespondsWithTheWord : Obligations.RegrRespondsWithTheWord := fun _ off v hh hs =>
  exec_internalAt hh hs (.regrResponds off v)

/-- Settles O19: both lines of DELAY are `delayLine`; at L2 the counter that reaches 0 was 1. -/
theorem delayLinesCountDown : Obligations.DelayLinesCountDown := by
  refine fun s count hh => ⟨fun hs => exec_internalAt hh hs (.loads (.delay count)), fun hs nonzero => ?_⟩
  have reaches_zero : (s.dcnt - 1 = 0) = (s.dcnt = 1) := propext sub_eq_zero
  simpa only [reaches_zero] using exec_internalAt hh hs (.counts (.delay count) nonzero)

/-- Settles O21: the handshake's lines, wherever it stands, are three reading lines and a writing line of the tables. -/
theorem mboxLinesPollSendAndMatch : Obligations.MboxLinesPollSendAndMatch := by
  intro s i pos leave hv hh hr hplace
  have place : HandshakesAt i pos leave := by
    rcases hplace with ⟨rfl, rfl, rfl⟩ | ⟨p, rfl, rfl, rfl⟩
    · exact .mbox
    · exact .init p
  obtain ⟨not_regr, not_regw⟩ := opcode_of_handshakesAt place
  have reply_to : (fun v : Word => if v ≠ s.mreq then pos .m4Status else leave) =
      fun v => if v = s.mreq then leave else pos .m4Status := funext fun v => ite_not _ _ _
  refine ⟨?_, exec_writesAt hv hh hr (.request place) not_regw, ?_, ?_⟩
  · rw [← pollTo_eq]; exact exec_readsAt hv hh hr (.full place) not_regr
  · rw [← pollTo_eq]; exact exec_readsAt hv hh hr (.empty place) not_regr
  · rw [← reply_to]; exact exec_readsAt hv hh hr (.reply place) not_regr

/-- The statement's rows of INIT's writes are the table's. -/
theorem initWrites_of_row {c : Cfg} {row : InitLine × Nat × Word × InitLine}
    (h : row ∈ ([(.s2, c.off.uartCr, c.val.crOff, .s3), (.s3, c.off.gppud, c.val.pudOff, .s3d .l1),
      (.s4, c.off.gppudclk0, c.val.pudclkUart, .s4d .l1), (.s5, c.off.gppudclk0, c.val.pudclkNone, .s6),
      (.s6, c.off.uartIcr, c.val.icrAll, .s7), (.s8a, c.off.uartIbrd, 1, .s8b), (.s8b, c.off.uartFbrd, 40, .s9),
      (.s9, c.off.uartLcrh, c.val.lcrh, .s10), (.s10, c.off.uartImsc, c.val.imsc, .s11),
      (.s11, c.off.uartCr, c.val.crOn, .s12)] : List (InitLine × Nat × Word × InitLine))) :
    InitWrites c row.1 row.2.1 row.2.2.1 row.2.2.2 := by
  simp only [List.mem_cons, List.not_mem_nil, or_false] at h
  rcases h with rfl | rfl | rfl | rfl | rfl | rfl | rfl | rfl | rfl | rfl <;> constructor

/-- Settles O24: S1 writes `Lookup`, S12 the driver's state, and the ten rows are the writing lines of the table. -/
theorem initLinesWriteTheirRegisters : Obligations.InitLinesWriteTheirRegisters := by
  intro s p hv hh
  refine ⟨fun hs => ?_, fun hs => exec_internalAt hh hs (.becomesReady p), fun hr row hrow =>
    exec_writesAt hv hh hr (.init p (initWrites_of_row hrow)) (by simp [Instr.opcode])⟩
  rw [exec_internalAt hh hs (.initResolves p)]
  exact ⟨fun pre post b hmap hpre => by rw [lookupBase_of_first hmap hpre],
    fun hout => by rw [lookupBase_of_outside hout]⟩

/-- R158: the test of S7 is an unsigned comparison of the identifier with 3. -/
theorem mboxGenMin_le_iff (p : Word) : Config.mboxGenMin ≤ p ↔ 3 ≤ p.toNat := Iff.rfl

/-- Settles O25: S7 tests the operand and nothing else. -/
theorem initNegotiatesFromGenerationThree : Obligations.InitNegotiatesFromGenerationThree := by
  intro s p hh hs
  rw [exec_internalAt hh hs (.negotiates p)]
  refine ⟨fun negotiates => ?_, fun below => ?_⟩
  · rw [if_pos ((mboxGenMin_le_iff p).mpr negotiates)]; rfl
  · rw [if_neg fun h => Nat.not_le.mpr below ((mboxGenMin_le_iff p).mp h)]; rfl

/-- Settles O30: PUTB is one `TxByte`. -/
theorem putbPollsThenWrites : Obligations.PutbPollsThenWrites := fun _ b hv hh hr =>
  ⟨exec_t1 hv hh hr (.putb b), exec_t2 hv hh hr (.putb b)⟩

/-- A byte in 64 bits is the same through 32. -/
theorem zext64_zext32 (b : Byte) : zext64 (zext32 b) = b.setWidth 64 := by
  ext k hk
  simp only [zext64, zext32, BitVec.getElem_setWidth, BitVec.getLsbD_setWidth]
  by_cases inside : k < 32
  · simp [inside]
  · simp [inside, BitVec.getLsbD_of_ge b k (by omega)]

/-- Settles O33: GETB is one `RxByte` and the response of its byte. -/
theorem getbPollsReadsAndResponds : Obligations.GetbPollsReadsAndResponds := by
  refine fun s hv hh hr => ⟨exec_x1 hv hh hr .getb, exec_x2 hv hh hr .getb, fun b hs => ?_⟩
  rw [exec_internalAt hh hs (.getbResponds b), zext64_zext32]
  rfl

theorem textByte_of_getElem? {text : List Byte} {k : Nat} {b : Byte} (h : text[k]? = some b) : textByte text k = b := by
  simp [textByte, List.getD, h]

/-- Settles O35: PUTS at byte `i` is one `TxByte` of that byte. -/
theorem putsSendsOneByte : Obligations.PutsSendsOneByte := by
  intro s n text k b hv hh hr hb
  have sends := textByte_of_getElem? hb ▸ SendsAt.puts n text k
  exact ⟨exec_t1 hv hh hr sends, exec_t2 hv hh hr sends⟩

/-- What follows the last byte of an echo, and what follows one before it (R195 to R197). -/
def echoNext : List Byte → EchoThen → Seq
  | b :: more, k => .gets (.echo b more .t1 k)
  | [], k => .gets k.line

/-- An echo's byte is one `TxByte`. -/
theorem sendsAt_echo (b : Byte) (more : List Byte) (k : EchoThen) :
    SendsAt .gets (fun l => .gets (.echo b more l k)) b (echoNext more k) := by
  cases more with
  | nil => exact .echoLast b k
  | cons b' more => exact .echoMore b b' more k

/-- Settles O37: GETS receives with one `RxByte`, and each byte of an echo is one `TxByte`. -/
theorem getsLinesPollClassifyAndEcho : Obligations.GetsLinesPollClassifyAndEcho := by
  intro s hv hh hr
  refine ⟨exec_x1 hv hh hr .gets, exec_x2 hv hh hr .gets, fun b more k =>
    ⟨exec_t1 hv hh hr (sendsAt_echo b more k), fun hs => ?_⟩⟩
  have writes := exec_t2 hv hh hr (sendsAt_echo b more k) hs
  cases more with
  | nil => cases k <;> exact writes
  | cons b' more => exact writes

/-- R198: the buffer is full after the byte that is stored at `LEN` = 127. -/
theorem full_iff (n : BitVec 8) : (n + 1).toNat = Config.lbCap ↔ n = 127 := by
  unfold Config.lbCap
  bv_omega

/-- Settles O38: G0, the discard and the store are internal lines; below 128 the store is in the buffer. -/
theorem getsLinesEditTheBuffer : Obligations.GetsLinesEditTheBuffer := by
  refine fun s hh => ⟨fun hs => exec_internalAt hh hs .clears, fun hs => exec_internalAt hh hs .discards,
    fun b room hs => ?_⟩
  rw [exec_internalAt hh hs (.stores b)]
  simp only [storeByte, lineStore, dif_pos room, full_iff]

/-- Settles O42: K1 is the fault entry. -/
theorem panicEntersTheFaultPath : Obligations.PanicEntersTheFaultPath := fun _ hh hs =>
  exec_internalAt hh hs .panics

/-! ## Blocks that take no step, and blocks right after reset -/

theorem step_halted {s : State} (hh : s.halted = true) : step s = .refused .halted := by
  simp [step, turn, hh]

/-- Settles O45: HALTED is tested before anything else, and presenting words does not clear it. -/
theorem haltedBlockTakesNoStep : Obligations.HaltedBlockTakesNoStep := fun _ _ hh =>
  ⟨step_halted hh, step_halted hh⟩

theorem step_badConfig {s : State} (hh : s.halted = false) (hv : s.cfg.valid ≠ true) : step s = .refused .badConfig := by
  simp [step, turn, hh, hv]

/-- Settles O46: a valid configuration meets every constraint, so one that breaks a constraint is not valid. -/
theorem invalidConfigurationIsRefused : Obligations.InvalidConfigurationIsRefused := by
  refine fun s hh broken => step_badConfig hh fun hv => ?_
  have aw := valid_aw hv
  obtain ⟨channel, aligned, nonzero, fits, txff, rxfe, full, empty⟩ := valid_rest hv
  rcases broken with h | ⟨b, hb, h⟩ | ⟨o, ho, h⟩ | ⟨b, hb, o, ho, h⟩ | h | h | h | h | h | h | h | h
  · omega
  · have := valid_base hv hb; omega
  · have := valid_offset hv ho; omega
  · exact absurd (valid_sum hv hb ho) (Nat.not_lt.mpr h)
  · omega
  · exact h aligned
  · exact nonzero h
  · omega
  · exact txff h
  · exact rxfe h
  · exact full h
  · exact empty h

theorem accepting_assertReset {s : State} (hv : s.cfg.valid = true) (ws : List CmdWord) :
    Accepting (s.assertReset.present ws) := ⟨hv, rfl, rfl, rfl⟩

/-- Settles O55: reset writes each register, and the block it leaves accepts the encoding of the next command. -/
theorem resetAbandonsTheCommand : Obligations.ResetAbandonsTheCommand := by
  intro s i hv hi
  have decodes : decode (s.assertReset.present (encode i)).port = .command i [] := decode_of_eq_encode hi rfl
  exact ⟨rfl, rfl, rfl, rfl, rfl, rfl, rfl, rfl, rfl, rfl, rfl, rfl, rfl, rfl, resetFor_status s.cfg,
    _, step_accepts (accepting_assertReset hv _) decodes, rfl, rfl, rfl⟩

/-- Right after reset the block is idle with nothing recorded, so only the configuration is to be checked. -/
theorem inv_resetFor {c : Cfg} (hv : c.valid = true) : Inv (State.resetFor c) where
  cfg := hv
  base := .inl rfl
  ready := nofun
  initBase := nofun
  len := Nat.zero_le _
  pidx := Nat.zero_le _
  busy := by simp [State.resetFor]
  halted := nofun
  code := Nat.zero_le _
  fault := by simp [State.resetFor, onFaultPath]
  position := .inl rfl
  latches := rfl

/-- Settles O57: the reference configuration is valid too. -/
theorem invariantHoldsAtReset : Obligations.InvariantHoldsAtReset :=
  ⟨inv_resetFor (by decide), fun _ => inv_resetFor⟩

end Sys2Proof.Machine
end

section
/-! SUPPORT. The invariant of the block along every step (spec/10_state.md R20 to R34): what each kind of step leaves, and
that the machine never gets stuck in a state of the invariant. -/

namespace Sys2Proof.Machine

open Sys2Proof.Config (Cfg BusEvent)

/-! ## What a position asks of the latches -/

/-- The lines of MboxCall after M1, where `MREQ` holds the request word (R131). -/
def requestLatched : Seq → Bool
  | .mbox .m1 => false
  | .mbox _ => true
  | .init (.s7m .m1) => false
  | .init (.s7m _) => true
  | _ => false

theorem requestLatched_of_ne_m1 {l : MboxLine} (hl : l ≠ .m1) :
    requestLatched (.mbox l) = true ∧ requestLatched (.init (.s7m l)) = true := by
  cases l with
  | m1 => exact absurd rfl hl
  | _ => exact ⟨rfl, rfl⟩

/-- The lines of a delay loop, where `DCNT` counts (R120). -/
def counting : Seq → Bool
  | .delay .l2 => true
  | .init (.s3d .l2) => true
  | .init (.s4d .l2) => true
  | _ => false

/-- The lines of GETS between G0 and G9, where the line has room for a byte (R198). -/
def lineOpen : Seq → Bool
  | .gets .g0 => false
  | .gets .g9 => false
  | .gets _ => true
  | _ => false

/-- `latchesFit` for a position of a command, latch by latch. -/
theorem latchesFit_iff {s : State} {l : Seq} (h : onFaultPath l = false) :
    latchesFit s l = true ↔ (requestLatched l = true → s.mreq = requestWord s.cfg) ∧
      (counting l = true → s.dcnt ≠ 0) ∧ (lineOpen l = true → s.len.toNat < 128) := by
  cases l with
  | emit | halt => cases h
  | delay l => cases l <;> simp [latchesFit, requestLatched, counting, lineOpen]
  | mbox l => cases l <;> simp [latchesFit, requestLatched, counting, lineOpen]
  | init l =>
    cases l with
    | s3d l => cases l <;> simp [latchesFit, requestLatched, counting, lineOpen]
    | s4d l => cases l <;> simp [latchesFit, requestLatched, counting, lineOpen]
    | s7m l => cases l <;> simp [latchesFit, requestLatched, counting, lineOpen]
    | _ => simp [latchesFit, requestLatched, counting, lineOpen]
  | gets l => cases l <;> simp [latchesFit, requestLatched, counting, lineOpen]
  | _ => simp [latchesFit, requestLatched, counting, lineOpen]

/-- A position that a line may lead to without writing a latch: a line of the same command that asks no more of the
latches, and no line of INIT behind S1 but from one. -/
structure Follows (i : Instr) (l l' : Seq) : Prop where
  line : lineOf i l = true → lineOf i l' = true
  request : requestLatched l' = true → requestLatched l = true
  counting : counting l' = false
  room : lineOpen l' = true → lineOpen l = true
  behindS1 : ∀ il, l' = .init il → il ≠ .s1 → ∃ jl, l = .init jl ∧ jl ≠ .s1

theorem follows_complete {i : Instr} {l : Seq} (hi : i.opcode ≠ .panic) : Follows i l .complete where
  line _ := by simp [lineOf, hi]
  request := nofun
  counting := rfl
  room := nofun
  behindS1 := nofun

/-- The loop of PUTS goes on at a byte of the text or completes (R190, R191). -/
theorem follows_putsAt (n : Offset) (text : List Byte) (l : Seq) (k : Nat) :
    Follows (.puts n text) l (putsAt n k) := by
  by_cases inside : k < n.toNat
  · rw [putsAt, countOperand, if_pos inside]
    exact ⟨fun _ => by simp [lineOf, inside], nofun, rfl, nofun, nofun⟩
  · rw [putsAt, countOperand, if_neg inside]
    exact follows_complete (by simp [Instr.opcode])

theorem follows_t1 {i : Instr} {inside : TxLine → Seq} {b : Byte} {next : Seq} (h : SendsAt i inside b next)
    (l : TxLine) : Follows i (inside .t1) (inside l) := by
  cases h <;> exact ⟨fun h => h, nofun, rfl, fun h => h, nofun⟩

theorem follows_t2 {i : Instr} {inside : TxLine → Seq} {b : Byte} {next : Seq} (h : SendsAt i inside b next) :
    Follows i (inside .t2) next := by
  cases h with
  | putb => exact follows_complete (by simp [Instr.opcode])
  | puts n text k => exact follows_putsAt n text _ (k + 1)
  | echoMore => exact ⟨fun _ => rfl, nofun, rfl, fun _ => rfl, nofun⟩
  | echoLast b k => cases k <;> exact ⟨fun _ => rfl, nofun, rfl, fun _ => rfl, nofun⟩

theorem follows_x1 {i : Instr} {inside : RxLine → Seq} {got : Byte → Seq} (h : ReceivesAt i inside got)
    (l : RxLine) : Follows i (inside .x1) (inside l) := by
  cases h <;> exact ⟨fun h => h, nofun, rfl, fun h => h, nofun⟩

theorem follows_x2 {i : Instr} {inside : RxLine → Seq} {got : Byte → Seq} (h : ReceivesAt i inside got)
    (b : Byte) : Follows i (inside .x2) (got b) := by
  cases h with
  | getb => exact ⟨fun h => h, nofun, rfl, nofun, nofun⟩
  | gets => exact ⟨fun _ => rfl, nofun, rfl, fun _ => rfl, nofun⟩

/-- Behind M1 the handshake moves among its lines. -/
theorem follows_mbox {i : Instr} {inside : MboxLine → Seq} {leave : Seq} (h : HandshakesAt i inside leave)
    {l : MboxLine} (hl : l ≠ .m1) (l' : MboxLine) : Follows i (inside l) (inside l') := by
  cases h with
  | mbox => exact ⟨fun _ => rfl, fun _ => (requestLatched_of_ne_m1 hl).1, rfl, nofun, nofun⟩
  | init p =>
    exact ⟨fun _ => rfl, fun _ => (requestLatched_of_ne_m1 hl).2, rfl, nofun, fun _ _ _ => ⟨_, rfl, by simp⟩⟩

theorem follows_leave {i : Instr} {inside : MboxLine → Seq} {leave : Seq} (h : HandshakesAt i inside leave)
    (l : MboxLine) : Follows i (inside l) leave := by
  cases h with
  | mbox => exact follows_complete (by simp [Instr.opcode])
  | init p => exact ⟨fun _ => rfl, nofun, rfl, nofun, fun _ _ _ => ⟨_, rfl, by simp⟩⟩

theorem follows_of_ite {i : Instr} {l a b : Seq} {p : Prop} [Decidable p] (ha : Follows i l a) (hb : Follows i l b) :
    Follows i l (if p then a else b) := by
  split
  · exact ha
  · exact hb

/-- Every position a reading line leads to. -/
theorem follows_of_readsAt {c : Cfg} {m : Word} {i : Instr} {l : Seq} {off : Nat} {goesTo : Word → Seq}
    (h : ReadsAt c m i l off goesTo) (v : Word) : Follows i l (goesTo v) := by
  cases h with
  | regr => exact ⟨fun _ => rfl, nofun, rfl, nofun, nofun⟩
  | txff h => exact follows_of_ite (follows_t1 h .t1) (follows_t1 h .t2)
  | rxfe h => exact follows_of_ite (follows_x1 h .x1) (follows_x1 h .x2)
  | data h => exact follows_x2 h _
  | full h => exact follows_of_ite (follows_mbox h (by simp) .m2) (follows_mbox h (by simp) .m3)
  | empty h => exact follows_of_ite (follows_mbox h (by simp) .m4Status) (follows_mbox h (by simp) .m4Read)
  | reply h => exact follows_of_ite (follows_mbox h (by simp) .m4Status) (follows_leave h .m4Read)

/-- The position a writing line leads to. -/
theorem follows_of_writesAt {c : Cfg} {m : Word} {i : Instr} {l : Seq} {off : Nat} {v : Word} {next : Seq}
    (h : WritesAt c m i l off v next) : Follows i l next := by
  cases h with
  | regw => exact follows_complete (by simp [Instr.opcode])
  | send h => exact follows_t2 h
  | request h => exact follows_mbox h (by simp) .m4Status
  | init p h => cases h <;> exact ⟨fun _ => rfl, nofun, rfl, nofun, fun _ _ _ => ⟨_, rfl, by simp⟩⟩

/-! ## The invariant, taken apart -/

/-- The part of the invariant that does not speak of the position. -/
structure Registers (s : State) : Prop where
  cfg : s.cfg.valid = true
  base : s.base = 0 ∨ Resolved s
  ready : s.drv = .ready → s.base ≠ 0
  len : s.len.toNat ≤ 128
  pidx : s.pidx.toNat ≤ 13

/-- The invariant while a command runs (R24 to R27). -/
structure Running (i : Instr) (s : State) : Prop where
  registers : Registers s
  halted : s.halted = false
  busy : s.busy = true
  code : s.faultCode = 0
  cur : s.cur = some i
  wf : i.wellFormed = true
  line : lineOf i s.seq = true
  initBase : ∀ l, s.seq = .init l → l ≠ .s1 → s.base ≠ 0
  latches : latchesFit s s.seq = true

/-- The invariant on the fault path (R224, R226, R228). -/
structure Emitting (s : State) : Prop where
  registers : Registers s
  halted : s.halted = false
  busy : s.busy = true
  recorded : s.faultCode ≠ 0
  code : s.faultCode.toNat ≤ 6
  path : onFaultPath s.seq = true
  latches : latchesFit s s.seq = true

/-- The invariant at Idle (R25, R27, R228). -/
structure AtIdle (s : State) : Prop where
  registers : Registers s
  seq : s.seq = .idle
  busy : s.busy = false
  fault : s.faultCode ≠ 0 ↔ s.halted = true
  code : s.faultCode.toNat ≤ 6

theorem inv_registers {s : State} (h : Inv s) : Registers s := ⟨h.cfg, h.base, h.ready, h.len, h.pidx⟩

theorem Running.inv {i : Instr} {s : State} (h : Running i s) : Inv s where
  cfg := h.registers.cfg
  base := h.registers.base
  ready := h.registers.ready
  initBase := h.initBase
  len := h.registers.len
  pidx := h.registers.pidx
  busy := by simp [h.busy, (lineOf_inside h.line).1]
  halted := by simp [h.halted]
  code := by simp [h.code]
  fault := by simp [h.code, h.halted, (lineOf_inside h.line).2]
  position := .inr (.inr ⟨i, h.cur, h.wf, h.line⟩)
  latches := h.latches

theorem Emitting.inv {s : State} (h : Emitting s) : Inv s where
  cfg := h.registers.cfg
  base := h.registers.base
  ready := h.registers.ready
  initBase l hl := by have path := h.path; rw [hl] at path; cases path
  len := h.registers.len
  pidx := h.registers.pidx
  busy := by
    have not_idle : s.seq ≠ .idle := fun idle => by have path := h.path; rw [idle] at path; cases path
    simp [h.busy, not_idle]
  halted := by simp [h.halted]
  code := h.code
  fault := iff_of_true h.recorded (.inr h.path)
  position := .inr (.inl h.path)
  latches := h.latches

theorem AtIdle.inv {s : State} (h : AtIdle s) : Inv s where
  cfg := h.registers.cfg
  base := h.registers.base
  ready := h.registers.ready
  initBase := by simp [h.seq]
  len := h.registers.len
  pidx := h.registers.pidx
  busy := by simp [h.busy, h.seq]
  halted _ := h.seq
  code := h.code
  fault := h.fault.trans (by simp [h.seq, onFaultPath])
  position := .inl h.seq
  latches := by rw [h.seq]; rfl

theorem inv_running {s : State} (h : Inv s) (not_idle : s.seq ≠ .idle) (not_fault : onFaultPath s.seq = false) :
    ∃ i, Running i s := by
  rcases h.position with idle | path | ⟨i, cur, wf, line⟩
  · exact absurd idle not_idle
  · simp [path] at not_fault
  · have not_halted : s.halted = false := by
      rw [← Bool.not_eq_true]; exact fun hh => not_idle (h.halted hh)
    have no_fault : ¬ s.faultCode ≠ 0 := fun recorded => by simpa [not_halted, not_fault] using h.fault.mp recorded
    exact ⟨i, inv_registers h, not_halted, h.busy.mpr not_idle, not_not.mp no_fault, cur, wf, line, h.initBase,
      h.latches⟩

theorem inv_emitting {s : State} (h : Inv s) (path : onFaultPath s.seq = true) : Emitting s := by
  have not_idle : s.seq ≠ .idle := fun idle => by rw [idle] at path; cases path
  have not_halted : s.halted = false := by
    rw [← Bool.not_eq_true]; exact fun hh => not_idle (h.halted hh)
  exact ⟨inv_registers h, not_halted, h.busy.mpr not_idle, h.fault.mpr (.inr path), h.code, path, h.latches⟩

theorem inv_atIdle {s : State} (h : Inv s) (idle : s.seq = .idle) : AtIdle s := by
  refine ⟨inv_registers h, idle, ?_, h.fault.trans (by simp [idle, onFaultPath]), h.code⟩
  rw [← Bool.not_eq_true]
  exact fun hb => h.busy.mp hb idle

/-- The command of a running state is the one in `CUR`. -/
theorem inv_running_cur {s : State} {i : Instr} (h : Inv s) (cur : s.cur = some i) (line : lineOf i s.seq = true) :
    Running i s := by
  obtain ⟨not_idle, not_fault⟩ := lineOf_inside line
  obtain ⟨j, running⟩ := inv_running h not_idle not_fault
  have same : j = i := Option.some_injective _ (running.cur.symm.trans cur)
  exact same ▸ running

/-! ## Lines keep the invariant -/

/-- An access writes no register. -/
theorem Accessed.registers {s s' : State} {may : BusEvent → Prop} (h : Accessed s may s') (hr : Registers s) :
    Registers s' := by
  cases h <;> exact ⟨hr.cfg, hr.base, hr.ready, hr.len, hr.pidx⟩

theorem Accessed.running {i : Instr} {s s' : State} {may : BusEvent → Prop} (h : Accessed s may s')
    (hr : Running i s) : Running i s' := by
  have registers := h.registers hr.registers
  cases h <;> exact ⟨registers, hr.halted, hr.busy, hr.code, hr.cur, hr.wf, hr.line, hr.initBase, hr.latches⟩

/-- Moving to a position that follows keeps the invariant. -/
theorem Running.goto {i : Instr} {s : State} {l : Seq} (h : Running i s) (hl : Follows i s.seq l) :
    Running i (s.goto l) := by
  have line := hl.line h.line
  obtain ⟨request, -, room⟩ := (latchesFit_iff (lineOf_inside h.line).2).mp h.latches
  refine ⟨⟨h.registers.cfg, h.registers.base, h.registers.ready, h.registers.len, h.registers.pidx⟩, h.halted, h.busy,
    h.code, h.cur, h.wf, line, fun il hil not_s1 => ?_, (latchesFit_iff (lineOf_inside line).2).mpr
      ⟨fun latched => request (hl.request latched), fun counts => ?_, fun open_line => room (hl.room open_line)⟩⟩
  · obtain ⟨jl, at_jl, behind⟩ := hl.behindS1 il hil not_s1
    exact h.initBase jl at_jl behind
  · exact absurd counts (by simp [hl.counting])

/-- R220: the codes are 1 to 6. -/
theorem code_range {f : FaultCode} (hf : f ≠ .none) : f.code ≠ 0 ∧ f.code.toNat ≤ 6 := by
  cases f with
  | none => exact absurd rfl hf
  | _ => decide

/-- The fault entry, with one of R220's codes, from a state with good registers. -/
theorem emitting_raise {s : State} (hr : Registers s) (hh : s.halted = false) {f : FaultCode} (hf : f ≠ .none)
    (info : CmdWord) : Emitting (raise f info s) :=
  ⟨⟨hr.cfg, hr.base, hr.ready, hr.len, Nat.zero_le _⟩, hh, rfl, (code_range hf).1, (code_range hf).2, rfl, rfl⟩

theorem accessFault_ne_none {s : State} {off : Nat} {f : FaultCode} (h : AccessFault s off f) : f ≠ .none := by
  rcases h.kind with ⟨rfl | rfl, -⟩ | ⟨rfl, -⟩ <;> decide

/-- Reading and writing lines keep the invariant. -/
theorem lineEnds_inv {i : Instr} {s t : State} {off : Nat} {may : BusEvent → Prop} {next : Seq → Prop}
    (hr : Running i s) (hn : ∀ l, next l → Follows i s.seq l) (h : LineEnds s off may next t) : Inv t := by
  cases h with
  | goesOn l accessed hl =>
    have same_seq : ∀ s', Accessed s may s' → s'.seq = s.seq := fun s' a => by cases a <;> rfl
    exact ((accessed.running hr).goto (same_seq _ accessed ▸ hn l hl)).inv
  | traps f info accessed fault =>
    have after := accessed.running hr
    exact (emitting_raise after.registers after.halted (accessFault_ne_none fault) info).inv

/-- R52: a base of the Locator is not 0. -/
theorem lookupBase_ne_zero {c : Cfg} (hv : c.valid = true) (p : Word) : lookupBase c p ≠ 0 :=
  (valid_base hv (lookupBase_mem c p)).1

/-- `BASE` from the Locator keeps the registers good. -/
theorem registers_lookup {s : State} (h : Registers s) (p : Word) (l : Seq) :
    Registers { s with base := lookupBase s.cfg p, seq := l } :=
  ⟨h.cfg, .inr (lookupBase_mem s.cfg p), fun _ => lookupBase_ne_zero h.cfg p, h.len, h.pidx⟩

/-- The positions in and behind a delay. -/
theorem follows_countsAt {i : Instr} {inside : DelayLine → Seq} {count : Word} {leave : Seq}
    (h : CountsAt i inside count leave) (l : DelayLine) : Follows i (inside l) leave := by
  cases h with
  | delay => exact follows_complete (by simp [Instr.opcode])
  | s3d | s4d => exact ⟨fun _ => rfl, nofun, rfl, nofun, fun _ _ _ => ⟨_, rfl, by simp⟩⟩

/-- A delay loop that goes on has iterations left (R120). -/
theorem Running.count {i : Instr} {inside : DelayLine → Seq} {count : Word} {leave : Seq} {s : State} {l : DelayLine}
    (h : Running i s) (hc : CountsAt i inside count leave) (hs : s.seq = inside l) (n : Word) :
    Running i { s with dcnt := n, seq := if n = 0 then leave else inside .l2 } := by
  have with_count : Running i { s with dcnt := n, seq := leave } := by
    have left := h.goto (hs ▸ follows_countsAt hc l)
    refine ⟨⟨left.registers.cfg, left.registers.base, left.registers.ready, left.registers.len, left.registers.pidx⟩,
      left.halted, left.busy, left.code, left.cur, left.wf, left.line, left.initBase, ?_⟩
    cases hc <;> rfl
  by_cases last : n = 0
  · rw [if_pos last]; exact with_count
  · rw [if_neg last]
    refine ⟨⟨h.registers.cfg, h.registers.base, h.registers.ready, h.registers.len, h.registers.pidx⟩, h.halted, h.busy,
      h.code, h.cur, h.wf, ?_, ?_, ?_⟩
    · cases hc <;> rfl
    · intro il hil _
      cases hc with
      | delay => cases hil
      | s3d | s4d => exact h.initBase _ hs (by simp)
    · cases hc <;> exact bne_iff_ne.mpr last

/-- The first line behind an entry check asks nothing of the latches. -/
theorem follows_checksEntry {i : Instr} {first : Seq} (h : ChecksEntry i first) : Follows i .e0 first := by
  cases h with
  | puts n text => exact follows_putsAt n text .e0 0
  | _ => exact ⟨fun _ => rfl, nofun, rfl, nofun, nofun⟩

theorem negotiates_follows (p : Word) :
    Follows (.init p) (.init .s7) (if Config.mboxGenMin ≤ p then .init (.s7m .m1) else .init .s8a) :=
  follows_of_ite ⟨fun _ => rfl, nofun, rfl, nofun, fun _ _ _ => ⟨_, rfl, by simp⟩⟩
    ⟨fun _ => rfl, nofun, rfl, nofun, fun _ _ _ => ⟨_, rfl, by simp⟩⟩

/-- GETS at a line that writes `LEN` keeps the invariant where the length stays below the capacity, or reaches it at
G9. -/
theorem Running.edit {s : State} (h : Running .gets s) {n : BitVec 8} {lb : Vector Byte 128} {l : GetsLine}
    (hn : n.toNat ≤ 128) (hl : l = .g9 ∨ n.toNat < 128) :
    Running .gets { s with lb := lb, len := n, seq := .gets l } := by
  refine ⟨⟨h.registers.cfg, h.registers.base, h.registers.ready, hn, h.registers.pidx⟩, h.halted, h.busy, h.code, h.cur,
    h.wf, rfl, nofun, (latchesFit_iff rfl).mpr ⟨nofun, nofun, fun open_line => ?_⟩⟩
  rcases hl with rfl | below
  · cases open_line
  · exact below

/-- A response keeps the invariant. -/
theorem Running.respond {i : Instr} {s : State} (h : Running i s) (hi : i.opcode ≠ .panic) (ws : List CmdWord) :
    Running i ((respond ws s).goto .complete) := by
  have done := h.goto (follows_complete (l := s.seq) hi)
  exact ⟨⟨done.registers.cfg, done.registers.base, done.registers.ready, done.registers.len, done.registers.pidx⟩,
    done.halted, done.busy, done.code, done.cur, done.wf, done.line, done.initBase, rfl⟩

/-- Internal lines keep the invariant. -/
theorem internalAt_inv {i : Instr} {s t : State} (hr : Running i s) {l : Seq} (hs : s.seq = l)
    (h : InternalAt s i l t) : Inv t := by
  obtain ⟨request, -, room⟩ := (latchesFit_iff (lineOf_inside hr.line).2).mp hr.latches
  cases h with
  | resolves p =>
    exact Running.inv (i := .resolve p) ⟨registers_lookup hr.registers p .complete, hr.halted, hr.busy, hr.code, hr.cur,
      rfl, rfl, nofun, rfl⟩
  | initResolves p =>
    exact Running.inv (i := .init p) ⟨registers_lookup hr.registers p _, hr.halted, hr.busy, hr.code, hr.cur, rfl, rfl,
      fun _ _ _ => lookupBase_ne_zero hr.registers.cfg p, rfl⟩
  | regrResponds | getbResponds | getsResponds => exact (hr.respond (by simp [Instr.opcode]) _).inv
  | loads hc => exact (hr.count hc hs _).inv
  | counts hc => exact (hr.count hc hs _).inv
  | leaves hc => exact (hr.goto (hs ▸ follows_countsAt hc .l2)).inv
  | latches hm =>
    refine Running.inv (i := i) ⟨⟨hr.registers.cfg, hr.registers.base, hr.registers.ready, hr.registers.len,
      hr.registers.pidx⟩, hr.halted, hr.busy, hr.code, hr.cur, hr.wf, ?_, ?_, ?_⟩
    · cases hm <;> rfl
    · intro il hil _
      cases hm with
      | mbox => cases hil
      | init => exact hr.initBase _ hs (by simp)
    · cases hm <;> simp [latchesFit]
  | negotiates p => exact (hr.goto (hs ▸ negotiates_follows p)).inv
  | becomesReady p =>
    exact Running.inv (i := .init p) ⟨⟨hr.registers.cfg, hr.registers.base, fun _ => hr.initBase _ hs (by simp),
      hr.registers.len, hr.registers.pidx⟩, hr.halted, hr.busy, hr.code, hr.cur, rfl, rfl, nofun, rfl⟩
  | passes hf => exact (hr.goto (hs ▸ follows_checksEntry hf)).inv
  | unready | panics => exact (emitting_raise hr.registers hr.halted (by decide) _).inv
  | clears => exact (hr.edit (lb := s.lb) (by decide) (.inr (by decide))).inv
  | discards =>
    have below : s.len.toNat < 128 := room (by rw [hs]; rfl)
    refine (hr.edit (lb := s.lb) (n := if s.len = 0 then 0 else s.len - 1) (l := .g2 .x1) ?_ (.inr ?_)).inv
    all_goals split <;> bv_omega
  | stores b =>
    have below : s.len.toNat < 128 := room (by rw [hs]; rfl)
    have sum : (s.len + 1).toNat = s.len.toNat + 1 := by bv_omega
    have stored := hr.edit (lb := lineStore s.lb s.len.toNat b) (n := s.len + 1)
      (l := if (s.len + 1).toNat = Config.lbCap then .g9 else .g2 .x1) (by omega) (by
        unfold Config.lbCap
        split
        next => exact .inl rfl
        next not_full => exact .inr (by omega))
    rw [storeByte, ← apply_ite Seq.gets]
    exact stored.inv

/-- Every line of a command keeps the invariant. -/
theorem lineAt_inv {i : Instr} {s t : State} (hr : Running i s) (h : LineAt s i s.seq t) : Inv t := by
  cases h with
  | reads h =>
    exact lineEnds_inv hr (fun _ ⟨v, hl⟩ => hl ▸ follows_of_readsAt h v) (readLine_ends _ _ s)
  | writes h => exact lineEnds_inv hr (fun _ hl => by rw [hl]; exact follows_of_writesAt h) (writeLine_ends _ _ _ s)
  | internal h => exact internalAt_inv hr rfl h

/-! ## The emission -/

/-- T1 of the emission is a poll of TXFF, T2 the write of its byte (R226); an error goes to Halt (R227). -/
theorem emitLine_t1 (s : State) : emitLine .t1 s =
    readThen (fun _ _ s => s.goto .halt) s.cfg.off.uartFr
      (fun v => if flagSet v s.cfg.mask.txff then .emit .t1 else .emit .t2) s :=
  txLine_t1_finish (inside := .emit) fun _ _ => rfl

theorem emitLine_t2 (s : State) : emitLine .t2 s =
    (regWrite s.cfg.off.uartDr ((panicByte s.pidx).setWidth 32) s).finish (fun _ _ s => s.goto .halt)
      fun _ s => emitNext s :=
  txLine_t2_finish _ _ _ s

/-- What a line of the emission leaves: one access at most, then another line of it, the next byte, or Halt. -/
inductive EmitEnds (s : State) : State → Prop where
  | goesOn {s' : State} (l : Seq) : Accessed s (fun _ => True) s' → (l = .halt ∨ ∃ l', l = .emit l') →
      EmitEnds s (s'.goto l)
  | next {s' : State} : Accessed s (fun _ => True) s' → EmitEnds s (emitNext s')

theorem Accessed.mono {s s' : State} {may may' : BusEvent → Prop} (h : Accessed s may s') (hm : ∀ e, may e → may' e) :
    Accessed s may' s' := by
  cases h with
  | none => exact .none
  | read ea he hb hle ha hf => exact .read ea (hm _ he) hb hle ha hf
  | write ea v he hb hle ha hf => exact .write ea v (hm _ he) hb hle ha hf

theorem emitLine_ends (l : TxLine) (s : State) : EmitEnds s (emitLine l s) := by
  cases l with
  | t1 =>
    rw [emitLine_t1, readThen]
    rcases regRead_accessed s.cfg.off.uartFr s with ⟨v, s', done, accessed⟩ | ⟨f, info, s', trap, accessed, -⟩
    · rw [done]
      exact .goesOn _ (accessed.mono fun _ _ => trivial) (.inr (by split <;> exact ⟨_, rfl⟩))
    · rw [trap]; exact .goesOn .halt (accessed.mono fun _ _ => trivial) (.inl rfl)
  | t2 =>
    rw [emitLine_t2]
    rcases regWrite_accessed s.cfg.off.uartDr ((panicByte s.pidx).setWidth 32) s with
      ⟨s', done, accessed⟩ | ⟨f, info, s', trap, accessed, -⟩
    · rw [done]; exact .next (accessed.mono fun _ _ => trivial)
    · rw [trap]; exact .goesOn .halt (accessed.mono fun _ _ => trivial) (.inl rfl)

theorem Accessed.emitting {s s' : State} {may : BusEvent → Prop} (h : Accessed s may s') (he : Emitting s) :
    Emitting s' := by
  have registers := h.registers he.registers
  cases h <;> exact ⟨registers, he.halted, he.busy, he.recorded, he.code, he.path, he.latches⟩

theorem Accessed.seq {s s' : State} {may : BusEvent → Prop} (h : Accessed s may s') : s'.seq = s.seq := by
  cases h <;> rfl

/-- Every line of the emission keeps the invariant. -/
theorem emitEnds_inv {s t : State} (he : Emitting s) {l : TxLine} (hs : s.seq = .emit l) (h : EmitEnds s t) : Inv t := by
  cases h with
  | @goesOn s' l' accessed hl =>
    have after := accessed.emitting he
    have left : s'.pidx.toNat < 13 := by
      have fit := after.latches
      rw [accessed.seq, hs] at fit
      simpa [latchesFit] using fit
    refine Emitting.inv ⟨⟨after.registers.cfg, after.registers.base, after.registers.ready, after.registers.len,
      after.registers.pidx⟩, after.halted, after.busy, after.recorded, after.code, ?_, ?_⟩
    · rcases hl with rfl | ⟨l', rfl⟩ <;> rfl
    · rcases hl with rfl | ⟨l', rfl⟩
      · rfl
      · exact decide_eq_true left
  | @next s' accessed =>
    have after := accessed.emitting he
    have left : s'.pidx.toNat < 13 := by
      have fit := after.latches
      rw [accessed.seq, hs] at fit
      simpa [latchesFit] using fit
    have sum : (s'.pidx + 1).toNat = s'.pidx.toNat + 1 := by bv_omega
    have bound : (s'.pidx + 1).toNat ≤ 13 := by omega
    refine Emitting.inv ⟨⟨after.registers.cfg, after.registers.base, after.registers.ready, after.registers.len, bound⟩,
      after.halted, after.busy, after.recorded, after.code, ?_, ?_⟩
    · rw [emitNext_seq]; split <;> rfl
    · rw [emitNext_seq]
      split
      next more => exact decide_eq_true (BitVec.lt_def.mp more)
      next => rfl

/-! ## Every step -/

/-- A command's first line asks nothing of the latches (R80). -/
theorem firstLine_fits (i : Instr) (s : State) : lineOf i (firstLine i) = true ∧ latchesFit s (firstLine i) = true ∧
    ∀ l, firstLine i = .init l → l = .s1 := by
  cases i <;> exact ⟨rfl, rfl, by simp [firstLine]⟩

/-- Settles O58: a step is a wait, an entry of the fault path, an acceptance, a line of the running command, a completion
or a step of the fault path, and each keeps its part of the invariant. -/
theorem everyStepKeepsTheInvariant : Obligations.EveryStepKeepsTheInvariant := by
  intro s t inv hstep
  obtain ⟨not_halted, -, kind⟩ := step_cases hstep
  cases kind with
  | waits => exact inv
  | illegal info rest =>
    have registers : Registers { s with port := rest } := ⟨inv.cfg, inv.base, inv.ready, inv.len, inv.pidx⟩
    exact (emitting_raise registers not_halted (by decide) info).inv
  | accepts i rest idle _ decodes =>
    have registers := (inv_atIdle inv idle).registers
    have no_fault : ¬ s.faultCode ≠ 0 := fun recorded => by
      simpa [not_halted] using (inv_atIdle inv idle).fault.mp recorded
    obtain ⟨line, latches, first⟩ := firstLine_fits i (accept i (firstLine i) { s with port := rest })
    exact Running.inv (i := i) ⟨⟨registers.cfg, registers.base, registers.ready, registers.len, registers.pidx⟩,
      not_halted, rfl, not_not.mp no_fault, rfl, (encodeOfDecodeIsTheWords _ _ _ decodes).1, line,
      fun l hl not_s1 => absurd (first l hl) not_s1, latches⟩
  | line i _ cur not_idle _ not_fault line =>
    obtain ⟨j, running⟩ := inv_running inv not_idle not_fault
    have same : j = i := Option.some_injective _ (running.cur.symm.trans cur)
    exact lineAt_inv (same ▸ running) (commandLine_iff.mp line)
  | completes i _ completed =>
    obtain ⟨j, running⟩ := inv_running inv (by simp [completed]) (by rw [completed]; rfl)
    have registers := running.registers
    exact AtIdle.inv ⟨⟨registers.cfg, registers.base, registers.ready, registers.len, registers.pidx⟩, rfl, rfl,
      by simp [running.code, running.halted], by simp [running.code]⟩
  | emits l hs => exact emitEnds_inv (inv_emitting inv (by rw [hs]; rfl)) hs (emitLine_ends l s)
  | halts hs =>
    have emitting := inv_emitting inv (by rw [hs]; rfl)
    have registers := emitting.registers
    exact AtIdle.inv ⟨⟨registers.cfg, registers.base, registers.ready, registers.len, registers.pidx⟩, rfl, rfl,
      iff_of_true emitting.recorded rfl, emitting.code⟩

/-! ## Progress -/

/-- Every position of a command but completion has a line. -/
theorem exists_commandLine {i : Instr} {l : Seq} (h : lineOf i l = true) (not_complete : l ≠ .complete) (s : State) :
    ∃ t, commandLine i l s = some t := by
  cases l with
  | idle | emit | halt => cases h
  | complete => exact absurd rfl not_complete
  | _ => cases i <;> first | exact ⟨_, rfl⟩ | cases h

/-- A command's meaning at a position of it answers a next state. -/
theorem exists_exec_next {i : Instr} {s : State} (hh : s.halted = false) (h : lineOf i s.seq = true) :
    ∃ t, exec i s = .next t := by
  by_cases completed : s.seq = .complete
  · exact ⟨_, completionFreesTheBlock s i hh completed⟩
  · obtain ⟨t, line⟩ := exists_commandLine h completed s
    exact ⟨t, exec_line hh (lineOf_inside h).1 completed line⟩

/-- An accepting block waits, faults or accepts. -/
theorem exists_step_accepting {s : State} (ha : Accepting s) : ∃ t, step s = .next t := by
  cases hd : decode s.port with
  | incomplete => exact ⟨_, step_waits ha hd⟩
  | illegal info rest => exact ⟨_, step_illegal ha hd⟩
  | command i rest => exact ⟨_, step_accepts ha hd⟩

section

variable {s : State} (hh : s.halted = false) (hv : s.cfg.valid = true)

include hh hv

theorem step_emit {l : TxLine} (hs : s.seq = .emit l) : step s = .next (emitLine l s) := by
  simp [step, turn, hh, hv, hs]

theorem step_halt (hs : s.seq = .halt) : step s = .next (haltBlock s) := by
  simp [step, turn, hh, hv, hs]

/-- Off Idle and off the fault path the turn is the command's in `CUR`, if there is one (R24, R26). -/
theorem step_cur (not_idle : s.seq ≠ .idle) (not_fault : onFaultPath s.seq = false) :
    step s = match s.cur with
      | some i => exec i s
      | none => .fault .noCommand := by
  cases hs : s.seq with
  | idle => exact absurd hs not_idle
  | emit | halt => rw [hs] at not_fault; cases not_fault
  | _ => cases hc : s.cur <;> simp [step, turn, hh, hv, hs, hc]

end

/-- Settles O59: Idle accepts or waits, the fault path goes on, and a command is at one of its lines. -/
theorem machineNeverGetsStuck : Obligations.MachineNeverGetsStuck := by
  intro s inv not_halted
  by_cases idle : s.seq = .idle
  · exact exists_step_accepting ⟨inv.cfg, not_halted, (inv_atIdle inv idle).busy, idle⟩
  · have running_at : RunningAt s s.seq := ⟨inv.cfg, not_halted, inv.busy.mpr idle, rfl⟩
    rcases inv.position with at_idle | path | ⟨i, cur, -, line⟩
    · exact absurd at_idle idle
    · cases hs : s.seq with
      | emit l => exact ⟨_, step_emit not_halted inv.cfg hs⟩
      | halt => exact ⟨_, step_halt not_halted inv.cfg hs⟩
      | _ => rw [hs] at path; cases path
    · rw [stepRunsTheCommandInCur s i s.seq running_at cur line]
      exact exists_exec_next not_halted line

end Sys2Proof.Machine
end

section
/-! SUPPORT. What the host cannot see (spec/10_state.md R29 to R32): the step commutes with replacing the bytes of `LB` at
`LEN` and above, `MREQ` outside the handshake and `DCNT` outside a delay. -/

namespace Sys2Proof.Machine

open Sys2Proof.Config (Cfg BusEvent)

/-! ## Replacing the latches -/

/-- The state with other contents of the three latches that reset leaves unspecified. -/
def withLatches (lb : Vector Byte 128) (m d : Word) (s : State) : State := { s with lb := lb, mreq := m, dcnt := d }

/-- The two buffers hold the same line. -/
def SameLine (n : Nat) (lb lb' : Vector Byte 128) : Prop := ∀ k, k < n → lb.toList[k]? = lb'.toList[k]?

/-- `Alike`, with the positions that read `MREQ` and `DCNT` as conditions on `SEQ`. -/
theorem alike_withLatches {s : State} {lb : Vector Byte 128} {m d : Word} (line : SameLine s.len.toNat s.lb lb)
    (request : requestLatched s.seq = true → s.mreq = m) (delay : counting s.seq = true → s.dcnt = d) :
    Alike s (withLatches lb m d s) where
  rest := rfl
  line := line
  request l hl hs := by
    obtain ⟨in_mbox, in_init⟩ := requestLatched_of_ne_m1 hl
    exact request (hs.elim (fun hs => hs ▸ in_mbox) fun hs => hs ▸ in_init)
  delay hs := delay <| by rcases hs with hs | hs | hs <;> rw [hs] <;> rfl

theorem alike_request {s t : State} (h : Alike s t) (hl : requestLatched s.seq = true) : s.mreq = t.mreq := by
  cases hs : s.seq with
  | mbox l => exact h.request l (fun m1 => by rw [hs, m1] at hl; cases hl) (.inl hs)
  | init l =>
    cases l with
    | s7m l => exact h.request l (fun m1 => by rw [hs, m1] at hl; cases hl) (.inr hs)
    | _ => rw [hs] at hl; cases hl
  | _ => rw [hs] at hl; cases hl

theorem alike_delay {s t : State} (h : Alike s t) (hl : counting s.seq = true) : s.dcnt = t.dcnt := by
  cases hs : s.seq with
  | delay l => cases l with
    | l1 => rw [hs] at hl; cases hl
    | l2 => exact h.delay (.inl hs)
  | init l =>
    cases l with
    | s3d l => cases l with
      | l1 => rw [hs] at hl; cases hl
      | l2 => exact h.delay (.inr (.inl hs))
    | s4d l => cases l with
      | l1 => rw [hs] at hl; cases hl
      | l2 => exact h.delay (.inr (.inr hs))
    | _ => rw [hs] at hl; cases hl
  | _ => rw [hs] at hl; cases hl

/-! ## The accessor does not read the latches -/

/-- The end of an access with the state it leaves replaced. -/
def Access.onState {α : Type} (f : State → State) : Access α → Access α
  | .done a s => .done a (f s)
  | .trap c info s => .trap c info (f s)

/-- What follows an access commutes with a change of the state where both of its ways on do. -/
theorem finish_onState {α : Type} {f : State → State} {onTrap : FaultCode → CmdWord → State → State}
    {k : α → State → State} (ht : ∀ c info s, onTrap c info (f s) = f (onTrap c info s))
    (hk : ∀ a s, k a (f s) = f (k a s)) (r : Access α) : (r.onState f).finish onTrap k = f (r.finish onTrap k) := by
  cases r with
  | done a s => exact hk a s
  | trap c info s => exact ht c info s

section

variable (lb : Vector Byte 128) (m d : Word)

theorem regRead_withLatches (off : Nat) (s : State) :
    regRead off (withLatches lb m d s) = (regRead off s).onState (withLatches lb m d) := by
  have same_fault : addressFault off (withLatches lb m d s) = addressFault off s := rfl
  have same_err : (withLatches lb m d s).readErr = s.readErr := rfl
  have same_base : (withLatches lb m d s).base = s.base := rfl
  rw [regRead, regRead, same_fault, same_err, same_base]
  by_cases unresolved : s.base = 0
  · rw [if_pos unresolved, if_pos unresolved]; rfl
  · rw [if_neg unresolved, if_neg unresolved]
    cases addressFault off s with
    | some p => rfl
    | none => cases s.readErr <;> rfl

theorem regWrite_withLatches (off : Nat) (v : Word) (s : State) :
    regWrite off v (withLatches lb m d s) = (regWrite off v s).onState (withLatches lb m d) := by
  have same_fault : addressFault off (withLatches lb m d s) = addressFault off s := rfl
  have same_err : (withLatches lb m d s).writeErr = s.writeErr := rfl
  have same_base : (withLatches lb m d s).base = s.base := rfl
  rw [regWrite, regWrite, same_fault, same_err, same_base]
  by_cases unresolved : s.base = 0
  · rw [if_pos unresolved, if_pos unresolved]; rfl
  · rw [if_neg unresolved, if_neg unresolved]
    cases addressFault off s with
    | some p => rfl
    | none => cases s.writeErr <;> rfl

theorem readLine_withLatches (off : Nat) (goesTo : Word → Seq) (s : State) :
    readLine off goesTo (withLatches lb m d s) = withLatches lb m d (readLine off goesTo s) := by
  rw [readLine, readThen, regRead_withLatches]
  exact finish_onState (by intros; rfl) (by intros; rfl) _

theorem writeLine_withLatches (off : Nat) (v : Word) (next : Seq) (s : State) :
    writeLine off v next (withLatches lb m d s) = withLatches lb m d (writeLine off v next s) := by
  rw [writeLine, regWrite_withLatches]
  exact finish_onState (by intros; rfl) (by intros; rfl) _

theorem emitLine_withLatches (l : TxLine) (s : State) :
    emitLine l (withLatches lb m d s) = withLatches lb m d (emitLine l s) := by
  cases l with
  | t1 =>
    rw [emitLine_t1, readThen, regRead_withLatches, emitLine_t1]
    exact finish_onState (by intros; rfl) (by intros; rfl) _
  | t2 =>
    rw [emitLine_t2, regWrite_withLatches, emitLine_t2]
    exact finish_onState (by intros; rfl) (by intros; rfl) _

end

/-! ## States that stay alike -/

/-- A step that leaves the latches and goes to a position that reads no more of them. -/
structure KeepsLatches (s s' : State) : Prop where
  lb : s'.lb = s.lb
  len : s'.len = s.len
  mreq : s'.mreq = s.mreq
  dcnt : s'.dcnt = s.dcnt
  request : requestLatched s'.seq = true → requestLatched s.seq = true
  counting : counting s'.seq = false

theorem KeepsLatches.alike {s s' t : State} (h : KeepsLatches s s') (ha : Alike s t) :
    Alike s' (withLatches t.lb t.mreq t.dcnt s') := by
  refine alike_withLatches ?_ (fun hl => ?_) fun hl => absurd hl (by simp [h.counting])
  · rw [h.lb, h.len]; exact ha.line
  · rw [h.mreq]; exact alike_request ha (h.request hl)

theorem Accessed.latches {s s' : State} {may : BusEvent → Prop} (h : Accessed s may s') :
    s'.lb = s.lb ∧ s'.len = s.len ∧ s'.mreq = s.mreq ∧ s'.dcnt = s.dcnt := by
  cases h <;> exact ⟨rfl, rfl, rfl, rfl⟩

theorem lineEnds_keeps {i : Instr} {s s' : State} {off : Nat} {may : BusEvent → Prop} {next : Seq → Prop}
    (h : LineEnds s off may next s') (hn : ∀ l, next l → Follows i s.seq l) : KeepsLatches s s' := by
  cases h with
  | goesOn l accessed hl =>
    obtain ⟨lb, len, mreq, dcnt⟩ := accessed.latches
    exact ⟨lb, len, mreq, dcnt, (hn l hl).request, (hn l hl).counting⟩
  | traps f info accessed =>
    obtain ⟨lb, len, mreq, dcnt⟩ := accessed.latches
    exact ⟨lb, len, mreq, dcnt, nofun, rfl⟩

theorem emitEnds_keeps {s s' : State} (h : EmitEnds s s') : KeepsLatches s s' := by
  cases h with
  | goesOn l accessed hl =>
    obtain ⟨lb, len, mreq, dcnt⟩ := accessed.latches
    rcases hl with rfl | ⟨l', rfl⟩ <;> exact ⟨lb, len, mreq, dcnt, nofun, rfl⟩
  | next accessed =>
    obtain ⟨lb, len, mreq, dcnt⟩ := accessed.latches
    refine ⟨lb, len, mreq, dcnt, fun h => ?_, ?_⟩
    · rw [emitNext_seq] at h; split at h <;> cases h
    · rw [emitNext_seq]; split <;> rfl

/-- The line responded is the line both buffers hold (R199). -/
theorem lineResponse_withLatches {s : State} {lb : Vector Byte 128} (m d : Word)
    (line : SameLine s.len.toNat s.lb lb) : lineResponse (withLatches lb m d s) = lineResponse s := by
  have same : lb.toList.take s.len.toNat = s.lb.toList.take s.len.toNat := by
    refine List.ext_getElem? fun k => ?_
    rw [List.getElem?_take, List.getElem?_take]
    split
    next inside => exact (line k inside).symm
    next => rfl
  show s.len.setWidth 64 :: packBytes (lb.toList.take s.len.toNat) = lineResponse s
  rw [same, lineResponse]

theorem getElem?_lineStore (lb : Vector Byte 128) (n : Nat) (b : Byte) (k : Nat) :
    (lineStore lb n b).toList[k]? = if k = n ∧ n < 128 then some b else lb.toList[k]? := by
  unfold lineStore
  split
  next inside =>
    rw [Vector.toList_set, List.getElem?_set]
    by_cases same : n = k
    · subst same; simp [inside]
    · simp [same, Ne.symm same]
  next outside => simp [outside]

/-- A byte stored at the end of the same line gives the same line (R197). -/
theorem sameLine_store {n : BitVec 8} {lb lb' : Vector Byte 128} (line : SameLine n.toNat lb lb') (b : Byte) :
    SameLine (n + 1).toNat (lineStore lb n.toNat b) (lineStore lb' n.toNat b) := by
  intro k hk
  rw [getElem?_lineStore, getElem?_lineStore]
  by_cases stored : k = n.toNat ∧ n.toNat < 128
  · rw [if_pos stored, if_pos stored]
  · rw [if_neg stored, if_neg stored]
    by_cases inside : k < n.toNat
    · exact line k inside
    · have at_end : k = n.toNat := by bv_omega
      have beyond : 128 ≤ k := by omega
      rw [List.getElem?_eq_none (by simpa using beyond), List.getElem?_eq_none (by simpa using beyond)]

theorem requestLatched_handshakesAt {i : Instr} {inside : MboxLine → Seq} {leave : Seq} (h : HandshakesAt i inside leave)
    {l : MboxLine} (hl : l ≠ .m1) : requestLatched (inside l) = true := by
  cases h with
  | mbox => exact (requestLatched_of_ne_m1 hl).1
  | init p => exact (requestLatched_of_ne_m1 hl).2

/-- The reading lines where the request is read have it latched. -/
theorem readsAt_mreq {c : Cfg} {m m' : Word} {i : Instr} {l : Seq} {off : Nat} {goesTo : Word → Seq}
    (h : ReadsAt c m i l off goesTo) (hm : requestLatched l = true → m = m') : ReadsAt c m' i l off goesTo := by
  cases h with
  | regr off => exact .regr off
  | txff h => exact .txff h
  | rxfe h => exact .rxfe h
  | data h => exact .data h
  | full h => exact .full h
  | empty h => exact .empty h
  | reply h => rw [hm (requestLatched_handshakesAt h (by simp))]; exact .reply h

theorem writesAt_mreq {c : Cfg} {m m' : Word} {i : Instr} {l : Seq} {off : Nat} {v : Word} {next : Seq}
    (h : WritesAt c m i l off v next) (hm : requestLatched l = true → m = m') : WritesAt c m' i l off v next := by
  cases h with
  | regw off v => exact .regw off v
  | send h => exact .send h
  | request h => rw [hm (requestLatched_handshakesAt h (by simp))]; exact .request h
  | init p h => exact .init p h

/-- The positions behind a delay line read `DCNT` only in the loop. -/
theorem countsAt_leave {i : Instr} {inside : DelayLine → Seq} {count : Word} {leave : Seq}
    (h : CountsAt i inside count leave) : requestLatched leave = false ∧ requestLatched (inside .l2) = false ∧
      counting leave = false ∧ counting (inside .l2) = true := by
  cases h <;> exact ⟨rfl, rfl, rfl, rfl⟩

theorem requestLatched_delay {i : Instr} {inside : DelayLine → Seq} {count : Word} {leave : Seq}
    (h : CountsAt i inside count leave) (n : Word) :
    requestLatched (if n = 0 then leave else inside .l2) = false := by
  obtain ⟨behind, loop, -⟩ := countsAt_leave h
  split
  · exact behind
  · exact loop

/-- At a position that reads neither `MREQ` nor `DCNT` only the line counts. -/
theorem alike_of_line {s : State} {lb : Vector Byte 128} {m d : Word} (line : SameLine s.len.toNat s.lb lb)
    (request : requestLatched s.seq = false) (delay : counting s.seq = false) : Alike s (withLatches lb m d s) :=
  alike_withLatches line (fun h => absurd h (by simp [request])) fun h => absurd h (by simp [delay])

theorem SameLine.mono {n n' : Nat} {lb lb' : Vector Byte 128} (h : SameLine n lb lb') (hn : n' ≤ n) :
    SameLine n' lb lb' := fun k hk => h k (Nat.lt_of_lt_of_le hk hn)

/-- An internal line does the same from both states, and the latches it writes it writes alike. -/
theorem internalAt_alike {i : Instr} {l : Seq} {s s' : State} {lb : Vector Byte 128} {m d : Word}
    (line : SameLine s.len.toNat s.lb lb) (delay : counting l = true → s.dcnt = d) (h : InternalAt s i l s') :
    ∃ t', InternalAt (withLatches lb m d s) i l t' ∧ Alike s' t' := by
  cases h with
  | resolves p => exact ⟨_, .resolves p, alike_of_line line rfl rfl⟩
  | initResolves p => exact ⟨_, .initResolves p, alike_of_line line rfl rfl⟩
  | regrResponds off v => exact ⟨_, .regrResponds off v, alike_of_line line rfl rfl⟩
  | getbResponds b => exact ⟨_, .getbResponds b, alike_of_line line rfl rfl⟩
  | getsResponds =>
    refine ⟨_, .getsResponds, ?_⟩
    rw [lineResponse_withLatches m d line]
    exact alike_of_line line rfl rfl
  | @loads i inside count leave hc =>
    exact ⟨_, .loads hc, alike_withLatches line
      (fun h => absurd h (by simpa using requestLatched_delay hc count)) fun _ => rfl⟩
  | counts hc nonzero =>
    have same : s.dcnt = d := delay (countsAt_leave hc).2.2.2
    subst same
    exact ⟨_, .counts hc nonzero, alike_withLatches line
      (fun h => absurd h (by simpa using requestLatched_delay hc (s.dcnt - 1))) fun _ => rfl⟩
  | leaves hc zero =>
    obtain ⟨no_request, -, no_delay, loop⟩ := countsAt_leave hc
    have same : s.dcnt = d := delay loop
    subst same
    exact ⟨_, .leaves hc zero, alike_of_line line no_request no_delay⟩
  | latches hm =>
    refine ⟨_, .latches hm, alike_withLatches line (fun _ => rfl) fun h => ?_⟩
    cases hm <;> cases h
  | negotiates p =>
    have next := negotiates_follows p
    exact ⟨_, .negotiates p, alike_withLatches line (fun h => absurd (next.request h) (by decide))
      fun h => absurd h (by simp [next.counting])⟩
  | becomesReady p => exact ⟨_, .becomesReady p, alike_of_line line rfl rfl⟩
  | passes hf hp =>
    have next := follows_checksEntry hf
    exact ⟨_, .passes hf hp, alike_withLatches line (fun h => absurd (next.request h) (by decide))
      fun h => absurd h (by simp [next.counting])⟩
  | unready hf unready resolved => exact ⟨_, .unready hf unready resolved, alike_of_line line rfl rfl⟩
  | clears => exact ⟨_, .clears, alike_of_line (fun k hk => absurd hk (Nat.not_lt_zero k)) rfl rfl⟩
  | discards =>
    have shorter : (if s.len = 0 then 0 else s.len - 1).toNat ≤ s.len.toNat := by split <;> bv_omega
    exact ⟨_, .discards, alike_of_line (line.mono shorter) rfl rfl⟩
  | stores b =>
    refine ⟨_, .stores b, alike_of_line (sameLine_store line b) ?_ ?_⟩ <;> rw [storeByte_seq] <;> split <;> rfl
  | panics => exact ⟨_, .panics, alike_of_line line rfl rfl⟩

/-- A line of a command does the same from two states that are alike. -/
theorem lineAt_alike {i : Instr} {s t s' : State} (ha : Alike s t) (h : LineAt s i s.seq s') :
    ∃ t', LineAt t i t.seq t' ∧ Alike s' t' := by
  have line : SameLine s.len.toNat s.lb t.lb := ha.line
  have request := alike_request ha
  have delay := alike_delay ha
  have kept : ∀ {s' : State}, KeepsLatches s s' → Alike s' (withLatches t.lb t.mreq t.dcnt s') := fun h => h.alike ha
  rw [show t = withLatches t.lb t.mreq t.dcnt s from ha.rest]
  generalize t.lb = lb, t.mreq = m, t.dcnt = d at *
  cases h with
  | reads h =>
    refine ⟨_, .reads (readsAt_mreq h request), ?_⟩
    rw [readLine_withLatches]
    exact kept (lineEnds_keeps (readLine_ends _ _ s) fun _ ⟨v, hl⟩ => hl ▸ follows_of_readsAt h v)
  | writes h =>
    refine ⟨_, .writes (writesAt_mreq h request), ?_⟩
    rw [writeLine_withLatches]
    exact kept (lineEnds_keeps (writeLine_ends _ _ _ s) fun _ hl => by rw [hl]; exact follows_of_writesAt h)
  | internal h =>
    obtain ⟨t', internal, alike⟩ := internalAt_alike line delay h
    exact ⟨t', .internal internal, alike⟩

/-! ## The outcomes of two states that are alike -/

/-- Two outcomes of one kind, with the same reason or with next states that are alike. -/
inductive OutAlike : Out → Out → Prop where
  | next {s t : State} : Alike s t → OutAlike (.next s) (.next t)
  | fault (f : Fault) : OutAlike (.fault f) (.fault f)
  | refused (r : Refusal) : OutAlike (.refused r) (.refused r)

/-- The registers two states that are alike share. -/
theorem Alike.shared {s t : State} (h : Alike s t) : t.cfg = s.cfg ∧ t.halted = s.halted ∧ t.busy = s.busy ∧
    t.seq = s.seq ∧ t.cur = s.cur ∧ t.port = s.port := by
  rw [h.rest]
  exact ⟨rfl, rfl, rfl, rfl, rfl, rfl⟩

/-- A meaning at a position without a line (R26). -/
theorem exec_stray {i : Instr} {s : State} (hh : s.halted = false) (not_idle : s.seq ≠ .idle)
    (not_complete : s.seq ≠ .complete) (no_line : commandLine i s.seq s = none) : exec i s = .fault .strayLine := by
  rw [exec_eq, runCommand, if_neg (by simp [hh])]
  split
  next idle => exact absurd idle not_idle
  next completed => exact absurd completed not_complete
  next => rw [no_line]

/-- Whether a position has a line does not depend on the state. -/
theorem commandLine_none {i : Instr} {l : Seq} {s t : State} (h : commandLine i l s = none) :
    commandLine i l t = none := by
  cases ht : commandLine i l t with
  | none => rfl
  | some t' =>
    obtain ⟨s', line⟩ := exists_lineAt_of_commandLine ht s
    rw [commandLine_of_lineAt line] at h
    cases h

/-- A running command's step from two states that are alike. -/
theorem exec_alike {i : Instr} {s t : State} (ha : Alike s t) (not_idle : s.seq ≠ .idle) :
    OutAlike (exec i s) (exec i t) := by
  obtain ⟨-, halted, -, seq, -⟩ := ha.shared
  by_cases hh : s.halted = true
  · rw [exec_eq, exec_eq, runCommand, runCommand, halted, if_pos hh, if_pos hh]
    exact .refused .halted
  · have running := Bool.not_eq_true _ ▸ hh
    by_cases completed : s.seq = .complete
    · rw [completionFreesTheBlock s i running completed,
        completionFreesTheBlock t i (halted.trans running) (seq.trans completed), ha.rest]
      exact .next (alike_of_line ha.line rfl rfl)
    · cases hl : commandLine i s.seq s with
      | some s' =>
        obtain ⟨t', line, alike⟩ := lineAt_alike ha (commandLine_iff.mp hl)
        rw [exec_line running not_idle completed hl, exec_lineAt (halted.trans running) line]
        exact .next alike
      | none =>
        have stray := exec_stray running not_idle completed hl
        have no_line : commandLine i t.seq t = none := seq.symm ▸ commandLine_none hl
        have stray' := exec_stray (halted.trans running) (by rwa [seq]) (by rwa [seq]) no_line
        rw [stray, stray']
        exact .fault .strayLine

/-- The step of an idle block from two states that are alike. -/
theorem step_accepting_alike {s t : State} (ha : Alike s t) (hs : Accepting s) : OutAlike (step s) (step t) := by
  obtain ⟨cfg, halted, busy, seq, -, port⟩ := ha.shared
  have ht : Accepting t := ⟨cfg ▸ hs.cfg, halted.trans hs.halted, busy.trans hs.busy, seq.trans hs.seq⟩
  cases hd : decode s.port with
  | incomplete =>
    rw [step_waits hs hd, step_waits ht (port ▸ hd)]
    exact .next ha
  | illegal info rest =>
    rw [step_illegal hs hd, step_illegal ht (port ▸ hd), ha.rest]
    exact .next (alike_of_line ha.line rfl rfl)
  | command i rest =>
    rw [step_accepts hs hd, step_accepts ht (port ▸ hd), ha.rest]
    refine .next (alike_of_line ha.line ?_ ?_) <;> cases i <;> rfl

/-- Every step from two states that are alike has one outcome. -/
theorem step_alike {s t : State} (ha : Alike s t) : OutAlike (step s) (step t) := by
  obtain ⟨cfg, halted, busy, seq, cur, -⟩ := ha.shared
  by_cases hh : s.halted = true
  · rw [step_halted hh, step_halted (halted.trans hh)]
    exact .refused .halted
  have running := Bool.not_eq_true _ ▸ hh
  by_cases hv : s.cfg.valid = true
  swap
  · rw [step_badConfig running hv, step_badConfig (halted.trans running) (cfg ▸ hv)]
    exact .refused .badConfig
  have hht := halted.trans running
  have hvt : t.cfg.valid = true := cfg ▸ hv
  by_cases path : onFaultPath s.seq = true
  · cases hs : s.seq with
    | emit l =>
      rw [step_emit running hv hs, step_emit hht hvt (seq.trans hs), ha.rest]
      show OutAlike _ (.next (emitLine l (withLatches t.lb t.mreq t.dcnt s)))
      rw [emitLine_withLatches]
      exact .next ((emitEnds_keeps (emitLine_ends l s)).alike ha)
    | halt =>
      rw [step_halt running hv hs, step_halt hht hvt (seq.trans hs), ha.rest]
      exact .next (alike_of_line ha.line rfl rfl)
    | _ => rw [hs] at path; cases path
  have not_fault := Bool.not_eq_true _ ▸ path
  by_cases idle : s.seq = .idle
  · by_cases hb : s.busy = true
    · have stray : ∀ u : State, u.halted = false → u.cfg.valid = true → u.seq = .idle → u.busy = true →
          step u = .fault .strayLine := fun u h1 h2 h3 h4 => by simp [step, turn, h1, h2, h3, h4]
      rw [stray s running hv idle hb, stray t hht hvt (seq.trans idle) (busy.trans hb)]
      exact .fault .strayLine
    · exact step_accepting_alike ha ⟨hv, running, Bool.not_eq_true _ ▸ hb, idle⟩
  · rw [step_cur running hv idle not_fault, step_cur hht hvt (seq ▸ idle) (seq ▸ not_fault), cur]
    cases s.cur with
    | some i => exact exec_alike ha idle
    | none => exact .fault .noCommand

/-- Settles O60: one step has one outcome from both states, and its next states are alike. -/
theorem unspecifiedLatchesAreUnobservable : Obligations.UnspecifiedLatchesAreUnobservable := by
  intro s t ha
  have outcomes := step_alike ha
  refine ⟨fun s' hs => ?_, fun f hs => ?_, fun r hs => ?_⟩ <;> rw [hs] at outcomes
  · generalize step t = o at outcomes
    cases outcomes with
    | next alike => exact ⟨_, rfl, alike⟩
  · generalize step t = o at outcomes
    cases outcomes
    rfl
  · generalize step t = o at outcomes
    cases outcomes
    rfl

end Sys2Proof.Machine
end

section
/-! SUPPORT. The frame of every step (spec/10_state.md, spec/60_exceptions.md R221 to R225): which registers a line of a
command writes, which bus access it makes, which faults it raises; what follows for every step of the block. -/

namespace Sys2Proof.Machine

open Sys2Proof.Config (Cfg BusEvent)

/-! ## What a line of a command can leave -/

/-- The four byte commands (R180). -/
def ByteCommand (i : Instr) : Prop := i.opcode = .putb ∨ i.opcode = .getb ∨ i.opcode = .puts ∨ i.opcode = .gets

/-- The commands that go through the accessor. -/
def UsesBus (i : Instr) : Prop := i.opcode ≠ .resolve ∧ i.opcode ≠ .delay ∧ i.opcode ≠ .panic

/-- The faults a line of a command can raise (R221): an address check that fails, at a register the command does not
choose or at REGR's and REGW's; a bus error; the entry check; PANIC. -/
inductive RaisesAt (s : State) (i : Instr) : FaultCode → Prop where
  | address {f : FaultCode} {info : CmdWord} (off : Nat) : UsesBus i → s.base ≠ 0 →
      addressFault off s = some (f, info) → (i.opcode = .regr ∨ i.opcode = .regw ∨ off ∈ s.cfg.off.all) → RaisesAt s i f
  | bus : UsesBus i → s.base ≠ 0 → s.cfg.busErrors = true → RaisesAt s i .busError
  | entry : ByteCommand i → s.base ≠ 0 → RaisesAt s i .byteOpBeforeInit
  | panic : i.opcode = .panic → RaisesAt s i .softwarePanic

/-- Everything a line of a command can leave, by the registers it writes. -/
inductive LineLeaves (s : State) (i : Instr) (l : Seq) : State → Prop where
  | goesOn {s' : State} (next : Seq) : Accessed s (MayAccess s i) s' → onFaultPath next = false →
      LineLeaves s i l (s'.goto next)
  | traps {s' : State} (f : FaultCode) (info : CmdWord) : Accessed s (MayAccess s i) s' → RaisesAt s i f →
      LineLeaves s i l (raise f info s')
  | locates (p : Word) (next : Seq) : (l = .resolveL1 ∧ i.opcode = .resolve ∨ l = .init .s1 ∧ i.opcode = .init) →
      onFaultPath next = false → LineLeaves s i l { s with base := lookupBase s.cfg p, seq := next }
  | becomesReady : l = .init .s12 → i.opcode = .init → LineLeaves s i l { s with drv := .ready, seq := .complete }
  | latches (next : Seq) : i.opcode = .mbox ∨ i.opcode = .init → onFaultPath next = false →
      LineLeaves s i l { s with mreq := requestWord s.cfg, seq := next }
  | counts (n : Word) (next : Seq) : i.opcode = .delay ∨ i.opcode = .init → onFaultPath next = false →
      LineLeaves s i l { s with dcnt := n, seq := next }
  | responds (ws : List CmdWord) :
      (((∃ v, l = .regrL2 v) ∧ i.opcode = .regr) ∨ ((∃ b, l = .getbQ2 b) ∧ i.opcode = .getb) ∨
        (l = .gets .g9 ∧ i.opcode = .gets)) → LineLeaves s i l ((respond ws s).goto .complete)
  | edits (n : BitVec 8) (lb : Vector Byte 128) (next : Seq) : i.opcode = .gets → onFaultPath next = false →
      LineLeaves s i l { s with len := n, lb := lb, seq := next }

theorem usesBus_of_handshakesAt {i : Instr} {inside : MboxLine → Seq} {leave : Seq} (h : HandshakesAt i inside leave) :
    UsesBus i := by
  cases h <;> simp [UsesBus, Instr.opcode]

theorem usesBus_of_sendsAt {i : Instr} {inside : TxLine → Seq} {b : Byte} {next : Seq} (h : SendsAt i inside b next) :
    UsesBus i := by
  cases h <;> simp [UsesBus, Instr.opcode]

theorem usesBus_of_receivesAt {i : Instr} {inside : RxLine → Seq} {got : Byte → Seq} (h : ReceivesAt i inside got) :
    UsesBus i := by
  cases h <;> simp [UsesBus, Instr.opcode]

theorem usesBus_of_readsAt {c : Cfg} {m : Word} {i : Instr} {l : Seq} {off : Nat} {goesTo : Word → Seq}
    (h : ReadsAt c m i l off goesTo) : UsesBus i := by
  cases h with
  | regr off => simp [UsesBus, Instr.opcode]
  | txff h => exact usesBus_of_sendsAt h
  | rxfe h | data h => exact usesBus_of_receivesAt h
  | full h | empty h | reply h => exact usesBus_of_handshakesAt h

theorem usesBus_of_writesAt {c : Cfg} {m : Word} {i : Instr} {l : Seq} {off : Nat} {v : Word} {next : Seq}
    (h : WritesAt c m i l off v next) : UsesBus i := by
  cases h with
  | regw off v => simp [UsesBus, Instr.opcode]
  | send h => exact usesBus_of_sendsAt h
  | request h => exact usesBus_of_handshakesAt h
  | init p h => simp [UsesBus, Instr.opcode]

theorem byteCommand_of_checksEntry {i : Instr} {first : Seq} (h : ChecksEntry i first) : ByteCommand i := by
  cases h <;> simp [ByteCommand, Instr.opcode]

/-- `MboxAccess` is an access of MBOX and of INIT. -/
theorem mayAccess_of_mboxAccess {s : State} {i : Instr} {inside : MboxLine → Seq} {leave : Seq}
    (h : HandshakesAt i inside leave) {e : BusEvent} (he : MboxAccess s e) : MayAccess s i e := by
  cases h with
  | mbox => exact he
  | init p => exact .inl he

theorem mayAccess_of_txAccess {s : State} {i : Instr} {inside : TxLine → Seq} {b : Byte} {next : Seq}
    (h : SendsAt i inside b next) {e : BusEvent} (he : TxAccess s b e) : MayAccess s i e := by
  cases h with
  | putb => exact he
  | puts => exact ⟨_, he⟩
  | echoMore | echoLast => exact .inr ⟨_, he⟩

theorem mayAccess_of_rxAccess {s : State} {i : Instr} {inside : RxLine → Seq} {got : Byte → Seq}
    (h : ReceivesAt i inside got) {e : BusEvent} (he : RxAccess s e) : MayAccess s i e := by
  cases h with
  | getb => exact he
  | gets => exact .inl he

/-- The access of a reading line is one of the command's own. -/
theorem mayAccess_read {s : State} {i : Instr} {l : Seq} {off : Nat} {goesTo : Word → Seq}
    (h : ReadsAt s.cfg s.mreq i l off goesTo) (v : Word) (err : Bool) : MayAccess s i (.read (s.base + off) v err) := by
  cases h with
  | regr off => exact ⟨v, err, rfl⟩
  | txff h => exact mayAccess_of_txAccess h (.inl ⟨v, err, rfl⟩)
  | rxfe h => exact mayAccess_of_rxAccess h ⟨_, v, err, .inl rfl, rfl⟩
  | data h => exact mayAccess_of_rxAccess h ⟨_, v, err, .inr rfl, rfl⟩
  | full h => exact mayAccess_of_mboxAccess h (.inl ⟨_, v, err, .inl rfl, rfl⟩)
  | empty h => exact mayAccess_of_mboxAccess h (.inl ⟨_, v, err, .inl rfl, rfl⟩)
  | reply h => exact mayAccess_of_mboxAccess h (.inl ⟨_, v, err, .inr rfl, rfl⟩)

/-- INIT's table of writes is the statement's list. -/
theorem initWrites_mem {c : Cfg} {l l' : InitLine} {off : Nat} {v : Word} (h : InitWrites c l off v l') (base : Nat) :
    .write (base + off) v false ∈ initWritesFirst c base ++ initWritesLast c base := by
  cases h <;> simp [initWritesFirst, initWritesLast, Config.ibrdVal, Config.fbrdVal]

/-- The access of a writing line is one of the command's own. -/
theorem mayAccess_write {s : State} {i : Instr} {l : Seq} {off : Nat} {v : Word} {next : Seq}
    (h : WritesAt s.cfg s.mreq i l off v next) (err : Bool) : MayAccess s i (.write (s.base + off) v err) := by
  cases h with
  | regw off v => exact ⟨err, rfl⟩
  | send h => exact mayAccess_of_txAccess h (.inr ⟨err, rfl⟩)
  | request h => exact mayAccess_of_mboxAccess h (.inr ⟨err, rfl⟩)
  | init p h => exact .inr ⟨_, _, err, rfl, initWrites_mem h s.base⟩

/-- No line of the tables leads onto the fault path by itself. -/
theorem readsAt_not_fault {c : Cfg} {m : Word} {i : Instr} {l : Seq} {off : Nat} {goesTo : Word → Seq}
    (h : ReadsAt c m i l off goesTo) (v : Word) : onFaultPath (goesTo v) = false := by
  have ite_not_fault : ∀ {p : Prop} [Decidable p] {a b : Seq}, onFaultPath a = false → onFaultPath b = false →
      onFaultPath (if p then a else b) = false := fun ha hb => by split <;> assumption
  cases h with
  | regr => rfl
  | txff h => cases h <;> exact ite_not_fault rfl rfl
  | rxfe h => cases h <;> exact ite_not_fault rfl rfl
  | data h => cases h <;> rfl
  | full h => cases h <;> exact ite_not_fault rfl rfl
  | empty h => cases h <;> exact ite_not_fault rfl rfl
  | reply h => cases h <;> exact ite_not_fault rfl rfl

theorem putsAt_not_fault (n : Offset) (k : Nat) : onFaultPath (putsAt n k) = false := by
  unfold putsAt; split <;> rfl

theorem writesAt_not_fault {c : Cfg} {m : Word} {i : Instr} {l : Seq} {off : Nat} {v : Word} {next : Seq}
    (h : WritesAt c m i l off v next) : onFaultPath next = false := by
  cases h with
  | regw => rfl
  | send h =>
    cases h with
    | puts => exact putsAt_not_fault _ _
    | _ => rfl
  | request h => cases h <;> rfl
  | init => rfl

theorem checksEntry_not_fault {i : Instr} {first : Seq} (h : ChecksEntry i first) : onFaultPath first = false := by
  cases h with
  | puts => exact putsAt_not_fault _ _
  | _ => rfl

theorem countsAt_not_fault {i : Instr} {inside : DelayLine → Seq} {count : Word} {leave : Seq}
    (h : CountsAt i inside count leave) (n : Word) :
    onFaultPath leave = false ∧ onFaultPath (if n = 0 then leave else inside .l2) = false ∧
      (i.opcode = .delay ∨ i.opcode = .init) := by
  cases h <;> exact ⟨rfl, by split <;> rfl, by simp [Instr.opcode]⟩

/-- A reading or writing line, in the terms of its command. -/
theorem lineEnds_leaves {s t : State} {i : Instr} {l : Seq} {off : Nat} {may : BusEvent → Prop} {next : Seq → Prop}
    (h : LineEnds s off may next t) (hu : UsesBus i) (hm : ∀ e, may e → MayAccess s i e)
    (hn : ∀ l', next l' → onFaultPath l' = false)
    (hoff : i.opcode = .regr ∨ i.opcode = .regw ∨ off ∈ s.cfg.off.all) : LineLeaves s i l t := by
  cases h with
  | goesOn l' accessed hl => exact .goesOn l' (accessed.mono hm) (hn l' hl)
  | traps f info accessed fault =>
    refine .traps f info (accessed.mono hm) ?_
    rcases fault.kind with ⟨-, info', hf⟩ | ⟨rfl, errors⟩
    · exact .address off hu fault.resolved hf hoff
    · exact .bus hu fault.resolved errors

theorem internalAt_leaves {s t : State} {i : Instr} {l : Seq} (h : InternalAt s i l t) : LineLeaves s i l t := by
  cases h with
  | resolves p => exact .locates p _ (.inl ⟨rfl, rfl⟩) rfl
  | initResolves p => exact .locates p _ (.inr ⟨rfl, rfl⟩) rfl
  | regrResponds off v => exact .responds _ (.inl ⟨⟨v, rfl⟩, rfl⟩)
  | getbResponds b => exact .responds _ (.inr (.inl ⟨⟨b, rfl⟩, rfl⟩))
  | getsResponds => exact .responds _ (.inr (.inr ⟨rfl, rfl⟩))
  | @loads i inside count leave h =>
    obtain ⟨-, loop, hi⟩ := countsAt_not_fault h count
    exact .counts _ _ hi loop
  | counts h =>
    obtain ⟨-, loop, hi⟩ := countsAt_not_fault h (s.dcnt - 1)
    exact .counts _ _ hi loop
  | leaves h => exact .goesOn _ .none (countsAt_not_fault h 0).1
  | latches h => cases h <;> exact .latches _ (by simp [Instr.opcode]) rfl
  | negotiates p => exact .goesOn _ .none (by split <;> rfl)
  | becomesReady p => exact .becomesReady rfl rfl
  | passes h => exact .goesOn _ .none (checksEntry_not_fault h)
  | unready h _ resolved => exact .traps _ _ .none (.entry (byteCommand_of_checksEntry h) resolved)
  | clears => exact .edits _ _ _ rfl rfl
  | discards => exact .edits _ _ _ rfl rfl
  | stores b => exact .edits _ _ _ rfl (by split <;> rfl)
  | panics => exact .traps _ _ .none (.panic rfl)

/-- Everything a line of a command leaves. -/
theorem lineAt_leaves {s t : State} {i : Instr} {l : Seq} (h : LineAt s i l t) : LineLeaves s i l t := by
  cases h with
  | reads h =>
    refine lineEnds_leaves (readLine_ends _ _ s) (usesBus_of_readsAt h)
      (fun e ⟨v, err, he⟩ => he ▸ mayAccess_read h v err) (fun _ ⟨v, hl⟩ => hl ▸ readsAt_not_fault h v) ?_
    by_cases hi : i.opcode = .regr
    · exact .inl hi
    · exact .inr (.inr (readsAt_fixed h hi))
  | writes h =>
    refine lineEnds_leaves (writeLine_ends _ _ _ s) (usesBus_of_writesAt h)
      (fun e ⟨err, he⟩ => he ▸ mayAccess_write h err) (fun _ hl => by rw [hl]; exact writesAt_not_fault h) ?_
    by_cases hi : i.opcode = .regw
    · exact .inr (.inl hi)
    · exact .inr (.inr (writesAt_fixed h hi))
  | internal h => exact internalAt_leaves h

/-! ## The bus history -/

/-- What a step adds to the bus history and takes from the device side: nothing, or one event `may` allows, at an address
at or above a resolved `BASE` that fits and is aligned. -/
def OneAccess (s : State) (may : BusEvent → Prop) (t : State) : Prop :=
  (t.trace = s.trace ∧ t.devReads = s.devReads ∧ t.devWrites = s.devWrites ∧ t.draws = s.draws) ∨
  ∃ e, may e ∧ (s.base ≠ 0 ∧ s.base ≤ e.addr ∧ e.addr % 4 = 0 ∧ e.addr < 2 ^ s.cfg.aw) ∧
    t.trace = s.trace ++ [e] ∧ t.draws = s.draws + 1

theorem Accessed.oneAccess {s s' : State} {may : BusEvent → Prop} (h : Accessed s may s') : OneAccess s may s' := by
  cases h with
  | none => exact .inl ⟨rfl, rfl, rfl, rfl⟩
  | read ea he hb hle ha hf => exact .inr ⟨_, he, ⟨hb, hle, ha, hf⟩, rfl, rfl⟩
  | write ea v he hb hle ha hf => exact .inr ⟨_, he, ⟨hb, hle, ha, hf⟩, rfl, rfl⟩

/-- Every register of R20 but `SEQ`, and the port, as they were. -/
structure SameRegisters (s t : State) : Prop where
  cfg : t.cfg = s.cfg
  base : t.base = s.base
  drv : t.drv = s.drv
  halted : t.halted = s.halted
  busy : t.busy = s.busy
  cur : t.cur = s.cur
  faultCode : t.faultCode = s.faultCode
  faultInfo : t.faultInfo = s.faultInfo
  lb : t.lb = s.lb
  len : t.len = s.len
  mreq : t.mreq = s.mreq
  dcnt : t.dcnt = s.dcnt
  pidx : t.pidx = s.pidx
  respq : t.respq = s.respq
  port : t.port = s.port

/-- An access writes no register. -/
theorem Accessed.kept {s s' : State} {may : BusEvent → Prop} (h : Accessed s may s') : SameRegisters s s' := by
  cases h <;> constructor <;> rfl

theorem LineLeaves.oneAccess {s t : State} {i : Instr} {l : Seq} (h : LineLeaves s i l t) :
    OneAccess s (MayAccess s i) t := by
  cases h with
  | goesOn next accessed => exact accessed.oneAccess
  | traps f info accessed => exact accessed.oneAccess
  | _ => exact .inl ⟨rfl, rfl, rfl, rfl⟩

/-- Settles O12: each line's updates are read off `LineLeaves`; completion writes `BUSY` and `SEQ` only. -/
theorem commandsWriteOnlyTheirState : Obligations.CommandsWriteOnlyTheirState := by
  intro s t i not_idle hexec
  rcases lineAt_of_exec not_idle hexec with ⟨completed, rfl⟩ | ⟨⟨-, not_complete, -⟩, line⟩
  · simp [completed]
  · have leaves := lineAt_leaves line
    have access : (t.trace = s.trace ∧ t.devReads = s.devReads ∧ t.devWrites = s.devWrites ∧ t.draws = s.draws) ∨
        ∃ e, MayAccess s i e ∧ t.trace = s.trace ++ [e] ∧ t.draws = s.draws + 1 :=
      leaves.oneAccess.imp_right fun ⟨e, may, _, trace, draws⟩ => ⟨e, may, trace, draws⟩
    cases leaves with
    | goesOn next accessed not_fault =>
      obtain ⟨cfg, base, drv, halted, busy, cur, code, info, lb, len, mreq, dcnt, pidx, respq, port⟩ := accessed.kept
      simp_all
    | traps f info accessed =>
      obtain ⟨cfg, base, drv, halted, busy, cur, code, info, lb, len, mreq, dcnt, pidx, respq, port⟩ := accessed.kept
      simp_all [onFaultPath]
    | locates p next at_line => rcases at_line with ⟨-, hi⟩ | ⟨-, hi⟩ <;> simp_all
    | responds ws at_line => rcases at_line with ⟨-, hi⟩ | ⟨-, hi⟩ | ⟨-, hi⟩ <;> simp_all [onFaultPath]
    | latches next hi => rcases hi with hi | hi <;> simp_all
    | counts n next hi => rcases hi with hi | hi <;> simp_all
    | becomesReady | edits => simp_all [onFaultPath]

end Sys2Proof.Machine
end

section
/-! SUPPORT. What every step keeps (spec/10_state.md R21, R22, R27, R35; spec/20_memory.md R56 to R65; spec/60_exceptions.md
R221, R224, R225): one inversion of the step by what it leaves, then one claim a register. -/

namespace Sys2Proof.Machine

open Sys2Proof.Config (Cfg BusEvent)

/-- Everything a step that answers a next state leaves. -/
inductive StepLeaves (s : State) : State → Prop where
  /-- A wait, an acceptance, a completion, Halt: no register but these five is written. -/
  | moves (q : Seq) (busy : Bool) (cur : Option Instr) (halted : Bool) (port : List CmdWord) :
      StepLeaves s { s with seq := q, busy := busy, cur := cur, halted := halted, port := port }
  | illegal (info : CmdWord) (rest : List CmdWord) : StepLeaves s (raise .illegalCommand info { s with port := rest })
  | line {t : State} (i : Instr) : LineLeaves s i s.seq t → StepLeaves s t
  | emits {t : State} : EmitEnds s t → StepLeaves s t

theorem step_leaves {s t : State} (h : step s = .next t) : s.halted = false ∧ StepLeaves s t := by
  obtain ⟨not_halted, -, kind⟩ := step_cases h
  refine ⟨not_halted, ?_⟩
  cases kind with
  | waits => exact .moves s.seq s.busy s.cur s.halted s.port
  | illegal info rest => exact .illegal info rest
  | accepts i rest => exact .moves (firstLine i) true (some i) s.halted rest
  | line i _ _ _ _ _ line => exact .line i (lineAt_leaves (commandLine_iff.mp line))
  | completes => exact .moves .idle false s.cur s.halted s.port
  | emits l => exact .emits (emitLine_ends l s)
  | halts => exact .moves .idle false s.cur true s.port

/-- What a line of the emission keeps: it writes only `PIDX` and `SEQ`. -/
structure EmitKeeps (s t : State) : Prop where
  cfg : t.cfg = s.cfg
  base : t.base = s.base
  drv : t.drv = s.drv
  faultCode : t.faultCode = s.faultCode
  faultInfo : t.faultInfo = s.faultInfo
  respq : t.respq = s.respq
  access : OneAccess s (fun _ => True) t

theorem EmitEnds.kept {s t : State} (h : EmitEnds s t) : EmitKeeps s t := by
  cases h with
  | goesOn l accessed =>
    have same := accessed.kept
    exact ⟨same.cfg, same.base, same.drv, same.faultCode, same.faultInfo, same.respq, accessed.oneAccess⟩
  | next accessed =>
    have same := accessed.kept
    exact ⟨same.cfg, same.base, same.drv, same.faultCode, same.faultInfo, same.respq, accessed.oneAccess⟩

/-! ## The driver, the Locator, the responses -/

theorem LineLeaves.drv {s t : State} {i : Instr} {l : Seq} (h : LineLeaves s i l t) :
    t.drv = s.drv ∨ (l = .init .s12 ∧ t.drv = .ready) := by
  cases h with
  | goesOn next accessed | traps f info accessed => exact .inl accessed.kept.drv
  | becomesReady hl => exact .inr ⟨hl, rfl⟩
  | _ => exact .inl rfl

/-- R22, R163: a step leaves `DRV_STATE` or is S12. -/
theorem step_drv {s t : State} (h : step s = .next t) :
    t.drv = s.drv ∨ (s.seq = .init .s12 ∧ t.drv = .ready) := by
  cases (step_leaves h).2 with
  | moves | illegal => exact .inl rfl
  | line i leaves => exact leaves.drv
  | emits ends => exact .inl ends.kept.drv

/-- Settles O28: the only line that writes `DRV_STATE` is S12, and it writes Ready. -/
theorem onlyInitMakesTheDriverReady : Obligations.OnlyInitMakesTheDriverReady := by
  intro s t h
  rcases step_drv h with same | ⟨at_s12, ready⟩
  · exact ⟨fun was => same.trans was, fun was is => by rw [same, was] at is; cases is⟩
  · exact ⟨fun _ => ready, fun _ _ => at_s12⟩

theorem LineLeaves.base {s t : State} {i : Instr} {l : Seq} (h : LineLeaves s i l t) :
    t.cfg = s.cfg ∧ (t.base = s.base ∨ ((l = .resolveL1 ∨ l = .init .s1) ∧ t.base ∈ s.cfg.bases)) := by
  cases h with
  | goesOn next accessed | traps f info accessed => exact ⟨accessed.kept.cfg, .inl accessed.kept.base⟩
  | locates p next at_line => exact ⟨rfl, .inr ⟨at_line.imp And.left And.left, lookupBase_mem s.cfg p⟩⟩
  | _ => exact ⟨rfl, .inl rfl⟩

/-- Settles O52: the only lines that write `BASE` are the Locator's, and `Lookup` answers a base of `CFG`. -/
theorem onlyTheLocatorWritesBase : Obligations.OnlyTheLocatorWritesBase := by
  intro s t h
  cases (step_leaves h).2 with
  | moves | illegal => exact ⟨rfl, .inl rfl⟩
  | line i leaves => exact leaves.base
  | emits ends => exact ⟨ends.kept.cfg, .inl ends.kept.base⟩

/-- A step that leaves `RESPQ` appends nothing to it. -/
theorem appends_nothing {s t : State} (same : t.respq = s.respq) (p : Prop) :
    ∃ ws, t.respq = s.respq ++ ws ∧ (ws ≠ [] → p) :=
  ⟨[], same.trans (List.append_nil _).symm, fun some => absurd rfl some⟩

theorem LineLeaves.respq {s t : State} {i : Instr} {l : Seq} (h : LineLeaves s i l t) :
    ∃ ws, t.respq = s.respq ++ ws ∧ (ws ≠ [] → (∃ v, l = .regrL2 v) ∨ (∃ b, l = .getbQ2 b) ∨ l = .gets .g9) := by
  cases h with
  | goesOn next accessed | traps f info accessed => exact appends_nothing accessed.kept.respq _
  | responds ws at_line => exact ⟨ws, rfl, fun _ => at_line.imp And.left (Or.imp And.left And.left)⟩
  | _ => exact appends_nothing rfl _

/-- Settles O53: the lines that write `RESPQ` append to it. -/
theorem onlyThreeLinesRespond : Obligations.OnlyThreeLinesRespond := by
  intro s t h
  cases (step_leaves h).2 with
  | moves | illegal => exact appends_nothing rfl _
  | line i leaves => exact leaves.respq
  | emits ends => exact appends_nothing ends.kept.respq _

/-! ## The bus -/

/-- R7, R56: every step makes at most one bus access. -/
theorem step_oneAccess {s t : State} (h : step s = .next t) : OneAccess s (fun _ => True) t := by
  cases (step_leaves h).2 with
  | moves | illegal => exact .inl ⟨rfl, rfl, rfl, rfl⟩
  | line i leaves => exact leaves.oneAccess.imp_right fun ⟨e, _, rest⟩ => ⟨e, trivial, rest⟩
  | emits ends => exact ends.kept.access

/-- Settles O50: an access needs a resolved `BASE`. -/
theorem noBusEventWithoutBase : Obligations.NoBusEventWithoutBase := by
  intro s t unresolved h
  rcases step_oneAccess h with ⟨trace, reads, writes, -⟩ | ⟨e, -, ⟨resolved, -⟩, -⟩
  · exact ⟨trace, reads, writes⟩
  · exact absurd unresolved resolved

/-- Settles O51: the one access passed the address checks. -/
theorem oneAlignedBusEventPerStep : Obligations.OneAlignedBusEventPerStep := by
  intro s t h
  rcases step_oneAccess h with ⟨trace, -⟩ | ⟨e, -, ⟨-, above, aligned, fits⟩, trace, -⟩
  · exact .inl trace
  · exact .inr ⟨e, trace, above, aligned, fits⟩

/-! ## Faults -/

/-- A line of a command leaves the fault registers or takes the fault entry (R224). -/
theorem LineLeaves.fault {s t : State} {i : Instr} {l : Seq} (h : LineLeaves s i l t) :
    t.faultCode = s.faultCode ∨
      ∃ f info s', t = raise f info s' ∧ Accessed s (MayAccess s i) s' ∧ RaisesAt s i f := by
  cases h with
  | goesOn next accessed => exact .inl accessed.kept.faultCode
  | traps f info accessed raises => exact .inr ⟨f, info, _, rfl, accessed, raises⟩
  | _ => exact .inl rfl

/-- Settles O49: a step that records a fault is a fault entry, which writes the fault registers, `BUSY`, `PIDX` and
`SEQ`. -/
theorem faultEntryKeepsTheState : Obligations.FaultEntryKeepsTheState := by
  intro s t h none_before recorded
  obtain ⟨not_halted, leaves⟩ := step_leaves h
  have changed : t.faultCode ≠ s.faultCode := none_before ▸ recorded
  cases leaves with
  | moves => exact absurd rfl changed
  | illegal info rest => exact ⟨rfl, rfl, rfl, rfl, rfl, not_halted, rfl, rfl, rfl⟩
  | line i leaves =>
    rcases leaves.fault with same | ⟨f, info, s', rfl, accessed, -⟩
    · exact absurd same changed
    · have same := accessed.kept
      exact ⟨same.base, same.drv, same.lb, same.len, same.respq, same.halted.trans not_halted, rfl, rfl, rfl⟩
  | emits ends => exact absurd ends.kept.faultCode changed

/-- Settles O48: with a fault recorded a block that is not halted is on the fault path, which writes neither register. -/
theorem firstFaultIsKept : Obligations.FirstFaultIsKept := by
  intro s t inv h recorded
  obtain ⟨not_halted, -, kind⟩ := step_cases h
  have path : onFaultPath s.seq = true := (inv.fault.mp recorded).resolve_left (by simp [not_halted])
  have off_path : ∀ {l : Seq}, s.seq = l → onFaultPath l = false → False := fun hs hl => by
    rw [hs, hl] at path; cases path
  cases kind with
  | waits idle | illegal _ _ idle | accepts _ _ idle => exact (off_path idle rfl).elim
  | line _ _ _ _ _ not_fault => exact (off_path rfl not_fault).elim
  | completes _ _ completed => exact (off_path completed rfl).elim
  | emits l => exact ⟨(emitLine_ends l s).kept.faultCode, (emitLine_ends l s).kept.faultInfo⟩
  | halts => exact ⟨rfl, rfl⟩

/-- Under the invariant the address checks fail only at the offsets the host chooses (R53, R58). -/
theorem not_addressFault_fixed {s : State} {off : Nat} {f : FaultCode} {info : CmdWord} (hr : Registers s)
    (resolved : s.base ≠ 0) (ho : off ∈ s.cfg.off.all) : addressFault off s ≠ some (f, info) := by
  rw [addressFault_fixed rfl hr.cfg (hr.base.resolve_left resolved) ho]
  nofun

/-- R221: which command raises which code, for one fault of a line. -/
theorem raisesAt_code {s : State} {i : Instr} {f : FaultCode} (hr : Registers s) (h : RaisesAt s i f) :
    (f.code = 2 ∨ f.code = 3 → i.opcode = .regr ∨ i.opcode = .regw) ∧
    (f.code = 4 → s.cfg.busErrors = true ∧ i.opcode ≠ .resolve ∧ i.opcode ≠ .delay ∧ i.opcode ≠ .panic) ∧
    (f.code = 5 → i.opcode = .putb ∨ i.opcode = .getb ∨ i.opcode = .puts ∨ i.opcode = .gets) ∧
    (f.code = 6 ↔ i.opcode = .panic) ∧ f.code ≠ 1 ∧ (s.base = 0 → f.code = 6) := by
  cases h with
  | address off uses resolved fault where_from =>
    have chosen : i.opcode = .regr ∨ i.opcode = .regw := by
      rcases where_from with regr | regw | fixed
      · exact .inl regr
      · exact .inr regw
      · exact absurd fault (not_addressFault_fixed hr resolved fixed)
    obtain ⟨-, -, not_panic⟩ := uses
    rcases addressFault_code fault with rfl | rfl <;> simp [FaultCode.code, chosen, not_panic, resolved]
  | bus uses resolved errors =>
    obtain ⟨not_resolve, not_delay, not_panic⟩ := uses
    simp [FaultCode.code, errors, not_resolve, not_delay, not_panic, resolved]
  | entry byte resolved =>
    have not_panic : i.opcode ≠ .panic := by rintro hi; simp [ByteCommand, hi] at byte
    unfold ByteCommand at byte
    simp [FaultCode.code, byte, not_panic, resolved]
  | panic hi => simp [FaultCode.code, hi]

/-- Settles O47: a running command has no fault recorded, so a step that records one raised it, and `RaisesAt` says from
what. -/
theorem commandsRaiseOnlyTheirFaults : Obligations.CommandsRaiseOnlyTheirFaults := by
  intro s t i inv cur line h recorded
  have running := inv_running_cur inv cur line
  have changed : t.faultCode ≠ s.faultCode := running.code ▸ recorded
  obtain ⟨not_idle, not_fault⟩ := lineOf_inside line
  obtain ⟨-, -, kind⟩ := step_cases h
  cases kind with
  | waits idle | illegal _ _ idle | accepts _ _ idle => exact absurd idle not_idle
  | completes => exact absurd rfl changed
  | emits l hs | halts hs => rw [hs] at not_fault; cases not_fault
  | line j _ cur' _ _ _ hl =>
    have same : j = i := Option.some_injective _ (cur'.symm.trans cur)
    subst same
    rcases (lineAt_leaves (commandLine_iff.mp hl)).fault with same | ⟨f, info, s', rfl, -, raises⟩
    · exact absurd same changed
    · exact raisesAt_code running.registers raises

end Sys2Proof.Machine
end

section
/-! SUPPORT. Whole runs, piece by piece: one accepted command, one step of a running command with its bus event, one wait.
`busRun` is the effect on the state that all of them share. -/

namespace Sys2Proof.Machine

open Sys2Proof.Config (Cfg BusEvent)

/-! ## The effect of a run on the bus -/

/-- A run's effect but for what its command writes: its events behind the earlier ones, the answers left over, and the
position reached. -/
def busRun (events : List BusEvent) (reads : List Config.ReadAnswer) (writes : Nat) (l : Seq) (s : State) : State :=
  { s with
    seq := l
    trace := s.trace ++ events
    devReads := reads
    devWrites := s.devWrites.drop writes
    draws := s.draws + events.length }

theorem busRun_nil (s : State) : busRun [] s.devReads 0 s.seq s = s := by simp [busRun]

/-- One run's effect after another's. -/
theorem busRun_busRun (es es' : List BusEvent) (rs rs' : List Config.ReadAnswer) (w w' : Nat) (l l' : Seq) (s : State) :
    busRun es' rs' w' l' (busRun es rs w l s) = busRun (es ++ es') rs' (w + w') l' s := by
  simp [busRun, Nat.add_assoc]

/-- After `k` of the writes that the device performs it performs the rest. -/
theorem writesSucceed_drop {k n : Nat} {s t : State} (h : WritesSucceed (k + n) s) (cfg : t.cfg = s.cfg)
    (rest : t.devWrites = s.devWrites.drop k) : WritesSucceed n t := by
  rcases h with no_errors | ⟨enough, good⟩
  · exact .inl (by rw [cfg, no_errors])
  · have window : t.devWrites.take n = (s.devWrites.take (k + n)).drop k := by
      rw [rest, List.drop_take, Nat.add_sub_cancel_left]
    refine .inr ⟨by rw [rest, List.length_drop]; omega, fun e he => good e ?_⟩
    exact List.mem_of_mem_drop (window ▸ he)

theorem writesSucceed_busRun {k n : Nat} {s : State} (h : WritesSucceed (k + n) s) (es : List BusEvent)
    (rs : List Config.ReadAnswer) (l : Seq) : WritesSucceed n (busRun es rs k l s) :=
  writesSucceed_drop h rfl rfl

theorem writesSucceed_mono {n m : Nat} {s : State} (h : WritesSucceed n s) (hm : m ≤ n) : WritesSucceed m s := by
  rcases h with no_errors | ⟨enough, good⟩
  · exact .inl no_errors
  · exact .inr ⟨by omega, fun e he => good e (List.take_subset_take_left _ hm he)⟩

/-! ## Composing runs -/

theorem runSteps_trans {m n : Nat} {s s' : State} {o : Out} (first : runSteps m s = .next s')
    (rest : runSteps n s' = o) : runSteps (m + n) s = o := by
  rw [runSteps_add n first, rest]

theorem runSteps_one {s t : State} (h : step s = .next t) : runSteps 1 s = .next t := by
  rw [runSteps_step 0 h, runSteps_zero]

/-- A block in the middle of a command, at a line of it. -/
structure InFlight (i : Instr) (l : Seq) (s : State) : Prop where
  running : RunningAt s l
  cur : s.cur = some i

/-- What a step of a running command leaves unchanged keeps the command in flight. -/
theorem InFlight.move {i : Instr} {l l' : Seq} {s t : State} (h : InFlight i l s) (cfg : t.cfg = s.cfg)
    (halted : t.halted = s.halted) (busy : t.busy = s.busy) (cur : t.cur = s.cur) (seq : t.seq = l') :
    InFlight i l' t :=
  ⟨⟨cfg ▸ h.running.cfg, halted.trans h.running.halted, busy.trans h.running.busy, seq⟩, cur.trans h.cur⟩

theorem InFlight.busRun {i : Instr} {l : Seq} {s : State} (h : InFlight i l s) (es : List BusEvent)
    (rs : List Config.ReadAnswer) (w : Nat) (l' : Seq) : InFlight i l' (busRun es rs w l' s) :=
  h.move rfl rfl rfl rfl rfl

/-- The words of a command at the head of the port decode to it. -/
theorem decode_port {s : State} {i : Instr} {rest : List CmdWord} (hi : i.wellFormed = true)
    (hp : s.port = encode i ++ rest) : decode s.port = .command i rest := by
  rw [hp]; exact decodeOfEncodeIsTheCommand i rest hi

/-- The block right after acceptance (R80). -/
def accepted (i : Instr) (rest : List CmdWord) (s : State) : State := accept i (firstLine i) { s with port := rest }

theorem inFlight_accepted {s : State} (ha : Accepting s) (i : Instr) (rest : List CmdWord) :
    InFlight i (firstLine i) (accepted i rest s) :=
  ⟨⟨ha.cfg, ha.halted, rfl, rfl⟩, rfl⟩

theorem step_complete {i : Instr} {s : State} (h : InFlight i .complete s) : step s = .next (complete s) := by
  rw [step_runs h.running h.cur (by simp) rfl]
  exact completionFreesTheBlock s i h.running.halted h.running.seq

/-- A whole command: its acceptance, its lines, its completion (R80, R81). -/
theorem runSteps_command {s t : State} {i : Instr} {rest : List CmdWord} {n : Nat} (ha : Accepting s)
    (hi : i.wellFormed = true) (hp : s.port = encode i ++ rest) (lines : runSteps n (accepted i rest s) = .next t)
    (done : InFlight i .complete t) : runSteps (n + 2) s = .next (complete t) := by
  rw [runSteps_step (n + 1) (step_accepts ha (decode_port hi hp))]
  exact runSteps_trans lines (runSteps_one (step_complete done))

/-! ## One step of a running command -/

theorem step_lineAt {i : Instr} {l : Seq} {s t : State} (h : InFlight i l s) (line : LineAt s i l t) :
    step s = .next t := by
  have is_line := commandLine_iff.mpr line
  obtain ⟨not_idle, not_complete, not_fault⟩ := insideCommand_of_commandLine is_line
  exact step_line h.running h.cur not_idle not_fault not_complete is_line

theorem step_internalAt {i : Instr} {l : Seq} {s t : State} (h : InFlight i l s) (line : InternalAt s i l t) :
    step s = .next t := step_lineAt h (.internal line)

/-- A read that the device answers from the script (R102, R236). -/
theorem readThen_answers {s : State} {off : Nat} {v : Word} {vs : List Word} {more : List Config.ReadAnswer}
    (onTrap : FaultCode → CmdWord → State → State) (goesTo : Word → Seq) (h : Reaches off s)
    (hd : s.devReads = answers (v :: vs) ++ more) : readThen onTrap off goesTo s =
      busRun [.read (s.base + off) v false] (answers vs ++ more) 0 (goesTo v) s := by
  rw [readThen, regRead_reaches h (readErr_answers hd), readAnswer_answers hd]
  simp [Access.finish, afterRead, State.goto, busRun, devReads_tail hd]

/-- A write that the device performs (R103, R236). -/
theorem regWrite_performed {s : State} {off : Nat} {n : Nat} (v : Word) (h : Reaches off s)
    (hw : WritesSucceed (n + 1) s) :
    regWrite off v s = .done () (busRun [.write (s.base + off) v false] s.devReads 1 s.seq s) := by
  rw [regWrite_reaches v h (writeErr_writesSucceed hw)]
  simp [afterWrite, busRun]

/-- A reading line at a reachable register. -/
theorem step_reads {i : Instr} {l : Seq} {s : State} {off : Nat} {goesTo : Word → Seq} {v : Word} {vs : List Word}
    {more : List Config.ReadAnswer} (h : InFlight i l s) (line : ReadsAt s.cfg s.mreq i l off goesTo)
    (hr : Reaches off s) (hd : s.devReads = answers (v :: vs) ++ more) :
    step s = .next (busRun [.read (s.base + off) v false] (answers vs ++ more) 0 (goesTo v) s) := by
  rw [step_lineAt h (.reads line), readLine, readThen_answers raise goesTo hr hd]

/-- A writing line at a reachable register. -/
theorem step_writes {i : Instr} {l : Seq} {s : State} {off : Nat} {v : Word} {next : Seq} {n : Nat}
    (h : InFlight i l s) (line : WritesAt s.cfg s.mreq i l off v next) (hr : Reaches off s)
    (hw : WritesSucceed (n + 1) s) :
    step s = .next (busRun [.write (s.base + off) v false] s.devReads 1 next s) := by
  rw [step_lineAt h (.writes line), writeLine, regWrite_performed v hr hw]
  rfl

/-- A reading line while `BASE` is 0 (R104). -/
theorem step_reads_unresolved {i : Instr} {l : Seq} {s : State} {off : Nat} {goesTo : Word → Seq} (h : InFlight i l s)
    (line : ReadsAt s.cfg s.mreq i l off goesTo) (hb : s.base = 0) : step s = .next (s.goto (goesTo 0)) := by
  rw [step_lineAt h (.reads line), readLine, readThen, regRead_unresolved off hb]
  rfl

/-- A writing line while `BASE` is 0 (R109). -/
theorem step_writes_unresolved {i : Instr} {l : Seq} {s : State} {off : Nat} {v : Word} {next : Seq}
    (h : InFlight i l s) (line : WritesAt s.cfg s.mreq i l off v next) (hb : s.base = 0) :
    step s = .next (s.goto next) := by
  rw [step_lineAt h (.writes line), writeLine_unresolved off v next hb]

/-- The entry check of a block that is Ready, or whose `BASE` is 0 (R180). -/
theorem step_entry {i : Instr} {first : Seq} {s : State} (h : InFlight i .e0 s) (hc : ChecksEntry i first)
    (hp : s.drv = .ready ∨ s.base = 0) : step s = .next (s.goto first) := step_internalAt h (.passes hc hp)

theorem InFlight.goto {i : Instr} {l : Seq} {s : State} (h : InFlight i l s) (l' : Seq) : InFlight i l' (s.goto l') :=
  h.move rfl rfl rfl rfl rfl

/-! ## Waits -/

/-- Where a wait goes when its flag is clear. -/
def afterWait : Seq → Seq
  | .putb .t1 => .putb .t2
  | .puts k .t1 => .puts k .t2
  | .gets (.echo b more .t1 k) => .gets (.echo b more .t2 k)
  | .emit .t1 => .emit .t2
  | .getbQ1 .x1 => .getbQ1 .x2
  | .gets (.g2 .x1) => .gets (.g2 .x2)
  | .mbox .m2 => .mbox .m3
  | .init (.s7m .m2) => .init (.s7m .m3)
  | .mbox .m4Status => .mbox .m4Read
  | .init (.s7m .m4Status) => .init (.s7m .m4Read)
  | l => l

/-- A waiting line of a command is a poll in the table. -/
theorem readsAt_of_waitOf {c : Cfg} {m : Word} {i : Instr} {l : Seq} {off : Nat} {mask : Word}
    (hw : waitOf c l = some (off, mask)) (hl : lineOf i l = true) :
    ReadsAt c m i l off fun v => if flagSet v mask then l else afterWait l := by
  cases l with
  | putb l =>
    cases l with
    | t1 => cases hw; cases i with | putb b => exact .txff (.putb b) | _ => cases hl
    | t2 => cases hw
  | puts k l =>
    cases l with
    | t1 => cases hw; cases i with | puts n text => exact .txff (.puts n text k) | _ => cases hl
    | t2 => cases hw
  | getbQ1 l =>
    cases l with
    | x1 => cases hw; cases i with | getb => exact .rxfe .getb | _ => cases hl
    | x2 => cases hw
  | gets l =>
    cases l with
    | g2 l =>
      cases l with
      | x1 => cases hw; cases i with | gets => exact .rxfe .gets | _ => cases hl
      | x2 => cases hw
    | echo b more l k =>
      cases l with
      | t1 => cases hw; cases i with | gets => exact .txff (sendsAt_echo b more k) | _ => cases hl
      | t2 => cases hw
    | _ => cases hw
  | mbox l =>
    cases l with
    | m2 => cases hw; cases i with | mbox => exact .full .mbox | _ => cases hl
    | m4Status => cases hw; cases i with | mbox => exact .empty .mbox | _ => cases hl
    | _ => cases hw
  | init l =>
    cases l with
    | s7m l =>
      cases l with
      | m2 => cases hw; cases i with | init p => exact .full (.init p) | _ => cases hl
      | m4Status => cases hw; cases i with | init p => exact .empty (.init p) | _ => cases hl
      | _ => cases hw
    | _ => cases hw
  | emit => cases hl
  | _ => cases hw

/-- The flag register of a wait is a fixed one. -/
theorem waitOf_fixed {c : Cfg} {l : Seq} {off : Nat} {mask : Word} (hw : waitOf c l = some (off, mask)) :
    off ∈ c.off.all := by
  obtain ⟨-, -, -, fr, -, -, -, -, -, -, -, status, -⟩ := fixed_offsets c
  unfold waitOf at hw
  split at hw <;> cases hw <;> assumption

/-- A block at a waiting line, in a command or in the emission, of a resolved block. -/
structure WaitsAt (s : State) (l : Seq) (off : Nat) (mask : Word) : Prop where
  running : RunningAt s l
  place : onFaultPath l = true ∨ ∃ i, s.cur = some i ∧ lineOf i l = true
  wait : waitOf s.cfg l = some (off, mask)
  resolved : Resolved s

theorem WaitsAt.reaches {s : State} {l : Seq} {off : Nat} {mask : Word} (h : WaitsAt s l off mask) : Reaches off s :=
  reaches_fixed h.running.cfg h.resolved (waitOf_fixed h.wait)

/-- One evaluation of a wait is one read (R12). -/
theorem WaitsAt.step {s : State} {l : Seq} {off : Nat} {mask : Word} (h : WaitsAt s l off mask) : ∃ onTrap,
    step s = .next (readThen onTrap off (fun v => if flagSet v mask then l else afterWait l) s) := by
  have wait := h.wait
  rcases h.place with path | ⟨i, cur, line⟩
  · cases l with
    | emit l =>
      cases l with
      | t1 =>
        cases wait
        exact ⟨_, by rw [step_emit h.running.halted h.running.cfg h.running.seq, emitLine_t1]; rfl⟩
      | t2 => cases wait
    | halt => cases wait
    | _ => cases path
  · exact ⟨raise, step_lineAt ⟨h.running, cur⟩ (.reads (readsAt_of_waitOf wait line))⟩

theorem WaitsAt.step_answers {s : State} {l : Seq} {off : Nat} {mask v : Word} {vs : List Word}
    {more : List Config.ReadAnswer} (h : WaitsAt s l off mask) (hd : s.devReads = answers (v :: vs) ++ more) :
    Machine.step s = .next (busRun [.read (s.base + off) v false] (answers vs ++ more) 0
      (if flagSet v mask then l else afterWait l) s) := by
  obtain ⟨onTrap, polls⟩ := h.step
  rw [polls, readThen_answers onTrap _ h.reaches hd]

theorem WaitsAt.busRun {s : State} {l : Seq} {off : Nat} {mask : Word} (h : WaitsAt s l off mask)
    (es : List BusEvent) (rs : List Config.ReadAnswer) (w : Nat) : WaitsAt (busRun es rs w l s) l off mask :=
  ⟨⟨h.running.cfg, h.running.halted, h.running.busy, rfl⟩, h.place, h.wait, h.resolved⟩

/-- However many reads show the flag set, the block stays at the wait (R232). -/
theorem runSteps_busy {s : State} {l : Seq} {off : Nat} {mask : Word} {busy : List Word}
    {more : List Config.ReadAnswer} (h : WaitsAt s l off mask) (hset : ∀ v ∈ busy, flagSet v mask = true)
    (hd : s.devReads = answers busy ++ more) :
    runSteps busy.length s = .next (busRun (readsOf (s.base + off) busy) more 0 l s) := by
  induction busy generalizing s with
  | nil =>
    have left : s.devReads = more := by simpa [answers] using hd
    rw [← left, ← h.running.seq]
    exact congrArg _ (busRun_nil s).symm
  | cons v vs ih =>
    have first := h.step_answers hd
    rw [if_pos (hset v List.mem_cons_self)] at first
    rw [List.length_cons, runSteps_step _ first,
      ih (h.busRun _ _ _) (fun v hv => hset v (List.mem_cons_of_mem _ hv)) rfl, busRun_busRun]
    rfl

theorem answers_append (vs ws : List Word) : answers (vs ++ ws) = answers vs ++ answers ws := List.map_append

theorem readsOf_append (a : Nat) (vs ws : List Word) : readsOf a (vs ++ ws) = readsOf a vs ++ readsOf a ws :=
  List.map_append

/-- A wait that ends: as many reads as it has values, then the line behind it. -/
theorem runSteps_wait {s : State} {l : Seq} {off : Nat} {mask : Word} {w : Wait} {more : List Config.ReadAnswer}
    (h : WaitsAt s l off mask) (hw : w.ends mask = true) (hd : s.devReads = answers w.reads ++ more) :
    runSteps w.reads.length s = .next (busRun (readsOf (s.base + off) w.reads) more 0 (afterWait l) s) := by
  simp only [Wait.ends, Bool.and_eq_true, List.all_eq_true, Bool.not_eq_true'] at hw
  obtain ⟨busy, clear⟩ := hw
  rw [Wait.reads, answers_append, List.append_assoc] at hd
  have polls := runSteps_busy h busy hd
  have last := (h.busRun (readsOf (s.base + off) w.busy) (answers [w.clear] ++ more) 0).step_answers rfl
  rw [clear, busRun_busRun] at last
  rw [Wait.reads, List.length_append, readsOf_append]
  exact runSteps_trans polls (runSteps_one last)

/-! ## The rounds of M4 -/

/-- The handshake's lines stand where the waits of the statements are. -/
theorem waitOf_handshakesAt {i : Instr} {inside : MboxLine → Seq} {leave : Seq} (h : HandshakesAt i inside leave)
    (c : Cfg) : waitOf c (inside .m2) = some (c.off.mboxStatus, c.mask.full) ∧ afterWait (inside .m2) = inside .m3 ∧
      waitOf c (inside .m4Status) = some (c.off.mboxStatus, c.mask.empty) ∧
      afterWait (inside .m4Status) = inside .m4Read ∧ ∀ l, lineOf i (inside l) = true := by
  cases h <;> exact ⟨rfl, rfl, rfl, rfl, fun _ => rfl⟩

section

variable {s : State} {i : Instr} {inside : MboxLine → Seq} {leave : Seq} {vs : List Word}
  {more : List Config.ReadAnswer}

theorem waitsAt_m2 (h : InFlight i (inside .m2) s) (hm : HandshakesAt i inside leave) (hr : Resolved s) :
    WaitsAt s (inside .m2) s.cfg.off.mboxStatus s.cfg.mask.full := by
  obtain ⟨full, -, -, -, line⟩ := waitOf_handshakesAt hm s.cfg
  exact ⟨h.running, .inr ⟨i, h.cur, line _⟩, full, hr⟩

theorem waitsAt_m4 (h : InFlight i (inside .m4Status) s) (hm : HandshakesAt i inside leave) (hr : Resolved s) :
    WaitsAt s (inside .m4Status) s.cfg.off.mboxStatus s.cfg.mask.empty := by
  obtain ⟨-, -, empty, -, line⟩ := waitOf_handshakesAt hm s.cfg
  exact ⟨h.running, .inr ⟨i, h.cur, line _⟩, empty, hr⟩

/-- M4's two reads of a reply: EMPTY clear, then MBOX_READ (R134, R135). -/
theorem runSteps_reply (h : InFlight i (inside .m4Status) s) (hm : HandshakesAt i inside leave) (hr : Resolved s)
    {st reply : Word} (clear : flagSet st s.cfg.mask.empty = false)
    (hd : s.devReads = answers (st :: reply :: vs) ++ more) :
    runSteps 2 s = .next (busRun [.read (s.base + s.cfg.off.mboxStatus) st false,
      .read (s.base + s.cfg.off.mboxRead) reply false] (answers vs ++ more) 0
      (if reply ≠ s.mreq then inside .m4Status else leave) s) := by
  have status := (waitsAt_m4 h hm hr).step_answers hd
  rw [clear, if_neg Bool.false_ne_true, (waitOf_handshakesAt hm s.cfg).2.2.2.1] at status
  have at_read := h.busRun [.read (s.base + s.cfg.off.mboxStatus) st false] (answers (reply :: vs) ++ more) 0
    (inside .m4Read)
  have read := step_reads at_read (.reply hm) (reaches_fixed at_read.running.cfg hr (readsAt_fixed
    (ReadsAt.reply (c := s.cfg) (mreq := s.mreq) hm) (opcode_of_handshakesAt hm).1)) rfl
  rw [runSteps_step 1 status, runSteps_one read, busRun_busRun]
  rfl

/-- Any sequence of EMPTY polls and mismatched replies leaves the handshake at M4 (R134 to R137). -/
theorem runSteps_rounds {rounds : List ReplyRound} (h : InFlight i (inside .m4Status) s) (hm : HandshakesAt i inside leave)
    (hr : Resolved s) (latched : s.mreq = requestWord s.cfg) (hrounds : ∀ r ∈ rounds, r.goesOn s.cfg = true)
    (hd : s.devReads = answers (rounds.flatMap ReplyRound.values) ++ more) :
    runSteps (rounds.flatMap ReplyRound.values).length s =
      .next (busRun (rounds.flatMap (ReplyRound.events s)) more 0 (inside .m4Status) s) := by
  induction rounds generalizing s with
  | nil =>
    have left : s.devReads = more := by simpa [answers] using hd
    rw [← left, ← h.running.seq]
    exact congrArg _ (busRun_nil s).symm
  | cons r rounds ih =>
    have rest_go := fun r hr => hrounds r (List.mem_cons_of_mem _ hr)
    have goes := hrounds r List.mem_cons_self
    cases r with
    | empty st =>
      have script : s.devReads = answers (st :: rounds.flatMap ReplyRound.values) ++ more := hd
      have first := (waitsAt_m4 h hm hr).step_answers script
      have set : flagSet st s.cfg.mask.empty = true := goes
      rw [set, if_pos rfl] at first
      have later := ih (h.busRun [.read (s.base + s.cfg.off.mboxStatus) st false] _ 0 _) hr latched rest_go rfl
      rw [busRun_busRun] at later
      exact (runSteps_step _ first).trans later
    | mismatch st reply =>
      have script : s.devReads = answers (st :: reply :: rounds.flatMap ReplyRound.values) ++ more := hd
      simp only [ReplyRound.goesOn, Bool.and_eq_true, Bool.not_eq_true', bne_iff_ne] at goes
      obtain ⟨clear, other⟩ := goes
      have first := runSteps_reply h hm hr clear script
      rw [if_pos (latched ▸ other)] at first
      have later := ih (h.busRun [.read (s.base + s.cfg.off.mboxStatus) st false,
        .read (s.base + s.cfg.off.mboxRead) reply false] _ 0 _) hr latched rest_go rfl
      rw [busRun_busRun] at later
      have count : ((ReplyRound.mismatch st reply :: rounds).flatMap ReplyRound.values).length =
          2 + (rounds.flatMap ReplyRound.values).length := by simp [ReplyRound.values]; omega
      rw [count]
      exact runSteps_trans first later

end

/-- As many events as values read. -/
theorem length_events (s : State) (rounds : List ReplyRound) :
    (rounds.flatMap (ReplyRound.events s)).length = (rounds.flatMap ReplyRound.values).length := by
  induction rounds with
  | nil => rfl
  | cons r rounds ih =>
    rw [List.flatMap_cons, List.flatMap_cons, List.length_append, List.length_append, ih]
    cases r <;> rfl

/-- Settles O32: a wait stays where it is, and M4 stays through rounds that go on. -/
theorem waitsHaveNoTimeout : Obligations.WaitsHaveNoTimeout := by
  refine ⟨fun s l off mask busy more running place wait resolved set script => ?_,
    fun s rounds more place resolved latched go script => ?_⟩
  · rw [runSteps_busy ⟨running, place, wait, resolved⟩ set script, ← running.seq]
    simp [busRun, readsOf]
  · have stays : runSteps (rounds.flatMap ReplyRound.values).length s =
        .next (busRun (rounds.flatMap (ReplyRound.events s)) more 0 s.seq s) := by
      rcases place with ⟨running, cur⟩ | ⟨p, running, cur⟩ <;> rw [running.seq]
      · exact runSteps_rounds ⟨running, cur⟩ .mbox resolved latched go script
      · exact runSteps_rounds ⟨running, cur⟩ (.init p) resolved latched go script
    rw [stays, busRun, length_events, List.drop_zero]

end Sys2Proof.Machine
end

section
/-! SUPPORT. REGR, REGW, DELAY, MBOX and INIT as whole runs (spec/40_mmio_accessor.md, spec/41_delay.md,
spec/42_mailbox.md, spec/43_uart_init.md). -/

namespace Sys2Proof.Machine

open Sys2Proof.Config (Cfg BusEvent)

/-! ## REGR and REGW while `BASE` is 0 (R106, R109) -/

/-- The two lines of REGR, with no bus event. -/
theorem runSteps_regr_unresolved {off : Offset} {s : State} (h : InFlight (.regr off) .regrL1 s) (hb : s.base = 0) :
    runSteps 2 s = .next ((respond [0] s).goto .complete) := by
  rw [runSteps_step 1 (step_reads_unresolved h (.regr off) hb)]
  exact runSteps_one (step_internalAt (h.goto (.regrL2 0)) (.regrResponds off 0))

/-- Settles O17: the guard answers 0 to REGR's read and drops REGW's write. -/
theorem registerCommandsWithoutBaseAreAbsorbed : Obligations.RegisterCommandsWithoutBaseAreAbsorbed := by
  refine fun s off v rest ha hb => ⟨fun hp => ?_, fun hp => ?_⟩
  · have lines := runSteps_regr_unresolved (inFlight_accepted ha (.regr off) rest) hb
    rw [runSteps_command ha rfl hp lines ((inFlight_accepted ha (.regr off) rest).move rfl rfl rfl rfl rfl)]
    simp [complete, respond, State.goto, accepted, accept, ha.busy, ha.seq]
  · have line := step_writes_unresolved (inFlight_accepted ha (.regw off v) rest) (.regw off v) hb
    rw [runSteps_command ha rfl hp (runSteps_one line) ((inFlight_accepted ha (.regw off v) rest).goto .complete)]
    simp [complete, State.goto, accepted, accept, ha.busy, ha.seq]

/-! ## Delays -/

section

variable {s : State} {i : Instr} {inside : DelayLine → Seq} {count : Word} {leave : Seq}

/-- The loop of a delay: one internal step for each count left (R122). -/
theorem runSteps_countdown (hc : CountsAt i inside count leave) {n : Nat} (h : InFlight i (inside .l2) s)
    (hn : s.dcnt.toNat = n + 1) : runSteps (n + 1) s = .next { s with dcnt := 0, seq := leave } := by
  induction n generalizing s with
  | zero =>
    have last : s.dcnt - 1 = 0 := by bv_omega
    have step := step_internalAt h (.counts hc (by bv_omega))
    rw [last, if_pos rfl] at step
    exact runSteps_one step
  | succ n ih =>
    have more : s.dcnt - 1 ≠ 0 := by bv_omega
    have step := step_internalAt h (.counts hc (by bv_omega))
    rw [if_neg more] at step
    have left : (s.dcnt - 1).toNat = n + 1 := by bv_omega
    rw [runSteps_step (n + 1) step]
    exact ih (s := { s with dcnt := s.dcnt - 1, seq := inside .l2 }) (h.move rfl rfl rfl rfl rfl) left

/-- A whole delay: L1, then `count` internal steps (R120, R122). -/
theorem runSteps_delay (hc : CountsAt i inside count leave) (h : InFlight i (inside .l1) s) :
    runSteps (count.toNat + 1) s = .next { s with dcnt := 0, seq := leave } := by
  have load := step_internalAt h (.loads hc)
  rw [runSteps_step _ load]
  by_cases none_left : count = 0
  · subst none_left
    rw [if_pos rfl]
    rfl
  · rw [if_neg none_left]
    have positive : count.toNat = count.toNat - 1 + 1 := by bv_omega
    rw [positive]
    exact runSteps_countdown (s := { s with dcnt := count, seq := inside .l2 }) hc (h.move rfl rfl rfl rfl rfl) positive

end

/-- Settles O18: DELAY is one delay between its acceptance and its completion. -/
theorem delayTakesCountStepsAndCompletes : Obligations.DelayTakesCountStepsAndCompletes := by
  intro s count rest ha hp
  have flight := inFlight_accepted ha (.delay count) rest
  rw [runSteps_command ha rfl hp (runSteps_delay (.delay count) flight) (flight.move rfl rfl rfl rfl rfl)]
  simp [complete, accepted, accept, ha.busy, ha.seq]

/-! ## The handshake -/

/-- The events of a handshake that ends with the matching reply (R132 to R135). -/
def handshakeEvents (s : State) (room : Wait) (ready : Word) (rounds : List ReplyRound) : List BusEvent :=
  readsOf (s.base + s.cfg.off.mboxStatus) room.reads
    ++ [.write (s.base + s.cfg.off.mboxWrite) (requestWord s.cfg) false] ++ rounds.flatMap (ReplyRound.events s)
    ++ [.read (s.base + s.cfg.off.mboxStatus) ready false,
      .read (s.base + s.cfg.off.mboxRead) (requestWord s.cfg) false]

/-- The events of a round are at the block's own addresses. -/
theorem events_congr {s t : State} (base : t.base = s.base) (cfg : t.cfg = s.cfg) :
    ReplyRound.events t = ReplyRound.events s := by
  funext r
  cases r <;> simp [ReplyRound.events, base, cfg]

theorem length_handshakeEvents (s : State) (room : Wait) (ready : Word) (rounds : List ReplyRound) :
    (handshakeEvents s room ready rounds).length =
      room.busy.length + (rounds.flatMap ReplyRound.values).length + 4 := by
  simp only [handshakeEvents, List.length_append, length_events, readsOf, Wait.reads, List.length_map,
    List.length_cons, List.length_nil]
  omega

/-- A block that has latched the request word (R131). -/
def requested (l : Seq) (s : State) : State := { s with mreq := requestWord s.cfg, seq := l }

section

variable {s : State} {i : Instr} {inside : MboxLine → Seq} {leave : Seq}
  {more : List Config.ReadAnswer}

theorem reaches_mboxWrite (hv : s.cfg.valid = true) (hr : Resolved s) : Reaches s.cfg.off.mboxWrite s :=
  reaches_fixed hv hr (by simp [Config.Offsets.all])

/-- The handshake from M1 to M4: the latch, the wait for room, the one write of the request (R131 to R133). -/
theorem runSteps_request {room : Wait} (h : InFlight i (inside .m1) s) (hm : HandshakesAt i inside leave)
    (hr : Resolved s) (hw : WritesSucceed 1 s) (hroom : room.ends s.cfg.mask.full = true)
    (hd : s.devReads = answers room.reads ++ more) :
    runSteps (1 + room.reads.length + 1) s = .next (busRun (readsOf (s.base + s.cfg.off.mboxStatus) room.reads
      ++ [.write (s.base + s.cfg.off.mboxWrite) (requestWord s.cfg) false]) more 1
      (inside .m4Status) (requested (inside .m2) s)) := by
  obtain ⟨-, room_to, -⟩ := waitOf_handshakesAt hm s.cfg
  have at_m2 : InFlight i (inside .m2) (requested (inside .m2) s) := h.move rfl rfl rfl rfl rfl
  have latch : step s = .next (requested (inside .m2) s) := step_internalAt h (.latches hm)
  have wait := runSteps_wait (waitsAt_m2 at_m2 hm hr) hroom hd
  rw [room_to] at wait
  have at_m3 := at_m2.busRun (readsOf (s.base + s.cfg.off.mboxStatus) room.reads) more 0 (inside .m3)
  have request := step_writes (n := 0) at_m3 (.request hm) (reaches_mboxWrite h.running.cfg hr) hw
  rw [busRun_busRun] at request
  exact runSteps_trans (runSteps_trans (runSteps_one latch) wait) (runSteps_one request)

/-- The reply that matches the request ends the handshake (R134). -/
theorem runSteps_match {ready m : Word} (h : InFlight i (inside .m4Status) s) (hm : HandshakesAt i inside leave)
    (hr : Resolved s) (latched : s.mreq = m) (clear : flagSet ready s.cfg.mask.empty = false)
    (hd : s.devReads = answers [ready, m] ++ more) :
    runSteps 2 s = .next (busRun [.read (s.base + s.cfg.off.mboxStatus) ready false,
      .read (s.base + s.cfg.off.mboxRead) m false] more 0 leave s) := by
  rw [runSteps_reply (vs := []) h hm hr clear hd, if_neg (not_not.mpr latched.symm)]
  rfl

/-- The handshake from M1 to the line behind it: the request, the rounds of M4, the matching reply. -/
theorem runSteps_handshake {room : Wait} {ready : Word} {rounds : List ReplyRound} (h : InFlight i (inside .m1) s)
    (hm : HandshakesAt i inside leave) (hr : Resolved s) (hw : WritesSucceed 1 s)
    (hroom : room.ends s.cfg.mask.full = true) (hrounds : ∀ r ∈ rounds, r.goesOn s.cfg = true)
    (hready : flagSet ready s.cfg.mask.empty = false)
    (hd : s.devReads =
      answers (room.reads ++ rounds.flatMap ReplyRound.values ++ [ready, requestWord s.cfg]) ++ more) :
    runSteps (1 + room.reads.length + 1 + (rounds.flatMap ReplyRound.values).length + 2) s =
      .next (busRun (handshakeEvents s room ready rounds) more 1 leave (requested leave s)) := by
  rw [answers_append, answers_append, List.append_assoc, List.append_assoc] at hd
  have request := runSteps_request h hm hr hw hroom hd
  have rounds_go := runSteps_trans request
    (runSteps_rounds (h.move rfl rfl rfl rfl rfl) hm hr rfl hrounds rfl)
  rw [busRun_busRun] at rounds_go
  refine (runSteps_trans rounds_go (runSteps_match ?_ hm ?_ rfl ?_ rfl)).trans ?_
  · exact h.move rfl rfl rfl rfl rfl
  · exact hr
  · exact hready
  · rw [busRun_busRun]
    rfl

end

/-- Settles O22: MBOX is one handshake between its acceptance and its completion. -/
theorem mboxCompletesOnTheMatchingReply : Obligations.MboxCompletesOnTheMatchingReply := by
  intro s rest room ready rounds more ha hr hw hp hroom hrounds hready hd
  have flight := inFlight_accepted ha .mbox rest
  have lines := runSteps_handshake flight .mbox hr hw hroom hrounds hready hd
  have whole := runSteps_command ha rfl hp lines (flight.move rfl rfl rfl rfl rfl)
  have steps : 1 + room.reads.length + 1 + (rounds.flatMap ReplyRound.values).length + 2 + 2 =
      room.busy.length + (rounds.flatMap ReplyRound.values).length + 7 := by
    simp only [Wait.reads, List.length_append, List.length_singleton]; omega
  rw [← steps, whole]
  simp only [busRun, length_handshakeEvents]
  simp [complete, requested, accepted, accept, ha.busy, ha.seq, handshakeEvents, events_congr (s := s)]

/-! ## MBOX while `BASE` is 0 -/

/-- A poll, a write or a read of MBOX while `BASE` is 0 leaves everything but the position, and a reply of 0 is never the
request (R138). -/
theorem step_mbox_unresolved {l : MboxLine} {s : State} (h : InFlight .mbox (.mbox l) s) (hb : s.base = 0)
    (latched : l ≠ .m1 → s.mreq = requestWord s.cfg) :
    ∃ l' m, l' ≠ .m1 ∧ m = requestWord s.cfg ∧ step s = .next { s with mreq := m, seq := .mbox l' } := by
  cases l with
  | m1 => exact ⟨.m2, _, by simp, rfl, step_internalAt h (.latches .mbox)⟩
  | m2 => exact ⟨.m3, _, by simp, latched (by simp), (step_reads_unresolved h (.full .mbox) hb).trans (by simp [flagSet]; rfl)⟩
  | m3 => exact ⟨.m4Status, _, by simp, latched (by simp), step_writes_unresolved h (.request .mbox) hb⟩
  | m4Status =>
    exact ⟨.m4Read, _, by simp, latched (by simp), (step_reads_unresolved h (.empty .mbox) hb).trans (by simp [flagSet]; rfl)⟩
  | m4Read =>
    have no_match : (0 : Word) ≠ s.mreq := latched (by simp) ▸ (requestWord_ne_zero h.running.cfg).symm
    have reads := step_reads_unresolved h (.reply .mbox) hb
    rw [if_pos no_match] at reads
    exact ⟨.m4Status, _, by simp, latched (by simp), reads⟩

/-- So MBOX goes on for ever, in flight, with nothing written but `MREQ` (R138, R233). -/
theorem runSteps_mbox_unresolved {n : Nat} {l : MboxLine} {s : State} (h : InFlight .mbox (.mbox l) s)
    (hb : s.base = 0) (latched : l ≠ .m1 → s.mreq = requestWord s.cfg) :
    ∃ l' m, runSteps n s = .next { s with mreq := m, seq := .mbox l' } := by
  induction n generalizing l s with
  | zero => exact ⟨l, s.mreq, by rw [← h.running.seq]; rfl⟩
  | succ n ih =>
    obtain ⟨l', m, behind, request, step⟩ := step_mbox_unresolved h hb latched
    obtain ⟨l'', m', run⟩ := ih (s := { s with mreq := m, seq := .mbox l' }) (h.move rfl rfl rfl rfl rfl) hb
      fun _ => request
    exact ⟨l'', m', (runSteps_step n step).trans run⟩

/-- Settles O23: the acceptance, then MBOX's lines without end. -/
theorem mboxWithoutBaseHangs : Obligations.MboxWithoutBaseHangs := by
  intro s rest n ha hb hp
  obtain ⟨l, m, run⟩ := runSteps_mbox_unresolved (n := n) (inFlight_accepted ha .mbox rest) hb (absurd rfl)
  exact ⟨_, (runSteps_step n (step_accepts ha (decode_port rfl hp))).trans run, rfl, ha.halted, rfl, rfl, rfl, rfl, hb⟩

/-! ## INIT -/

/-- Consecutive writing lines of INIT, with their registers and values in order. -/
inductive InitChain (c : Cfg) : InitLine → List (Nat × Word) → InitLine → Prop where
  | nil (l : InitLine) : InitChain c l [] l
  | cons {l l' l'' : InitLine} {off : Nat} {v : Word} {ws : List (Nat × Word)} : InitWrites c l off v l' →
      InitChain c l' ws l'' → InitChain c l ((off, v) :: ws) l''

/-- The writes of a list of registers and values, in order. -/
def writesOf (base : Nat) (ws : List (Nat × Word)) : List BusEvent := ws.map fun w => .write (base + w.1) w.2 false

/-- A block whose `BASE` INIT has set (R152). -/
def located (p : Word) (s : State) : State := { s with base := lookupBase s.cfg p }

/-- A block whose delay has run (R123). -/
def delayed (s : State) : State := { s with dcnt := 0 }

section

variable {p : Word} {u : State} {l₀ : Seq} {es : List BusEvent} {k : Nat}

/-- Consecutive writes of INIT, behind the events so far (R153 to R163). -/
theorem runSteps_initChain {l l' : InitLine} {ws : List (Nat × Word)} (h : InFlight (.init p) l₀ u) (hr : Resolved u)
    (hc : InitChain u.cfg l ws l') (hw : WritesSucceed (k + ws.length) u) :
    runSteps ws.length (busRun es u.devReads k (.init l) u) =
      .next (busRun (es ++ writesOf u.base ws) u.devReads (k + ws.length) (.init l') u) := by
  induction ws generalizing l es k with
  | nil => cases hc; rw [writesOf, List.map_nil, List.append_nil]; rfl
  | cons w ws ih =>
    cases hc with
    | cons write chain =>
      have flight := h.busRun es u.devReads k (.init l)
      have step := step_writes (n := ws.length) flight (.init p write)
        (reaches_fixed h.running.cfg hr (initWrites_fixed write)) (writesSucceed_busRun hw es u.devReads (.init l))
      have count : k + (ws.length + 1) = k + 1 + ws.length := by omega
      rw [busRun_busRun] at step
      rw [List.length_cons, count] at hw ⊢
      rw [runSteps_step _ step]
      refine (ih chain hw).trans ?_
      rw [List.append_assoc]
      rfl

/-- A delay of INIT, behind the events so far (R123). -/
theorem runSteps_initDelay {inside : DelayLine → Seq} {leave : Seq} (h : InFlight (.init p) l₀ u)
    (hc : CountsAt (.init p) inside Config.settle leave) :
    runSteps 151 (busRun es u.devReads k (inside .l1) u) = .next (busRun es u.devReads k leave (delayed u)) :=
  runSteps_delay hc (h.busRun es u.devReads k (inside .l1))

variable {s : State}

/-- S1 to S6: `BASE`, then five writes with the two delays in their places (R152 to R157). -/
theorem runSteps_initFirst (h : InFlight (.init p) (.init .s1) s) (hw : WritesSucceed 5 s) :
    runSteps 308 s = .next (busRun (initWritesFirst s.cfg (lookupBase s.cfg p)) s.devReads 5 (.init .s7)
      (delayed (located p s))) := by
  have hr : Resolved (located p s) := lookupBase_mem s.cfg p
  have flight : InFlight (.init p) (.init .s1) (located p s) := h.move rfl rfl rfl rfl h.running.seq
  have flight' : InFlight (.init p) (.init .s1) (delayed (located p s)) := h.move rfl rfl rfl rfl h.running.seq
  have locate : step s = .next (busRun [] s.devReads 0 (.init .s2) (located p s)) := by
    rw [step_internalAt h (.initResolves p)]
    simp [busRun, located]
  show runSteps (1 + (2 + (151 + (1 + (151 + 2))))) s = _
  refine runSteps_trans (runSteps_one locate) ?_
  refine runSteps_trans (runSteps_initChain flight hr (.cons .s2 (.cons .s3 (.nil _))) (writesSucceed_mono hw (by simp))) ?_
  refine runSteps_trans (runSteps_initDelay flight (.s3d p)) ?_
  refine runSteps_trans (runSteps_initChain flight' hr (.cons .s4 (.nil _)) (writesSucceed_mono hw (by simp))) ?_
  refine runSteps_trans (runSteps_initDelay flight' (.s4d p)) ?_
  exact runSteps_initChain flight' hr (.cons .s5 (.cons .s6 (.nil _))) hw

/-- S8a to S12: five writes, then the driver is Ready (R159 to R163). -/
theorem runSteps_initLast (h : InFlight (.init p) (.init .s8a) s) (hr : Resolved s) (hw : WritesSucceed 5 s) :
    runSteps 6 s = .next { busRun (initWritesLast s.cfg s.base) s.devReads 5 .complete s with drv := .ready } := by
  have writes := runSteps_initChain (es := []) (k := 0) h hr
    (.cons .s8a (.cons .s8b (.cons .s9 (.cons .s10 (.cons .s11 (.nil _)))))) hw
  rw [← h.running.seq, busRun_nil] at writes
  show runSteps (5 + 1) s = _
  refine runSteps_trans writes (runSteps_one ?_)
  exact step_internalAt (h.busRun _ _ _ _) (.becomesReady p)

/-- S7 by the identifier (R158). -/
theorem runSteps_s7 (h : InFlight (.init p) (.init .s7) s) : runSteps 1 s =
    .next (s.goto (if 3 ≤ p.toNat then .init (.s7m .m1) else .init .s8a)) :=
  runSteps_one (step_internalAt h (.negotiates p))

end

/-- Settles O26: below generation 3 S7 goes straight from the first five writes to the last five. -/
theorem initBelowGenerationThreeMakesTenWrites : Obligations.InitBelowGenerationThreeMakesTenWrites := by
  intro s p rest ha hw below hp
  have flight := inFlight_accepted ha (.init p) rest
  have first := runSteps_initFirst flight (writesSucceed_mono hw (by decide))
  have s7 := runSteps_trans first (runSteps_s7 (flight.move rfl rfl rfl rfl rfl))
  rw [if_neg (Nat.not_le.mpr below)] at s7
  have lines := runSteps_trans s7 (runSteps_initLast (flight.move rfl rfl rfl rfl rfl) (lookupBase_mem s.cfg p)
    (writesSucceed_drop (k := 5) (s := s) hw rfl rfl))
  rw [runSteps_command ha rfl hp lines (flight.move rfl rfl rfl rfl rfl)]
  simp [complete, busRun, located, delayed, State.goto, accepted, accept, ha.busy, ha.seq, initWritesFirst,
    initWritesLast]

/-- Settles O27: from generation 3 on the handshake stands between the two halves. -/
theorem initFromGenerationThreeNegotiatesFirst : Obligations.InitFromGenerationThreeNegotiatesFirst := by
  rintro s p rest room ready rounds more ha hw above hp hroom hrounds hready hd b rfl
  have flight := inFlight_accepted ha (.init p) rest
  have first := runSteps_initFirst flight (writesSucceed_mono hw (by decide))
  have s7 := runSteps_trans first (runSteps_s7 (flight.move rfl rfl rfl rfl rfl))
  rw [if_pos above] at s7
  have negotiated := runSteps_trans s7 (runSteps_handshake (flight.move rfl rfl rfl rfl rfl) (.init p)
    (lookupBase_mem s.cfg p) (writesSucceed_drop (k := 5) (s := s) (writesSucceed_mono hw (by decide)) rfl rfl) hroom
    hrounds hready hd)
  have lines := runSteps_trans negotiated (runSteps_initLast (flight.move rfl rfl rfl rfl rfl) (lookupBase_mem s.cfg p)
    (writesSucceed_drop (k := 6) (s := s) hw rfl (by simp [busRun, requested, State.goto, delayed, located, accepted])))
  have whole := runSteps_command ha rfl hp lines (flight.move rfl rfl rfl rfl rfl)
  have steps : 308 + 1 + (1 + room.reads.length + 1 + (rounds.flatMap ReplyRound.values).length + 2) + 6 + 2 =
      room.busy.length + (rounds.flatMap ReplyRound.values).length + 322 := by
    simp only [Wait.reads, List.length_append, List.length_singleton]; omega
  rw [← steps, whole]
  simp only [busRun, length_handshakeEvents]
  simp [complete, located, delayed, requested, State.goto, accepted, accept, ha.busy, ha.seq, initWritesFirst,
    initWritesLast, handshakeEvents, events_congr (s := { s with base := lookupBase s.cfg p })]
  omega

end Sys2Proof.Machine
end

section
/-! SUPPORT. PUTB, GETB, PUTS and the panic emission as whole runs (spec/44_uart_io.md, spec/60_exceptions.md R226 to
R228): a byte is sent by one wait and one write. -/

namespace Sys2Proof.Machine

open Sys2Proof.Config (Cfg BusEvent)

/-! ## One byte sent, one byte received -/

/-- The lines of a `TxByte` in a command are where the statements' waits are. -/
theorem waitOf_sendsAt {i : Instr} {inside : TxLine → Seq} {b : Byte} {next : Seq} (h : SendsAt i inside b next)
    (c : Cfg) : waitOf c (inside .t1) = some (c.off.uartFr, c.mask.txff) ∧ afterWait (inside .t1) = inside .t2 := by
  cases h <;> exact ⟨rfl, rfl⟩

theorem waitOf_receivesAt {i : Instr} {inside : RxLine → Seq} {got : Byte → Seq} (h : ReceivesAt i inside got)
    (c : Cfg) : waitOf c (inside .x1) = some (c.off.uartFr, c.mask.rxfe) ∧ afterWait (inside .x1) = inside .x2 ∧
      lineOf i (inside .x1) = true := by
  cases h <;> exact ⟨rfl, rfl, rfl⟩

theorem length_readsOf (a : Nat) (vs : List Word) : (readsOf a vs).length = vs.length := List.length_map _

section

variable {s : State} {i : Instr} {w : Wait} {more : List Config.ReadAnswer}

/-- `TxByte` in a command: the wait, then the one write (R184). -/
theorem runSteps_send {inside : TxLine → Seq} {b : Byte} {next : Seq} {n : Nat} (h : InFlight i (inside .t1) s)
    (hs : SendsAt i inside b next) (hl : lineOf i (inside .t1) = true) (hr : Resolved s)
    (hw : WritesSucceed (n + 1) s) (hwait : w.ends s.cfg.mask.txff = true)
    (hd : s.devReads = answers w.reads ++ more) :
    runSteps (w.reads.length + 1) s = .next (busRun (sendEvents s w b) more 1 next s) := by
  obtain ⟨wait_here, goes⟩ := waitOf_sendsAt hs s.cfg
  have wait := runSteps_wait ⟨h.running, .inr ⟨i, h.cur, hl⟩, wait_here, hr⟩ hwait hd
  rw [goes] at wait
  have at_t2 := h.busRun (readsOf (s.base + s.cfg.off.uartFr) w.reads) more 0 (inside .t2)
  have write := step_writes (n := n) at_t2 (.send hs) (reaches_uartDr h.running.cfg hr) hw
  rw [busRun_busRun] at write
  exact runSteps_trans wait (runSteps_one write)

/-- `RxByte` in a command: the wait, then the one read (R187). -/
theorem runSteps_receive {inside : RxLine → Seq} {got : Byte → Seq} {d : Word} (h : InFlight i (inside .x1) s)
    (hg : ReceivesAt i inside got) (hr : Resolved s) (hwait : w.ends s.cfg.mask.rxfe = true)
    (hd : s.devReads = answers (w.reads ++ [d]) ++ more) :
    runSteps (w.reads.length + 1) s = .next (busRun (readsOf (s.base + s.cfg.off.uartFr) w.reads
      ++ [.read (s.base + s.cfg.off.uartDr) d false]) more 0 (got (d.extractLsb' 0 8)) s) := by
  rw [answers_append, List.append_assoc] at hd
  obtain ⟨wait_here, goes, line⟩ := waitOf_receivesAt hg s.cfg
  have wait := runSteps_wait ⟨h.running, .inr ⟨i, h.cur, line⟩, wait_here, hr⟩ hwait hd
  rw [goes] at wait
  have at_x2 := h.busRun (readsOf (s.base + s.cfg.off.uartFr) w.reads) (answers [d] ++ more) 0 (inside .x2)
  have read := step_reads at_x2 (.data hg) (reaches_uartDr h.running.cfg hr) rfl
  rw [busRun_busRun] at read
  exact runSteps_trans wait (runSteps_one read)

end

theorem length_sendEvents (s : State) (w : Wait) (b : Byte) : (sendEvents s w b).length = w.reads.length + 1 := by
  simp [sendEvents, readsOf]

/-! ## PUTB and GETB -/

/-- Settles O31: PUTB is one `TxByte` behind the entry check. -/
theorem putbSendsItsByteOnce : Obligations.PutbSendsItsByteOnce := by
  intro s b rest w more ha ready hr hw hp hwait hd
  have flight := inFlight_accepted ha (.putb b) rest
  have entry := runSteps_one (step_entry flight (.putb b) (.inl ready))
  have send := runSteps_send (n := 0) (flight.goto _) (.putb b) rfl hr hw hwait hd
  have whole := runSteps_command ha rfl hp (runSteps_trans entry send) (flight.move rfl rfl rfl rfl rfl)
  have steps : 1 + (w.reads.length + 1) + 2 = w.busy.length + 5 := by
    simp only [Wait.reads, List.length_append, List.length_singleton]; omega
  rw [← steps, whole]
  simp [complete, busRun, State.goto, accepted, accept, ha.busy, ha.seq, sendEvents, length_readsOf, Wait.reads]

/-- Settles O34: GETB is one `RxByte` behind the entry check, and the response of its byte. -/
theorem getbRespondsWithTheLowByte : Obligations.GetbRespondsWithTheLowByte := by
  intro s d rest w more ha ready hr hp hwait hd
  have flight := inFlight_accepted ha .getb rest
  have entry := runSteps_one (step_entry flight .getb (.inl ready))
  have receive := runSteps_receive (flight.goto _) .getb hr hwait hd
  have at_q2 := (flight.goto (.getbQ1 .x1)).busRun (readsOf (s.base + s.cfg.off.uartFr) w.reads
    ++ [.read (s.base + s.cfg.off.uartDr) d false]) more 0 (.getbQ2 (d.extractLsb' 0 8))
  have respond := runSteps_one (step_internalAt at_q2 (.getbResponds _))
  have whole := runSteps_command ha rfl hp (runSteps_trans (runSteps_trans entry receive) respond)
    (flight.move rfl rfl rfl rfl rfl)
  have steps : 1 + (w.reads.length + 1) + 1 + 2 = w.busy.length + 6 := by
    simp only [Wait.reads, List.length_append, List.length_singleton]; omega
  rw [← steps, whole, zext64_zext32]
  simp [complete, Machine.respond, busRun, State.goto, accepted, accept, ha.busy, ha.seq, length_readsOf,
    Wait.reads]

/-! ## PUTS -/

theorem textByte_drop {text : List Byte} {k : Nat} (hk : k < text.length) :
    text.drop k = textByte text k :: text.drop (k + 1) := by
  rw [List.drop_eq_getElem_cons hk, textByte, List.getD_eq_getElem _ _ hk]

/-- The events of a text, one byte at a time. -/
theorem sendAll_cons (s : State) (w : Wait) (ws : List Wait) (b : Byte) (bs : List Byte) :
    sendAll s (w :: ws) (b :: bs) = sendEvents s w b ++ sendAll s ws bs := by
  simp [sendAll]

/-- The events of a text are at the block's own addresses. -/
theorem sendAll_congr {s t : State} (base : t.base = s.base) (cfg : t.cfg = s.cfg) : sendAll t = sendAll s := by
  funext ws text
  simp only [sendAll, sendEvents, base, cfg]

theorem length_sendAll (s : State) {ws : List Wait} {text : List Byte} (h : ws.length = text.length) :
    (sendAll s ws text).length = (ws.flatMap Wait.reads).length + text.length := by
  induction ws generalizing text with
  | nil => rw [List.length_nil] at h; simp [sendAll, List.length_eq_zero_iff.mp h.symm]
  | cons w ws ih =>
    cases text with
    | nil => cases h
    | cons b bs =>
      have rest := ih (Nat.succ.inj h)
      rw [sendAll_cons, List.length_append, length_sendEvents, rest, List.flatMap_cons, List.length_append,
        List.length_cons]
      omega

/-- Consecutive bytes that a command sends, from the position of the first to the position behind the last. -/
inductive SendsText (i : Instr) : Seq → List Byte → Seq → Prop where
  | nil (l : Seq) : SendsText i l [] l
  | cons {inside : TxLine → Seq} {b : Byte} {next l : Seq} {bs : List Byte} : SendsAt i inside b next →
      lineOf i (inside .t1) = true → SendsText i next bs l → SendsText i (inside .t1) (b :: bs) l

/-- Each byte of a text after its own wait, in order. -/
theorem runSteps_sendsText {i : Instr} {l l' : Seq} {text : List Byte} {ws : List Wait} {s : State}
    {more : List Config.ReadAnswer} (h : InFlight i l s) (hs : SendsText i l text l') (hlen : ws.length = text.length)
    (hr : Resolved s) (hw : WritesSucceed ws.length s) (hwaits : ∀ w ∈ ws, w.ends s.cfg.mask.txff = true)
    (hd : s.devReads = answers (ws.flatMap Wait.reads) ++ more) :
    runSteps ((ws.flatMap Wait.reads).length + ws.length) s =
      .next (busRun (sendAll s ws text) more ws.length l' s) := by
  induction hs generalizing ws s with
  | nil l =>
    cases List.length_eq_zero_iff.mp hlen
    have left : s.devReads = more := by simpa [answers] using hd
    rw [← left, ← h.running.seq]
    exact congrArg _ (busRun_nil s).symm
  | @cons inside b next _ bs sends line _ ih =>
    cases ws with
    | nil => cases hlen
    | cons w ws =>
      rw [List.flatMap_cons, answers_append, List.append_assoc] at hd
      have first := runSteps_send (n := ws.length) h sends line hr hw (hwaits w List.mem_cons_self) hd
      have later := ih (s := busRun (sendEvents s w b) (answers (ws.flatMap Wait.reads) ++ more) 1 next s)
        (h.move rfl rfl rfl rfl rfl) (Nat.succ.inj hlen) hr
        (writesSucceed_drop (k := 1) (n := ws.length) (s := s) (by rwa [Nat.add_comm]) rfl rfl)
        (fun w hw => hwaits w (List.mem_cons_of_mem _ hw)) rfl
      rw [busRun_busRun] at later
      have steps : ((w :: ws).flatMap Wait.reads).length + (w :: ws).length =
          w.reads.length + 1 + ((ws.flatMap Wait.reads).length + ws.length) := by
        simp only [List.flatMap_cons, List.length_append, List.length_cons]; omega
      rw [steps, sendAll_cons, List.length_cons, Nat.add_comm ws.length 1]
      exact runSteps_trans first later

/-- PUTS at byte `k` sends what its text holds from there on (R190, R191). -/
theorem sendsText_puts {n : Offset} {text : List Byte} {k m : Nat} (hn : text.length = n.toNat)
    (hm : k + m = text.length) : SendsText (.puts n text) (putsAt n k) (text.drop k) .complete := by
  induction m generalizing k with
  | zero =>
    have done : putsAt n k = .complete := if_neg (by rw [countOperand]; omega)
    rw [done, List.drop_of_length_le (by omega)]
    exact .nil _
  | succ m ih =>
    have here : putsAt n k = .puts k .t1 := if_pos (by rw [countOperand]; omega)
    have line : lineOf (.puts n text) (.puts k .t1) = true := by simp [lineOf]; omega
    rw [here, textByte_drop (by omega)]
    exact .cons (.puts n text k) line (ih (by omega))

/-- Settles O36: PUTS is its loop behind the entry check. -/
theorem putsSendsTheTextInOrder : Obligations.PutsSendsTheTextInOrder := by
  intro s n text rest ws more ha ready hr hw hn hp hlen hwaits hd
  have flight := inFlight_accepted ha (.puts n text) rest
  have entry := runSteps_one (step_entry flight (.puts n text) (.inl ready))
  have loop := runSteps_sendsText (flight.goto _) (sendsText_puts (k := 0) hn (Nat.zero_add _)) hlen hr (hlen ▸ hw)
    hwaits hd
  have whole := runSteps_command ha (wellFormed_puts.mpr hn) hp (runSteps_trans entry loop)
    (flight.move rfl rfl rfl rfl rfl)
  have steps : 1 + ((ws.flatMap Wait.reads).length + ws.length) + 2 =
      (ws.flatMap Wait.reads).length + text.length + 3 := by omega
  rw [← steps, whole]
  simp only [busRun, List.drop_zero, length_sendAll _ hlen, hlen]
  simp [complete, State.goto, accepted, accept, ha.busy, ha.seq, sendAll_congr (s := s)]

/-! ## The emission -/

/-- Where the emission stands before a byte: at it, or at Halt behind the last one (R226). -/
def emitAt (p : BitVec 4) : Seq := if p < 13 then .emit .t1 else .halt

theorem emitAt_of_lt {p : BitVec 4} (h : p.toNat < 13) : emitAt p = .emit .t1 := if_pos (BitVec.lt_def.mpr h)

theorem emitAt_thirteen : emitAt 13 = .halt := rfl

/-- One byte of the emission: its wait, then its write (R226). -/
theorem runSteps_emitByte {s : State} {w : Wait} {n : Nat} {more : List Config.ReadAnswer}
    (h : RunningAt s (.emit .t1)) (hr : Resolved s) (hw : WritesSucceed (n + 1) s)
    (hwait : w.ends s.cfg.mask.txff = true) (hd : s.devReads = answers w.reads ++ more) :
    runSteps (w.reads.length + 1) s =
      .next (emitNext (busRun (sendEvents s w (panicByte s.pidx)) more 1 (.emit .t2) s)) := by
  have wait := runSteps_wait ⟨h, .inl rfl, rfl, hr⟩ hwait hd
  have write := regWrite_performed (s := busRun (readsOf (s.base + s.cfg.off.uartFr) w.reads) more 0 (.emit .t2) s)
    (n := n) ((panicByte s.pidx).setWidth 32) (reaches_uartDr h.cfg hr) hw
  have step := step_emit (s := busRun (readsOf (s.base + s.cfg.off.uartFr) w.reads) more 0 (.emit .t2) s) h.halted h.cfg
    rfl
  rw [emitLine_t2] at step
  refine runSteps_trans wait (runSteps_one (step.trans (congrArg _ ?_)))
  refine (congrArg (fun r => Access.finish r _ _) write).trans ?_
  rw [busRun_busRun]
  rfl

theorem panicText_drop {p : BitVec 4} (h : p.toNat < 13) :
    Config.panicText.drop p.toNat = panicByte p :: Config.panicText.drop (p.toNat + 1) := textByte_drop h

/-- The emission from byte `PIDX` to Halt. -/
theorem runSteps_emission {ws : List Wait} {s : State} {more : List Config.ReadAnswer} (h : RunningAt s (emitAt s.pidx))
    (hlen : s.pidx.toNat + ws.length = 13) (hr : Resolved s) (hw : WritesSucceed ws.length s)
    (hwaits : ∀ w ∈ ws, w.ends s.cfg.mask.txff = true) (hd : s.devReads = answers (ws.flatMap Wait.reads) ++ more) :
    runSteps ((ws.flatMap Wait.reads).length + ws.length) s =
      .next { busRun (sendAll s ws (Config.panicText.drop s.pidx.toNat)) more ws.length .halt s with pidx := 13 } := by
  induction ws generalizing s with
  | nil =>
    have last : s.pidx = 13 := BitVec.eq_of_toNat_eq hlen
    have left : s.devReads = more := by simpa [answers] using hd
    have seq := h.seq
    rw [last, emitAt_thirteen] at seq
    refine congrArg _ ?_
    rw [← left, ← seq, ← last]
    exact (busRun_nil s).symm
  | cons w ws ih =>
    rw [List.length_cons] at hlen
    have inside : s.pidx.toNat < 13 := by omega
    have next : (s.pidx + 1).toNat = s.pidx.toNat + 1 := by bv_omega
    rw [List.flatMap_cons, answers_append, List.append_assoc] at hd
    have send := runSteps_emitByte (n := ws.length) (emitAt_of_lt inside ▸ h) hr hw (hwaits w List.mem_cons_self) hd
    have later := ih (s := emitNext (busRun (sendEvents s w (panicByte s.pidx))
        (answers (ws.flatMap Wait.reads) ++ more) 1 (.emit .t2) s))
      ⟨h.cfg, h.halted, h.busy, rfl⟩ (by rw [emitNext_pidx]; show (s.pidx + 1).toNat + _ = _; omega) hr
      (writesSucceed_drop (k := 1) (n := ws.length) (s := s) (by rwa [Nat.add_comm]) rfl rfl)
      (fun w hw => hwaits w (List.mem_cons_of_mem _ hw)) rfl
    have steps : ((w :: ws).flatMap Wait.reads).length + (w :: ws).length =
        w.reads.length + 1 + ((ws.flatMap Wait.reads).length + ws.length) := by
      simp only [List.flatMap_cons, List.length_append, List.length_cons]; omega
    rw [steps, panicText_drop inside, sendAll_cons, ← next]
    refine (runSteps_trans send later).trans ?_
    simp [busRun, emitNext, Nat.add_assoc, sendAll_congr (s := s)]

/-- One byte of the emission while `BASE` is 0: two steps without a bus event (R212). -/
theorem runSteps_emitByte_unresolved {s : State} (h : RunningAt s (.emit .t1)) (hb : s.base = 0) :
    runSteps 2 s = .next (emitNext s) := by
  have poll := step_emit h.halted h.cfg h.seq
  rw [emitLine, txLine_unresolved _ _ hb] at poll
  have write := step_emit (s := s.goto (.emit .t2)) h.halted h.cfg rfl
  rw [emitLine, txLine_unresolved (s := s.goto (.emit .t2)) _ _ hb] at write
  exact (runSteps_step 1 poll).trans (runSteps_one write)

/-- The rest of the emission while `BASE` is 0. -/
theorem runSteps_emission_unresolved {n : Nat} {s : State} (h : RunningAt s (emitAt s.pidx))
    (hn : s.pidx.toNat + n = 13) (hb : s.base = 0) :
    runSteps (2 * n) s = .next { s with pidx := 13, seq := .halt } := by
  induction n generalizing s with
  | zero =>
    have last : s.pidx = 13 := BitVec.eq_of_toNat_eq hn
    have seq := h.seq
    rw [last, emitAt_thirteen] at seq
    rw [← seq, ← last]
    rfl
  | succ n ih =>
    have inside : s.pidx.toNat < 13 := by omega
    have next : (s.pidx + 1).toNat = s.pidx.toNat + 1 := by bv_omega
    have first := runSteps_emitByte_unresolved (emitAt_of_lt inside ▸ h) hb
    rw [Nat.mul_succ, Nat.add_comm]
    exact runSteps_trans first
      (ih (s := emitNext s) ⟨h.cfg, h.halted, h.busy, rfl⟩ (by rw [emitNext_pidx]; omega) hb)

/-- Settles O43: thirteen bytes, then Halt. -/
theorem emissionReportsOnceThenHalts : Obligations.EmissionReportsOnceThenHalts := by
  intro s ws more h start
  have at_first : RunningAt s (emitAt s.pidx) := by rw [start]; exact h
  refine ⟨fun hr hw hlen hwaits hd => ?_, fun hb => ?_⟩
  · have emission := runSteps_emission at_first (by rw [start, hlen]; rfl) hr (hlen ▸ hw) hwaits hd
    have halts := step_halt (s := { busRun (sendAll s ws (Config.panicText.drop s.pidx.toNat)) more ws.length .halt s
      with pidx := 13 }) h.halted h.cfg rfl
    have whole := runSteps_trans emission (runSteps_one halts)
    have same_length : ws.length = Config.panicText.length := hlen
    rw [hlen] at whole
    refine whole.trans ?_
    have from_zero : Config.panicText.drop s.pidx.toNat = Config.panicText := by rw [start]; rfl
    simp only [haltBlock, busRun, from_zero, length_sendAll s same_length]
    rfl
  · have emission := runSteps_emission_unresolved (n := 13) at_first (by rw [start]; rfl) hb
    exact runSteps_trans emission (runSteps_one (step_halt h.halted h.cfg rfl))

/-- Settles O44: an error answer goes to Halt, which is a step of its own. -/
theorem busErrorInTheEmissionHalts : Obligations.BusErrorInTheEmissionHalts := by
  refine fun s hr errors => ⟨fun h bad => ?_, fun h bad b hb => ?_⟩
  · have read_error : s.readErr = true := by simp [State.readErr, errors, bad]
    have poll := step_emit h.halted h.cfg h.seq
    rw [emitLine_t1, readThen, regRead_error (reaches_uartFr h.cfg hr) read_error] at poll
    exact (runSteps_step 1 poll).trans (runSteps_one (step_halt h.halted h.cfg rfl))
  · have write_error : s.writeErr = true := by simp [State.writeErr, errors, bad]
    have write := step_emit h.halted h.cfg h.seq
    have its_byte : panicByte s.pidx = b := textByte_of_getElem? hb
    rw [emitLine_t2, its_byte, regWrite_error _ (reaches_uartDr h.cfg hr) write_error] at write
    exact (runSteps_step 1 write).trans (runSteps_one (step_halt h.halted h.cfg rfl))

/-! ## The byte commands while `BASE` is 0 -/

section

variable {s : State} {i : Instr}

/-- `TxByte` while `BASE` is 0: two steps without a bus event (R182). -/
theorem runSteps_send_unresolved {inside : TxLine → Seq} {b : Byte} {next : Seq} (h : InFlight i (inside .t1) s)
    (hs : SendsAt i inside b next) (hb : s.base = 0) : runSteps 2 s = .next (s.goto next) := by
  have poll := step_reads_unresolved h (.txff hs) hb
  rw [if_neg (by simp [flagSet])] at poll
  exact (runSteps_step 1 poll).trans (runSteps_one (step_writes_unresolved (h.goto (inside .t2)) (.send hs) hb))

/-- `RxByte` while `BASE` is 0 returns the byte 0 (R182). -/
theorem runSteps_receive_unresolved {inside : RxLine → Seq} {got : Byte → Seq} (h : InFlight i (inside .x1) s)
    (hg : ReceivesAt i inside got) (hb : s.base = 0) : runSteps 2 s = .next (s.goto (got 0)) := by
  have poll := step_reads_unresolved h (.rxfe hg) hb
  rw [if_neg (by simp [flagSet])] at poll
  exact (runSteps_step 1 poll).trans (runSteps_one (step_reads_unresolved (h.goto (inside .x2)) (.data hg) hb))

/-- A text sent while `BASE` is 0. -/
theorem runSteps_sendsText_unresolved {l l' : Seq} {text : List Byte} (h : InFlight i l s)
    (hs : SendsText i l text l') (hb : s.base = 0) : runSteps (2 * text.length) s = .next (s.goto l') := by
  induction hs generalizing s with
  | nil l =>
    rw [← h.running.seq]
    rfl
  | cons sends _ _ ih =>
    rw [List.length_cons, Nat.mul_succ, Nat.add_comm]
    exact runSteps_trans (runSteps_send_unresolved h sends hb) (ih (h.goto _) hb)

end

theorem putb_unresolved {s : State} {b : Byte} {rest : List CmdWord} (ha : Accepting s) (hb : s.base = 0)
    (hp : s.port = commandFields 0x7 0 (b.setWidth 32) :: rest) :
    runSteps 5 s = .next { s with port := rest, cur := some (.putb b) } := by
  have flight := inFlight_accepted ha (.putb b) rest
  have entry := runSteps_one (step_entry flight (.putb b) (.inr hb))
  have send := runSteps_send_unresolved (flight.goto (.putb .t1)) (.putb b) hb
  rw [runSteps_command ha rfl hp (runSteps_trans entry send) (flight.move rfl rfl rfl rfl rfl)]
  simp [complete, State.goto, accepted, accept, ha.busy, ha.seq]

theorem getb_unresolved {s : State} {rest : List CmdWord} (ha : Accepting s) (hb : s.base = 0)
    (hp : s.port = commandFields 0x8 0 0 :: rest) :
    runSteps 6 s = .next { s with port := rest, cur := some .getb, respq := s.respq ++ [0] } := by
  have flight := inFlight_accepted ha .getb rest
  have entry := runSteps_one (step_entry flight .getb (.inr hb))
  have receive := runSteps_receive_unresolved (flight.goto (.getbQ1 .x1)) .getb hb
  have responds := runSteps_one (step_internalAt (flight.goto (.getbQ2 0)) (.getbResponds 0))
  rw [runSteps_command ha rfl hp (runSteps_trans (runSteps_trans entry receive) responds)
    (flight.move rfl rfl rfl rfl rfl)]
  simp [complete, respond, State.goto, accepted, accept, ha.busy, ha.seq, zext64, zext32]

theorem puts_unresolved {s : State} {n : Offset} {text : List Byte} {rest : List CmdWord} (ha : Accepting s)
    (hb : s.base = 0) (hn : text.length = n.toNat) (hp : s.port = commandFields 0x9 n 0 :: packBytes text ++ rest) :
    runSteps (2 * text.length + 3) s = .next { s with port := rest, cur := some (.puts n text) } := by
  have flight := inFlight_accepted ha (.puts n text) rest
  have entry := runSteps_one (step_entry flight (.puts n text) (.inr hb))
  have loop := runSteps_sendsText_unresolved (flight.goto (putsAt n 0))
    (sendsText_puts (k := 0) hn (Nat.zero_add _)) hb
  have whole := runSteps_command ha (wellFormed_puts.mpr hn) hp (runSteps_trans entry loop)
    (flight.move rfl rfl rfl rfl rfl)
  rw [List.drop_zero] at whole
  rw [show 2 * text.length + 3 = 1 + 2 * text.length + 2 by omega, whole]
  simp [complete, State.goto, accepted, accept, ha.busy, ha.seq]

end Sys2Proof.Machine
end

section
/-! SUPPORT. GETS as a whole run, against the pure line editor (spec/44_uart_io.md R193 to R201). -/

namespace Sys2Proof.Machine

open Sys2Proof.Config (Cfg BusEvent)

/-! ## The line in the buffer -/

/-- The line that `LEN` and `LB` hold (R29, R30). -/
structure HoldsLine (line : List Byte) (s : State) : Prop where
  len : s.len = BitVec.ofNat 8 line.length
  fits : line.length ≤ 128
  text : s.lb.toList.take line.length = line

theorem HoldsLine.toNat_len {line : List Byte} {s : State} (h : HoldsLine line s) : s.len.toNat = line.length := by
  have fits := h.fits
  rw [h.len, BitVec.toNat_ofNat]
  omega

theorem HoldsLine.move {line : List Byte} {s t : State} (h : HoldsLine line s) (len : t.len = s.len)
    (lb : t.lb = s.lb) : HoldsLine line t := ⟨len.trans h.len, h.fits, lb ▸ h.text⟩

/-- GETS responds with the line it holds (R199). -/
theorem HoldsLine.response {line : List Byte} {s : State} (h : HoldsLine line s) :
    lineResponse s = BitVec.ofNat 64 line.length :: packBytes line := by
  have word : s.len.setWidth 64 = BitVec.ofNat 64 line.length := by
    apply BitVec.eq_of_toNat_eq
    rw [BitVec.toNat_setWidth, BitVec.toNat_ofNat, h.toNat_len]
  rw [lineResponse, h.toNat_len, h.text, word]

/-- The block with a line of this length in this buffer, at this position. -/
def edited (line : List Byte) (lb : Vector Byte 128) (l : Seq) (s : State) : State :=
  { s with len := BitVec.ofNat 8 line.length, lb := lb, seq := l }

theorem edited_same {line : List Byte} {s : State} (h : HoldsLine line s) : edited line s.lb s.seq s = s := by
  rw [edited, ← h.len]

/-- Where GETS goes on after an edit (R194, R198). -/
def afterEdit (finished : Bool) : Seq := if finished then .gets .g9 else .gets (.g2 .x1)

/-- A byte stored behind the line (R197, R198). -/
theorem storeByte_edits {line : List Byte} {s : State} (h : HoldsLine line s) (room : line.length < 128) (b : Byte) :
    storeByte b s = edited (line ++ [b]) (lineStore s.lb line.length b) (afterEdit (line.length + 1 == 128)) s ∧
      HoldsLine (line ++ [b]) (edited (line ++ [b]) (lineStore s.lb line.length b)
        (afterEdit (line.length + 1 == 128)) s) := by
  constructor
  · have longer : s.len + 1 = BitVec.ofNat 8 (line ++ [b]).length := by
      rw [h.len, List.length_append, List.length_singleton, BitVec.ofNat_add]
      rfl
    have full : (BitVec.ofNat 8 (line ++ [b]).length).toNat = line.length + 1 := by
      rw [BitVec.toNat_ofNat, List.length_append, List.length_singleton]
      omega
    rw [storeByte, h.toNat_len, longer, full, edited, afterEdit]
    simp [Config.lbCap]
  · have stored := getElem?_lineStore s.lb line.length b
    have last : (lineStore s.lb line.length b).toList[line.length]? = some b := by rw [stored]; simp [room]
    have before : (lineStore s.lb line.length b).toList.take line.length = line := by
      refine Eq.trans (List.ext_getElem? fun k => ?_) h.text
      rw [List.getElem?_take, List.getElem?_take, stored]
      by_cases inside : k < line.length
      · rw [if_pos inside, if_pos inside, if_neg (by omega)]
      · rw [if_neg inside, if_neg inside]
    refine ⟨rfl, by rw [List.length_append]; exact room, ?_⟩
    rw [List.length_append, List.length_singleton, edited, List.take_add_one, before, last]
    rfl

/-- The last byte discarded, if there is one (R196). -/
theorem discardByte_edits {line : List Byte} {s : State} (h : HoldsLine line s) :
    discardByte s = edited line.dropLast s.lb (afterEdit false) s ∧
      HoldsLine line.dropLast (edited line.dropLast s.lb (afterEdit false) s) := by
  constructor
  · have shorter : (if s.len = 0 then 0 else s.len - 1) = BitVec.ofNat 8 line.dropLast.length := by
      have fits := h.fits
      rw [h.len, List.length_dropLast]
      split
      next empty => bv_omega
      next nonempty => bv_omega
    rw [discardByte, shorter]
    rfl
  · have fits := h.fits
    have shorter := congrArg (List.take (line.length - 1)) h.text
    rw [List.take_take, Nat.min_eq_left (Nat.sub_le _ _)] at shorter
    refine ⟨rfl, by rw [List.length_dropLast]; omega, ?_⟩
    rw [List.length_dropLast, List.dropLast_eq_take]
    exact shorter

/-! ## One byte of the input -/

/-- What the line behind an echo makes of the line held, and whether the line is finished (R195 to R198). -/
def afterEcho : EchoThen → List Byte → List Byte × Bool
  | .terminate, line => (line, true)
  | .erase, line => (line.dropLast, false)
  | .store b, line => (line ++ [b], line.length + 1 == 128)

/-- The class of a byte in the model and in the pure editor. -/
theorem exists_echo (b : Byte) : ∃ e es k, classify b = .echo e es .t1 k ∧
    ∀ line, editByte line b = ((afterEcho k line).1, e :: es, (afterEcho k line).2) := by
  unfold classify editByte
  by_cases ends_line : b = 0x0A ∨ b = 0x0D
  · exact ⟨byteCr, [byteLf], .terminate, if_pos ends_line, fun line => if_pos ends_line⟩
  · by_cases erases : b = 0x08
    · refine ⟨byteBs, [byteSpace, byteBs], .erase, ?_, fun line => ?_⟩
      · exact (if_neg ends_line).trans (if_pos erases)
      · exact (if_neg ends_line).trans (if_pos erases)
    · refine ⟨b, [], .store b, ?_, fun line => ?_⟩
      · exact (if_neg ends_line).trans (if_neg erases)
      · exact (if_neg ends_line).trans (if_neg erases)

/-- A line that goes on has room for a byte. -/
theorem length_afterEcho {k : EchoThen} {line : List Byte} (room : line.length < 128)
    (goes_on : (afterEcho k line).2 = false) : (afterEcho k line).1.length < 128 := by
  cases k with
  | terminate => cases goes_on
  | erase => simp only [afterEcho, List.length_dropLast]; omega
  | store b =>
    simp only [afterEcho, beq_eq_false_iff_ne, ne_eq] at goes_on
    simp only [afterEcho, List.length_append, List.length_singleton]
    omega

section

variable {s : State} {line : List Byte}

/-- The line behind an echo edits the line held as the pure editor does. -/
theorem runSteps_afterEcho {k : EchoThen} (h : InFlight .gets (.gets k.line) s) (holds : HoldsLine line s)
    (room : line.length < 128) : ∃ n lb,
      HoldsLine (afterEcho k line).1 (edited (afterEcho k line).1 lb (afterEdit (afterEcho k line).2) s) ∧
      runSteps n s = .next (edited (afterEcho k line).1 lb (afterEdit (afterEcho k line).2) s) := by
  cases k with
  | terminate =>
    have same := edited_same holds
    rw [h.running.seq] at same
    exact ⟨0, s.lb, ⟨rfl, holds.fits, holds.text⟩, congrArg _ same.symm⟩
  | erase =>
    obtain ⟨discards, holds'⟩ := discardByte_edits holds
    exact ⟨1, s.lb, holds', runSteps_one ((step_internalAt h .discards).trans (congrArg _ discards))⟩
  | store b =>
    obtain ⟨stores, holds'⟩ := storeByte_edits holds room b
    exact ⟨1, _, holds', runSteps_one ((step_internalAt h (.stores b)).trans (congrArg _ stores))⟩

/-- The bytes of an echo. -/
theorem sendsText_echo (text : List Byte) (k : EchoThen) : SendsText .gets (echoNext text k) text (.gets k.line) := by
  induction text with
  | nil => exact .nil _
  | cons b more ih => exact .cons (sendsAt_echo b more k) rfl ih

/-- The bus events of one received byte: its wait, its data read, its echo. -/
def byteEvents (s : State) (r : Received) (echo : List Byte) : List BusEvent :=
  readsOf (s.base + s.cfg.off.uartFr) r.wait.reads ++ [.read (s.base + s.cfg.off.uartDr) r.data false]
    ++ sendAll s r.echo echo

/-- One byte received, echoed and put into the line (R194 to R198). -/
theorem runSteps_editByte {r : Received} {more : List Config.ReadAnswer} (h : InFlight .gets (.gets (.g2 .x1)) s)
    (holds : HoldsLine line s) (room : line.length < 128) (hr : Resolved s) (hw : WritesSucceed r.echo.length s)
    (hwait : r.wait.ends s.cfg.mask.rxfe = true) (hlen : r.echo.length = (editByte line r.byte).2.1.length)
    (hecho : ∀ w ∈ r.echo, w.ends s.cfg.mask.txff = true)
    (hd : s.devReads = answers (r.wait.reads ++ [r.data]) ++ (answers (r.echo.flatMap Wait.reads) ++ more)) :
    ∃ n lb, HoldsLine (editByte line r.byte).1 (edited (editByte line r.byte).1 lb (.gets .g9) s) ∧
      runSteps n s = .next (edited (editByte line r.byte).1 lb (afterEdit (editByte line r.byte).2.2)
        (busRun (byteEvents s r (editByte line r.byte).2.1) more r.echo.length (.gets (.g2 .x1)) s)) := by
  obtain ⟨e, es, k, class_eq, edit_eq⟩ := exists_echo r.byte
  rw [edit_eq] at hlen ⊢
  have receive := runSteps_receive h .gets hr hwait hd
  have at_echo := h.busRun (readsOf (s.base + s.cfg.off.uartFr) r.wait.reads
    ++ [.read (s.base + s.cfg.off.uartDr) r.data false]) (answers (r.echo.flatMap Wait.reads) ++ more) 0
    (.gets (classify r.byte))
  rw [class_eq] at at_echo
  rw [← Received.byte, class_eq] at receive
  have echo := runSteps_sendsText at_echo (sendsText_echo (e :: es) k) hlen hr hw hecho rfl
  obtain ⟨n, lb, holds', edits⟩ := runSteps_afterEcho (at_echo.busRun
    (sendAll s r.echo (e :: es)) more r.echo.length (.gets k.line)) (holds.move rfl rfl) room
  have whole := runSteps_trans (runSteps_trans receive echo) edits
  rw [busRun_busRun, Nat.zero_add] at whole
  exact ⟨_, lb, holds'.move rfl rfl, whole⟩

end

/-! ## The whole input -/

/-- The events of an input are at the block's own addresses. -/
theorem editEvents_congr {s t : State} (base : t.base = s.base) (cfg : t.cfg = s.cfg) :
    editEvents t = editEvents s := by
  funext line rs
  induction rs generalizing line with
  | nil => rfl
  | cons r rs ih => rw [editEvents, editEvents, base, cfg, sendAll_congr base cfg, ih]

theorem editFits_cons {c : Cfg} {line : List Byte} {r : Received} {rs : List Received} :
    editFits c line (r :: rs) = true ↔ r.wait.ends c.mask.rxfe = true ∧
      r.echo.length = (editByte line r.byte).2.1.length ∧ (∀ w ∈ r.echo, w.ends c.mask.txff = true) ∧
      editFits c (editByte line r.byte).1 rs = true := by
  simp only [editFits, Bool.and_eq_true, beq_iff_eq, List.all_eq_true, and_assoc]

/-- The pure editor at one byte: the line is finished, and the input with it, or it goes on with room. -/
theorem editLine_cons {line line' : List Byte} {b : Byte} {bs : List Byte} (room : line.length < 128)
    (h : editLine line (b :: bs) = some line') :
    ((editByte line b).2.2 = true ∧ bs = [] ∧ (editByte line b).1 = line') ∨
      ((editByte line b).2.2 = false ∧ (editByte line b).1.length < 128 ∧
        editLine (editByte line b).1 bs = some line') := by
  obtain ⟨e, es, k, -, edit_eq⟩ := exists_echo b
  rw [editLine, edit_eq] at h
  rw [edit_eq]
  cases finished : (afterEcho k line).2 with
  | true =>
    simp only [finished, Option.ite_none_right_eq_some, Option.some.injEq] at h
    exact .inl ⟨rfl, h⟩
  | false =>
    simp only [finished] at h
    exact .inr ⟨rfl, length_afterEcho room finished, h⟩

/-- The loop of GETS over an input that ends a line at its last byte, to G9. -/
theorem runSteps_editLine {rs : List Received} {line line' : List Byte} {s : State} {more : List Config.ReadAnswer}
    (h : InFlight .gets (.gets (.g2 .x1)) s) (holds : HoldsLine line s) (room : line.length < 128) (hr : Resolved s)
    (hw : WritesSucceed (echoCount rs) s) (hfits : editFits s.cfg line rs = true)
    (hline : editLine line (rs.map Received.byte) = some line')
    (hd : s.devReads = answers (editReads rs) ++ more) :
    ∃ n lb, HoldsLine line' (edited line' lb (.gets .g9) s) ∧ runSteps n s =
      .next (edited line' lb (.gets .g9) (busRun (editEvents s line rs) more (echoCount rs) (.gets (.g2 .x1)) s)) := by
  induction rs generalizing line s with
  | nil => cases hline
  | cons r rs ih =>
    obtain ⟨wait_ends, echo_length, echo_ends, rest_fits⟩ := editFits_cons.mp hfits
    have count : echoCount (r :: rs) = r.echo.length + echoCount rs := by simp [echoCount]
    have reads : answers (editReads (r :: rs)) ++ more = answers (r.wait.reads ++ [r.data]) ++
        (answers (r.echo.flatMap Wait.reads) ++ (answers (editReads rs) ++ more)) := by
      simp only [editReads, List.flatMap_cons, answers_append, List.append_assoc]
    have events : editEvents s line (r :: rs) =
      byteEvents s r (editByte line r.byte).2.1 ++ editEvents s (editByte line r.byte).1 rs := rfl
    rw [count] at hw ⊢
    rw [events]
    obtain ⟨n, lb, holds', byte⟩ := runSteps_editByte h holds room hr (writesSucceed_mono hw (Nat.le_add_right _ _))
      wait_ends echo_length echo_ends (hd.trans reads)
    rcases editLine_cons room hline with ⟨finished, no_more, last⟩ | ⟨goes_on, room', rest_line⟩
    · cases List.map_eq_nil_iff.mp no_more
      subst last
      rw [finished] at byte
      refine ⟨n, lb, holds', byte.trans ?_⟩
      simp [edited, busRun, afterEdit, editEvents, echoCount, editReads, answers]
    · rw [goes_on] at byte
      obtain ⟨n', lb', held, rest⟩ := ih (s := edited (editByte line r.byte).1 lb (afterEdit false)
        (busRun (byteEvents s r (editByte line r.byte).2.1) (answers (editReads rs) ++ more) r.echo.length
          (.gets (.g2 .x1)) s))
        (h.move rfl rfl rfl rfl rfl) (holds'.move rfl rfl) room' hr (writesSucceed_drop hw rfl rfl)
        rest_fits rest_line rfl
      refine ⟨n + n', lb', held.move rfl rfl, (runSteps_trans byte rest).trans ?_⟩
      simp [edited, busRun, Nat.add_assoc, editEvents_congr (s := s)]

/-- G0 to G2: an empty line (R194). -/
theorem step_clears {s : State} (h : InFlight .gets (.gets .g0) s) :
    step s = .next (edited [] s.lb (.gets (.g2 .x1)) s) := step_internalAt h .clears

theorem holdsLine_nil (lb : Vector Byte 128) (l : Seq) (s : State) : HoldsLine [] (edited [] lb l s) :=
  ⟨rfl, Nat.zero_le _, rfl⟩

/-- GETS from its acceptance to its completion, once its loop ends with a line (R193, R199). -/
theorem runSteps_gets {s t : State} {rest : List CmdWord} {line : List Byte} {n : Nat} (ha : Accepting s)
    (ready : s.drv = .ready ∨ s.base = 0) (hp : s.port = commandFields 0xA 0 0 :: rest)
    (loop : runSteps n (edited [] s.lb (.gets (.g2 .x1)) (accepted .gets rest s)) = .next t)
    (at_g9 : InFlight .gets (.gets .g9) t) (holds : HoldsLine line t) : runSteps (1 + 1 + n + 1 + 2) s =
      .next (complete { t with
        respq := t.respq ++ BitVec.ofNat 64 line.length :: packBytes line
        seq := .complete }) := by
  have flight := inFlight_accepted ha .gets rest
  have entry := runSteps_one (step_entry flight .gets ready)
  have clears := runSteps_one (step_clears (flight.goto (.gets .g0)))
  have responds := runSteps_one (step_internalAt at_g9 .getsResponds)
  have whole := runSteps_command ha rfl hp
    (runSteps_trans (runSteps_trans (runSteps_trans entry clears) loop) responds) (at_g9.move rfl rfl rfl rfl rfl)
  rw [whole, holds.response]
  rfl

/-- Settles O40: the loop of GETS refines the pure editor byte by byte. -/
theorem getsRefinesTheLineEditor : Obligations.GetsRefinesTheLineEditor := by
  intro s rest rs line more ha ready hr hw hp hfits hline hd
  have flight := inFlight_accepted ha .gets rest
  obtain ⟨n, lb, holds, loop⟩ := runSteps_editLine (s := edited [] s.lb (.gets (.g2 .x1)) (accepted .gets rest s))
    (flight.move rfl rfl rfl rfl rfl) (holdsLine_nil _ _ _) (by decide) hr hw hfits hline hd
  have whole := runSteps_gets ha (.inl ready) hp loop (flight.move rfl rfl rfl rfl rfl) (holds.move rfl rfl)
  refine ⟨_, lb, holds.text, holds.fits, whole.trans ?_⟩
  simp [complete, edited, busRun, accepted, accept, ha.busy, ha.seq, editEvents_congr (s := s)]

/-! ## GETS while `BASE` is 0 -/

theorem classify_zero : classify 0 = .echo 0 [] .t1 (.store 0) := by decide

/-- One zero byte received, echoed and stored while `BASE` is 0 (R182). -/
theorem runSteps_zeroByte {k : Nat} {s : State} (h : InFlight .gets (.gets (.g2 .x1)) s) (hb : s.base = 0)
    (holds : HoldsLine (List.replicate k 0) s) (room : k < 128) : ∃ lb,
      HoldsLine (List.replicate (k + 1) 0) (edited (List.replicate (k + 1) 0) lb (afterEdit (k + 1 == 128)) s) ∧
      runSteps 5 s = .next (edited (List.replicate (k + 1) 0) lb (afterEdit (k + 1 == 128)) s) := by
  obtain ⟨stores, holds'⟩ := storeByte_edits holds (by rwa [List.length_replicate]) 0
  rw [← List.replicate_succ', List.length_replicate] at stores holds'
  have receive := runSteps_receive_unresolved h .gets hb
  rw [classify_zero] at receive
  have at_echo := h.goto (.gets (.echo 0 [] .t1 (.store 0)))
  have echo := runSteps_send_unresolved (s := s.goto (.gets (.echo 0 [] .t1 (.store 0)))) at_echo
    (sendsAt_echo 0 [] (.store 0)) hb
  have store := runSteps_one (step_internalAt (at_echo.goto (.gets (.g5Store 0))) (.stores 0))
  refine ⟨_, holds', (runSteps_trans (runSteps_trans receive echo) store).trans ?_⟩
  rw [← stores]
  rfl

/-- The loop of GETS while `BASE` is 0: zero bytes until the line is full (R182, R198). -/
theorem runSteps_zeroLine {m k : Nat} {s : State} (h : InFlight .gets (.gets (.g2 .x1)) s) (hb : s.base = 0)
    (holds : HoldsLine (List.replicate k 0) s) (hm : k + (m + 1) = 128) : ∃ lb,
      HoldsLine (List.replicate 128 0) (edited (List.replicate 128 0) lb (.gets .g9) s) ∧
      runSteps (5 * (m + 1)) s = .next (edited (List.replicate 128 0) lb (.gets .g9) s) := by
  obtain ⟨lb, holds', byte⟩ := runSteps_zeroByte h hb holds (by omega)
  induction m generalizing k s lb with
  | zero =>
    obtain rfl : k = 127 := by omega
    exact ⟨lb, holds', byte⟩
  | succ m ih =>
    have goes_on : (k + 1 == 128) = false := by simp; omega
    rw [goes_on] at byte holds'
    have flight : InFlight .gets (.gets (.g2 .x1)) (edited (List.replicate (k + 1) 0) lb (afterEdit false) s) :=
      h.move rfl rfl rfl rfl rfl
    obtain ⟨lb', next_holds, next_byte⟩ := runSteps_zeroByte flight hb holds' (by omega)
    obtain ⟨lb'', held, rest⟩ := ih flight hb holds' (by omega) lb' next_holds next_byte
    rw [Nat.mul_succ, Nat.add_comm]
    exact ⟨lb'', held, runSteps_trans byte rest⟩

/-- A buffer full of zeros. -/
theorem eq_replicate_of_holdsLine {s : State} (h : HoldsLine (List.replicate 128 0) s) :
    s.lb = Vector.replicate 128 0 := by
  have text := h.text
  rw [List.length_replicate, List.take_of_length_le (by simp)] at text
  exact Vector.toList_inj.mp (text.trans Vector.toList_replicate.symm)

theorem packBytes_zeros : packBytes (List.replicate 128 0) = List.replicate 16 0 := by decide

theorem gets_unresolved {s : State} {rest : List CmdWord} (ha : Accepting s) (hb : s.base = 0)
    (hp : s.port = commandFields 0xA 0 0 :: rest) :
    runSteps 645 s = .next { s with
      port := rest
      cur := some .gets
      len := 128
      lb := Vector.replicate 128 0
      respq := s.respq ++ 128 :: List.replicate 16 0 } := by
  have flight := inFlight_accepted ha .gets rest
  obtain ⟨lb, holds, loop⟩ := runSteps_zeroLine (m := 127) (k := 0)
    (s := edited [] s.lb (.gets (.g2 .x1)) (accepted .gets rest s)) (flight.move rfl rfl rfl rfl rfl) hb
    (holdsLine_nil _ _ _) rfl
  have zeros : lb = Vector.replicate 128 0 := eq_replicate_of_holdsLine holds
  have whole := runSteps_gets ha (.inr hb) hp loop (flight.move rfl rfl rfl rfl rfl) holds
  rw [packBytes_zeros, zeros] at whole
  refine whole.trans ?_
  simp [complete, edited, accepted, accept, ha.busy, ha.seq]

/-- Settles O41: each of the four byte commands over the absorbed accesses of R104 and R109. -/
theorem byteCommandsWithoutBaseAreAbsorbed : Obligations.ByteCommandsWithoutBaseAreAbsorbed :=
  fun _ _ _ _ _ ha hb =>
    ⟨putb_unresolved ha hb, getb_unresolved ha hb, puts_unresolved ha hb, gets_unresolved ha hb⟩

end Sys2Proof.Machine
end
